-- ==== Sys2Proof/Word.lean ====
section
/-! DEFINITION. The words of the block: bytes, bus addresses and response words (00_scope R7, 30_encoding R100). -/

namespace Sys2Proof

/-- A byte: the width of a register, of a memory element and of the data master's data (00_scope R7). -/
abbrev Byte := BitVec 8

/-- A bus address: 16 bits (00_scope R7). -/
abbrev Addr := BitVec 16

/-- The response word: the 32 bits of the instruction master's read data, four byte lanes (00_scope R7). -/
abbrev Word32 := BitVec 32

end Sys2Proof
end

