-- ==== Sys2Proof/Config.lean ====
section
/-! DEFINITION. The configuration value Cfg (30_encoding R95), the configuration errors (60_exceptions R251 to R267),
the reference configuration REFCFG (20_memory R62, 10_state R31 to R33) and the one free value of the model. -/

namespace Sys2Proof

/-- Field access policy (10_state R25). -/
inductive Access where
  | readWrite
  | readOnly
  | pulse
  | clearOnWrite
deriving DecidableEq, Repr

/-- RegisterField (10_state R25, 30_encoding R95). `reset` and the bit range are unbounded here: ADD checks them
(CE5, CE13). -/
structure Field where
  name : String
  offset : Nat
  size : Nat
  access : Access
  mirror : Bool
  reset : Nat
deriving DecidableEq, Repr

/-- Register (10_state R24, 30_encoding R95): `address` is the full bus address; ADD checks `width = 8` (CE7). -/
structure Register where
  address : Addr
  name : String
  width : Nat
  fields : List Field
deriving DecidableEq, Repr

/-- RegisterBank (10_state R28): its registers in `add` order, and whether FINALIZE has run (43_register_bank R186). -/
structure Bank where
  registers : List Register
  finalized : Bool
deriving DecidableEq, Repr

/-- The options and the image of a MemoryRegion (10_state R29, 30_encoding R95). -/
structure MemOptions where
  wide : Bool
  writable : Bool
  image : List Byte
deriving DecidableEq, Repr

/-- Resource: "a tagged union {MemoryRegion, RegisterBank}" (10_state R34). -/
inductive Resource where
  | mem (m : MemOptions)
  | bank (b : Bank)
deriving DecidableEq, Repr

/-- AddressRegion (10_state R34, 30_encoding R95). -/
structure Region where
  name : String
  base : Addr
  size : Addr
  mainRam : Bool
  resource : Resource
deriving DecidableEq, Repr

/-- The binding of the toggle table to its control register, by field names (30_encoding R95, 44_toggle_table R214). -/
structure TogBinding where
  ctl : Addr
  ep : String
  dir : String
  set : String
  reset : String
  q : String
deriving DecidableEq, Repr

/-- The parameter HANDSHAKE (00_scope R11, 41_arbiter R134). -/
inductive Handshake where
  | pipelined
  | classic
deriving DecidableEq, Repr

/-- The configuration value (30_encoding R95). `regions` is in `add_region` order. -/
structure Cfg where
  blockSize : Nat
  handshake : Handshake
  regions : List Region
  toggle : Option TogBinding
deriving DecidableEq, Repr

/-- Which field: the bank (its region's place in `Cfg.regions`), the register's bus address and the field's offset.
"A field's storage is keyed by bank and register address" (43_register_bank R170); the offset tells the fields of one
register apart, since their bit ranges are disjoint (log 9). -/
structure FieldKey where
  bank : Nat
  addr : Addr
  offset : Nat
deriving DecidableEq, Repr

/-- What a bus address reaches: DECODE's `Option<ResourceId>` (40_decoder R110, R112) with the resource's description.
`k` is the bank's place in `Cfg.regions`. -/
inductive Hit where
  | unmapped
  | mem (r : Region) (m : MemOptions)
  | bank (k : Nat) (b : Bank)
deriving DecidableEq, Repr

/-- The five fields of the toggle table's control register, resolved (44_toggle_table R214). -/
structure TogKeys where
  ep : FieldKey
  dir : FieldKey
  set : FieldKey
  reset : FieldKey
  q : FieldKey
deriving DecidableEq, Repr

/-- A configuration error: its code and the offending item (60_exceptions R251 to R264, R267). DESIGN CHOICE (log 17): a
region, a register or a field is recorded by its name, and what is recorded where the rule names no item is the
model's. -/
inductive ConfigError where
  /-- CE1 (R251), raised by ADD. -/
  | ce1DuplicateAddress (address : Addr)
  /-- CE2 (R252), raised by ADD. -/
  | ce2DuplicateName (name : String)
  /-- CE3 (R253), raised by ADD. DESIGN CHOICE (log 17): R253 names no item, and the code alone is recorded. -/
  | ce3EmptyName
  /-- CE4 (R254), raised by ADD_REGION; the new region and the existing one. -/
  | ce4Overlap (region existing : String)
  /-- CE5 (R255), raised by ADD. -/
  | ce5FieldRange (register field : String)
  /-- CE6 (R256), raised by ADD. -/
  | ce6FieldOverlap (register field other : String)
  /-- CE7 (R257), raised by ADD and FINALIZE. -/
  | ce7MultiWord (register : String)
  /-- CE8 (R258), raised by LOAD_IMAGE. -/
  | ce8ImageTooLong (region : String) (length : Nat)
  /-- CE9 (R259), raised by ADD_REGION. -/
  | ce9BeyondSpace (region : String)
  /-- CE10 (R260), raised when the address map is constructed. -/
  | ce10BlockSize (blockSize : Nat)
  /-- CE11 (R261), raised by ADD_REGION. -/
  | ce11MainRam (region : String)
  /-- CE12 (R262), raised by ADD. -/
  | ce12FieldPolicy (register field : String)
  /-- CE13 (R263), raised by ADD. -/
  | ce13ResetValue (register field : String)
  /-- CE14 (R264), raised by ADD on a finalized bank and by a run started on a bank that is not. DESIGN CHOICE (log 17):
  R264 names no item, and the code alone is recorded. -/
  | ce14Order
  /-- CE15 (R267), raised when the configuration is completed. -/
  | ce15ToggleBinding (ctl : Addr)
deriving DecidableEq, Repr

/-- The argument of GET: `get(address_or_name)` (43_register_bank R185). -/
inductive RegisterQuery where
  | byAddress (a : Addr)
  | byName (n : String)
deriving DecidableEq, Repr

/-- LE1, the failure of GET (60_exceptions R265). -/
inductive LookupError where
  | le1 (q : RegisterQuery)
deriving DecidableEq, Repr

/-- FREE VALUE (log 7). The value of a mirror field that no peripheral of the spec owns: "a combinational function of
S_n given by the peripheral that owns it" (43_register_bank R177), and the spec gives only `q`'s. Its arguments are the
five groups of the state (10_state R20) and the field; nothing constrains it. -/
opaque Config.mirrorValue (mem : List Host.Cell) (flds : List (FieldKey × Byte)) (tog : BitVec 7) (resp : Word32)
    (ackD ackI : Bool) (key : FieldKey) : Byte

/-- `CSR_E600` of REFCFG (10_state R31). -/
def csrE600 : Register :=
  { address := 0xE600#16, name := "CSR_E600", width := 8,
    fields := [{ name := "val", offset := 0, size := 8, access := .readWrite, mirror := false, reset := 0 }] }

/-- `TOGCTL` of REFCFG (10_state R32), the toggle table's control register. -/
def togctl : Register :=
  { address := 0xE683#16, name := "TOGCTL", width := 8,
    fields :=
      [{ name := "q", offset := 7, size := 1, access := .readOnly, mirror := true, reset := 0 },
       { name := "set", offset := 6, size := 1, access := .pulse, mirror := false, reset := 0 },
       { name := "reset", offset := 5, size := 1, access := .pulse, mirror := false, reset := 0 },
       { name := "dir", offset := 4, size := 1, access := .readWrite, mirror := false, reset := 0 },
       { name := "ep", offset := 0, size := 4, access := .readWrite, mirror := false, reset := 0 }] }

/-- Region `main` of REFCFG (20_memory R62); the image is "per example". -/
def mainRegion (image : List Byte) : Region :=
  { name := "main", base := 0x0000#16, size := 0x4000#16, mainRam := true,
    resource := .mem { wide := true, writable := true, image := image } }

/-- Region `csr` of REFCFG (20_memory R62), a finalized bank holding `regs`. -/
def csrRegion (regs : List Register) : Region :=
  { name := "csr", base := 0xE600#16, size := 0x0100#16, mainRam := false,
    resource := .bank { registers := regs, finalized := true } }

/-- The binding of REFCFG (44_toggle_table R214: `ctl = 0xE683`). -/
def togctlBinding : TogBinding :=
  { ctl := 0xE683#16, ep := "ep", dir := "dir", set := "set", reset := "reset", q := "q" }

/-- REFCFG with a given image of main RAM (00_scope R13, 20_memory R62): `B = 64`, `HANDSHAKE = pipelined`. -/
def refCfg (image : List Byte) : Cfg :=
  { blockSize := 64, handshake := .pipelined,
    regions := [mainRegion image, csrRegion [csrE600, togctl]], toggle := some togctlBinding }

end Sys2Proof
end

