-- ==== Sys2Proof/Syntax.lean ====
section
/-! DEFINITION. The inputs of a cycle (30_encoding R80) and the operations of spec/opcode_table.json, one constructor of
`Instr` per row. An "instruction" of this hardware is a bus operation or a micro-operation of one cycle. -/

namespace Sys2Proof

/-- The request wires of both masters in one cycle (30_encoding R80), the hardware-set channel apart. -/
structure Request where
  dReq : Bool
  dWe : Bool
  iReq : Bool
  dAdr : Addr
  dDatW : Byte
  iAdr : Addr
deriving DecidableEq, Repr

/-- An event on the hardware-set channel: `hw[a][f]` with `hw_we = 1`, and its `hw_val` (30_encoding R80,
43_register_bank R175). The wire has as many bits as the field. -/
structure HwEvent where
  key : FieldKey
  val : Byte
deriving DecidableEq, Repr

/-- The inputs of one cycle, `In` (30_encoding R80): a field of `hw[a][f]` without an event has `hw_we = 0`. -/
structure In where
  req : Request
  hw : List HwEvent
deriving DecidableEq, Repr

/-- What one field sees in one cycle (43_register_bank R170 to R175): whether its register is strobed, the byte
written, and the hardware-set value if `hw_we = 1`. -/
structure FieldIn where
  key : FieldKey
  strobe : Bool
  w : Byte
  hw : Option Byte
deriving DecidableEq, Repr

/-- The operations of spec/opcode_table.json. -/
inductive Instr where
  /-- IDLE (41_arbiter R143): no master requests; the bus address is `i_adr`. -/
  | idle (iAdr : Addr)
  /-- IFETCH (41_arbiter R144): the instruction master's 32-bit read. -/
  | ifetch (iAdr : Addr)
  /-- DREAD (41_arbiter R145): the data master's 8-bit read. -/
  | dread (dAdr : Addr)
  /-- DWRITE (41_arbiter R146): the data master's 8-bit write of `v`. -/
  | dwrite (dAdr : Addr) (v : Byte)
  /-- MEM.RD8 (42_memory_region R151): byte read at a bus address. -/
  | memRd8 (adr : Addr)
  /-- MEM.RD32 (42_memory_region R152): four-lane read at a bus address. -/
  | memRd32 (adr : Addr)
  /-- REG.RD (43_register_bank R181): register read at a bus address. -/
  | regRd (adr : Addr)
  /-- UNMAPPED.RD (41_arbiter R137): read of an address that decodes to nothing. -/
  | unmappedRd (adr : Addr)
  /-- MEM.WR8 (42_memory_region R154): byte write at a bus address. -/
  | memWr8 (adr : Addr) (v : Byte)
  /-- REG.WR (43_register_bank R183): strobe of the register at a bus address. -/
  | regWr (adr : Addr) (v : Byte)
  /-- UNMAPPED.WR (41_arbiter R137): write to an address that decodes to nothing. -/
  | unmappedWr (adr : Addr) (v : Byte)
  /-- FLD.RW (43_register_bank R171). -/
  | fldRw (c : FieldIn)
  /-- FLD.RO (43_register_bank R172). -/
  | fldRo (c : FieldIn)
  /-- FLD.PULSE (43_register_bank R174). -/
  | fldPulse (c : FieldIn)
  /-- FLD.COW (43_register_bank R173). -/
  | fldCow (c : FieldIn)
  /-- HWSET (43_register_bank R175): assign `v` (`size` bits) to a field through its channel. -/
  | hwset (key : FieldKey) (size : Nat) (v : Byte)
  /-- TOG.SET (44_toggle_table R216) with the control register's other operand bits. -/
  | togSet (reset : Bool) (dir : Bool) (ep : BitVec 4)
  /-- TOG.RESET (44_toggle_table R217). -/
  | togReset (dir : Bool) (ep : BitVec 4)
  /-- TOG.HOLD (44_toggle_table R222): selection only. -/
  | togHold (dir : Bool) (ep : BitVec 4)
deriving DecidableEq, Repr

end Sys2Proof
end

