-- ==== Sys2Proof/WellFormed.lean ====
section
/-! DEFINITION. Which operations are well formed: the operands that fit the wires and the fields' bit ranges. The
validity of a configuration (30_encoding R95) is in Machine/Validity.lean. -/

namespace Sys2Proof

/-- A field's offset is 0 to 7 (10_state R25). -/
def FieldKey.wf (k : FieldKey) : Bool := decide (k.offset ≤ 7)

/-- A well-formed operation. The policy operations name a field whose offset exists (10_state R25); HWSET's channel has
1 to 8 value bits, the value fits them (30_encoding R80, `1 + size_f` wires) and the field fits the register
(`offset + size ≤ 8`, 10_state R25). Every other operand is a bit vector of the width its wire has. -/
def Instr.wf : Instr → Bool
  | .idle _ => true
  | .ifetch _ => true
  | .dread _ => true
  | .dwrite _ _ => true
  | .memRd8 _ => true
  | .memRd32 _ => true
  | .regRd _ => true
  | .unmappedRd _ => true
  | .memWr8 _ _ => true
  | .regWr _ _ => true
  | .unmappedWr _ _ => true
  | .fldRw c => c.key.wf
  | .fldRo c => c.key.wf
  | .fldPulse c => c.key.wf
  | .fldCow c => c.key.wf
  | .hwset k n v => k.wf && decide (1 ≤ n) && decide (k.offset + n ≤ 8) && decide (v.toNat < 2 ^ n)
  | .togSet _ _ _ => true
  | .togReset _ _ => true
  | .togHold _ _ => true

end Sys2Proof
end

