-- ==== Sys2Proof/Decode.lean ====
section
/-! DEFINITION. The decoders of the block and their encoder (30_encoding R83 to R94). A word is decoded in the place of
the hardware that looks at it: the arbiter decodes the control tuple (R84); the read path and the write path decode by
the resource the address selects (R85); a field's policy code (R90), a hardware-set channel (R80) and the byte of the
toggle control register (R94) have decoders of their own. The rows of spec/opcode_table.json that share bits are told
apart by that place, the table's column `select` (log 14). -/

namespace Sys2Proof

/-- The 43-bit request word: `d_req d_we i_req d_adr d_dat_w i_adr`, most significant first (30_encoding R83). -/
def Request.word (q : Request) : BitVec 43 :=
  BitVec.ofBool q.dReq ++ BitVec.ofBool q.dWe ++ BitVec.ofBool q.iReq ++ q.dAdr ++ q.dDatW ++ q.iAdr

/-- The wires of a request word (30_encoding R83). -/
def Request.ofWord (w : BitVec 43) : Request :=
  { dReq := w.getLsbD 42, dWe := w.getLsbD 41, iReq := w.getLsbD 40,
    dAdr := w.extractLsb' 24 16, dDatW := w.extractLsb' 16 8, iAdr := w.extractLsb' 0 16 }

/-- The bus address of a request: `d_req ? d_adr : i_adr` (41_arbiter R132). -/
def busAdr (q : Request) : Addr := if q.dReq then q.dAdr else q.iAdr

/-- The bus operation of a cycle, by the control tuple alone (30_encoding R84). -/
def busOperation (q : Request) : Instr :=
  match q.dReq, q.dWe, q.iReq with
  | false, _, false => .idle q.iAdr
  | false, _, true => .ifetch q.iAdr
  | true, false, _ => .dread q.dAdr
  | true, true, _ => .dwrite q.dAdr q.dDatW

/-- What the second-level decode knows of the addressed resource (30_encoding R85, the table's `select`). -/
inductive Target where
  | memNarrow
  | memWide
  | bank
  | unmapped
deriving DecidableEq, Repr

/-- The place of the hardware in which a word is decoded. -/
inductive View where
  /-- The arbiter: the control tuple of the request word (30_encoding R84). -/
  | control
  /-- The read path, every cycle: the resource at the bus address (30_encoding R85). -/
  | readPath (t : Target)
  /-- The write path of a DWRITE: the resource at `d_adr` (30_encoding R85). -/
  | writePath (t : Target)
  /-- A field's access code, two bits, with what the field sees in the cycle (30_encoding R90). -/
  | policy (c : FieldIn)
  /-- The hardware-set channel of a field of `size` bits: `hw_we` in bit `size`, `hw_val` below it (30_encoding R80). -/
  | hwChannel (key : FieldKey) (size : Nat)
  /-- The byte written to TOGCTL: `q s r d e e e e` (30_encoding R94). -/
  | toggle
deriving DecidableEq, Repr

/-- Why a word is rejected. -/
inductive DecodeError where
  /-- Bits are set above the format's width. -/
  | bitsAbove
  /-- The write path looks at a request that is not a DWRITE. -/
  | notAWrite
  /-- `hw_we = 0`: no hardware-set event (43_register_bank R175). -/
  | noEvent
  /-- The field or the channel is not one a register can have (10_state R25). -/
  | badField
deriving DecidableEq, Repr

/-- The read micro-operation a target selects (30_encoding R85). -/
def readInstr (t : Target) (a : Addr) : Instr :=
  match t with
  | .memNarrow => .memRd8 a
  | .memWide => .memRd32 a
  | .bank => .regRd a
  | .unmapped => .unmappedRd a

/-- The write micro-operation a target selects (30_encoding R85). -/
def writeInstr (t : Target) (a : Addr) (v : Byte) : Instr :=
  match t with
  | .memNarrow => .memWr8 a v
  | .memWide => .memWr8 a v
  | .bank => .regWr a v
  | .unmapped => .unmappedWr a v

/-- The field micro-operation of an access policy (30_encoding R85). -/
def fieldInstr (a : Access) (c : FieldIn) : Instr :=
  match a with
  | .readWrite => .fldRw c
  | .readOnly => .fldRo c
  | .pulse => .fldPulse c
  | .clearOnWrite => .fldCow c

/-- The policy codes: `ReadWrite = 0b00`, `ReadOnly = 0b01`, `Pulse = 0b10`, `ClearOnWrite = 0b11` (30_encoding R90). -/
def policyOfCode (w : BitVec 2) : Access :=
  if w = 0b00#2 then .readWrite else if w = 0b01#2 then .readOnly else if w = 0b10#2 then .pulse else .clearOnWrite

/-- The code of a policy (30_encoding R90). -/
def codeOfPolicy (a : Access) : BitVec 2 :=
  match a with
  | .readWrite => 0b00#2
  | .readOnly => 0b01#2
  | .pulse => 0b10#2
  | .clearOnWrite => 0b11#2

/-- The toggle operation a control byte arms: `x1xdeeee`, `x01deeee`, `x00deeee` (30_encoding R94). -/
def toggleInstr (set reset dir : Bool) (ep : BitVec 4) : Instr :=
  if set then .togSet reset dir ep else if reset then .togReset dir ep else .togHold dir ep

/-- The decoders, total on every number: it answers an operation or rejects by name. -/
def decode (v : View) (w : Nat) : Except DecodeError Instr :=
  match v with
  | .control =>
    if w < 2 ^ 43 then .ok (busOperation (.ofWord (BitVec.ofNat 43 w))) else .error .bitsAbove
  | .readPath t =>
    if w < 2 ^ 43 then .ok (readInstr t (busAdr (.ofWord (BitVec.ofNat 43 w)))) else .error .bitsAbove
  | .writePath t =>
    let q := Request.ofWord (BitVec.ofNat 43 w)
    if ¬ w < 2 ^ 43 then .error .bitsAbove
    else if q.dReq && q.dWe then .ok (writeInstr t q.dAdr q.dDatW) else .error .notAWrite
  | .policy c =>
    if ¬ w < 2 ^ 2 then .error .bitsAbove
    else if c.key.wf then .ok (fieldInstr (policyOfCode (BitVec.ofNat 2 w)) c) else .error .badField
  | .hwChannel k n =>
    if ¬ w < 2 ^ (n + 1) then .error .bitsAbove
    else if ¬ (k.wf && decide (1 ≤ n) && decide (k.offset + n ≤ 8)) then .error .badField
    else if w.testBit n then .ok (.hwset k n (BitVec.ofNat 8 (w % 2 ^ n))) else .error .noEvent
  | .toggle =>
    let b := BitVec.ofNat 8 w
    if w < 2 ^ 8 then .ok (toggleInstr (b.getLsbD 6) (b.getLsbD 5) (b.getLsbD 4) (b.extractLsb' 0 4))
    else .error .bitsAbove

/-- An instruction-side request word with address `a` and no request: the read path runs on it (41_arbiter R132). -/
def readRequest (iReq : Bool) (a : Addr) : Request :=
  { dReq := false, dWe := false, iReq := iReq, dAdr := 0, dDatW := 0, iAdr := a }

/-- A data-side request (41_arbiter R145, R146). -/
def dataRequest (we : Bool) (a : Addr) (v : Byte) : Request :=
  { dReq := true, dWe := we, iReq := false, dAdr := a, dDatW := v, iAdr := 0 }

/-- The byte of TOGCTL that selects and arms: `q s r d e e e e` with `q = 0` (30_encoding R94). -/
def toggleByte (set reset dir : Bool) (ep : BitVec 4) : Byte :=
  BitVec.ofBool false ++ BitVec.ofBool set ++ BitVec.ofBool reset ++ BitVec.ofBool dir ++ ep

/-- The place and the word of an operation; ignored bits are 0 (30_encoding R83, R84, R90, R94). -/
def encode (i : Instr) : View × Nat :=
  match i with
  | .idle a => (.control, (readRequest false a).word.toNat)
  | .ifetch a => (.control, (readRequest true a).word.toNat)
  | .dread a => (.control, (dataRequest false a 0).word.toNat)
  | .dwrite a v => (.control, (dataRequest true a v).word.toNat)
  | .memRd8 a => (.readPath .memNarrow, (readRequest false a).word.toNat)
  | .memRd32 a => (.readPath .memWide, (readRequest false a).word.toNat)
  | .regRd a => (.readPath .bank, (readRequest false a).word.toNat)
  | .unmappedRd a => (.readPath .unmapped, (readRequest false a).word.toNat)
  | .memWr8 a v => (.writePath .memNarrow, (dataRequest true a v).word.toNat)
  | .regWr a v => (.writePath .bank, (dataRequest true a v).word.toNat)
  | .unmappedWr a v => (.writePath .unmapped, (dataRequest true a v).word.toNat)
  | .fldRw c => (.policy c, (codeOfPolicy .readWrite).toNat)
  | .fldRo c => (.policy c, (codeOfPolicy .readOnly).toNat)
  | .fldPulse c => (.policy c, (codeOfPolicy .pulse).toNat)
  | .fldCow c => (.policy c, (codeOfPolicy .clearOnWrite).toNat)
  | .hwset k n v => (.hwChannel k n, 2 ^ n + v.toNat)
  | .togSet r d e => (.toggle, (toggleByte true r d e).toNat)
  | .togReset d e => (.toggle, (toggleByte false true d e).toNat)
  | .togHold d e => (.toggle, (toggleByte false false d e).toNat)

/-- The field that a policy code or a channel word given without its field is read for (log 14): bank 1, register
0xE600, offset 0. -/
def fetchKey : FieldKey := { bank := 1, addr := 0xE600#16, offset := 0 }

/-- What that field sees: its register strobed with a byte of zeros (the table gives the byte no bits). -/
def fetchFieldIn : FieldIn := { key := fetchKey, strobe := true, w := 0, hw := none }

/-- The place that decodes a table row's word, by its width and, where two formats of the table share a width, by its
bits (log 14). 43 bits (48 in whole bytes) are the request word, whose decoder is the arbiter. 2 bits are a policy
code; 8 bits are a policy code in a whole byte where bits 7:2 are 0, else the byte of TOGCTL. The table gives HWSET no
width: at most 1 bit is `hw_we` alone, with `hw_val` zeros; 9 bits (16 in whole bytes) are the channel of an 8-bit
field. -/
def tableView (nbits w : Nat) : Option (View × Nat) :=
  if nbits = 43 ∨ nbits = 48 then some (.control, w)
  else if nbits = 2 ∨ (nbits = 8 ∧ w < 2 ^ 2) then some (.policy fetchFieldIn, w)
  else if nbits = 8 then some (.toggle, w)
  else if nbits ≤ 1 then some (.hwChannel fetchKey 8, w * 2 ^ 8)
  else if nbits = 9 ∨ nbits = 16 then some (.hwChannel fetchKey 8, w)
  else none

/-- The instruction the decoder reads from a word of spec/opcode_table.json. -/
def decodeTableWord (nbits w : Nat) : Option Instr :=
  (tableView nbits w).bind fun p => (decode p.1 p.2).toOption

end Sys2Proof
end

