-- ==== Sys2Proof/Machine/State.lean ====
section
/-! DEFINITION. The state of the block (10_state R20) as plain data, its reset, and the named updates of its fields. -/

namespace Sys2Proof.Machine

/-- Memory: (address, byte) cells, addresses strictly rising, no cell equal to what an unlisted one reads as. The byte
`mem[r][l]` of the spec stands at the address `base_r + l` (log 4). -/
abbrev Memory := List Host.Cell

/-- What an unlisted address reads as: `0x00`, "zero-padded to fill the remainder" (10_state R46). -/
abbrev unlisted : Byte := 0x00#8

/-- The canonical form of memory. -/
abbrev Memory.wf (m : Memory) : Prop :=
  (m.map Prod.fst).Pairwise (· < ·) ∧ ∀ c ∈ m, c.2 ≠ unlisted

/-- The state. `mem`, `flds`, `tog`, `resp`, `ackD`, `ackI` are the five groups of 10_state R20; `cfg` is the
configuration, which no step changes (R44, log 1); `inputs` holds the inputs the environment presents, the current
cycle's first (45_cycle_step R240, log 2). -/
structure State where
  cfg : Cfg
  mem : Memory
  flds : List (FieldKey × Byte)
  tog : BitVec 7
  resp : Word32
  ackD : Bool
  ackI : Bool
  inputs : List In
deriving DecidableEq, Repr

/-- Faults. The block has none at run time (60_exceptions R271); a configuration error is fatal before cycle 0. -/
inductive Fault where
  /-- Raised by construction and by starting a run (60_exceptions R250 to R268), through `raiseConfig`. Safe: the spec
  says no state exists then. -/
  | configError (e : ConfigError)
deriving DecidableEq, Repr

/-- Refusals. -/
inductive Refusal where
  /-- Raised by an arm of `exec` that has no meaning; no arm is so. Safe. -/
  | notModelled (mnemonic : String)
  /-- Raised by `step` where no input is supplied for the cycle: "a run ends when the caller stops supplying inputs"
  (45_cycle_step R240). Safe (log 2). -/
  | noInput
deriving DecidableEq, Repr

/-- `s` with another memory. -/
def State.withMem (s : State) (m : Memory) : State := { s with mem := m }

/-- `s` with other field values. -/
def State.withFlds (s : State) (l : List (FieldKey × Byte)) : State := { s with flds := l }

/-- `s` with another toggle table. -/
def State.withTog (s : State) (t : BitVec 7) : State := { s with tog := t }

/-- `s` with another response word. -/
def State.withResp (s : State) (w : Word32) : State := { s with resp := w }

/-- `s` with other acknowledges. -/
def State.withAcks (s : State) (d i : Bool) : State := { s with ackD := d, ackI := i }

/-- `s` with other inputs to come. -/
def State.withInputs (s : State) (l : List In) : State := { s with inputs := l }

/-- The state right after reset, for REFCFG with no image (10_state R49; log 1, log 3): memory with nothing listed, every
field at its `reset` attribute, the toggle table and the read path 0, and no input presented. -/
def State.reset : State :=
  { cfg := refCfg []
    mem := []
    flds :=
      [({ bank := 1, addr := 0xE600#16, offset := 0 }, 0x00#8),
       ({ bank := 1, addr := 0xE683#16, offset := 6 }, 0x00#8),
       ({ bank := 1, addr := 0xE683#16, offset := 5 }, 0x00#8),
       ({ bank := 1, addr := 0xE683#16, offset := 4 }, 0x00#8),
       ({ bank := 1, addr := 0xE683#16, offset := 0 }, 0x00#8)]
    tog := 0#7
    resp := 0#32
    ackD := false
    ackI := false
    inputs := [] }

end Sys2Proof.Machine
end

