-- ==== Sys2Proof/Machine/Operands.lean ====
section
/-! DEFINITION. The operands of the operations: address arithmetic and DECODE (40_decoder, 30_encoding R87, R101 to
R104), field bits (30_encoding R91, R92), and where a field, a register and the toggle binding stand in `Cfg`. -/

namespace Sys2Proof.Machine

/-- `n = log2(B)` (00_scope R8). -/
def blockBits (c : Cfg) : Nat := Nat.log2 c.blockSize

/-- The block index of a bus address, `a >> n` (30_encoding R87). -/
def blockOf (c : Cfg) (a : Addr) : Nat := a.toNat >>> blockBits c

/-- `lo = base >> n` (30_encoding R102, 40_decoder R111). -/
def blockLo (c : Cfg) (r : Region) : Nat := r.base.toNat >>> blockBits c

/-- `hi = (base + size) >> n`, the sum unbounded (30_encoding R102, 40_decoder R111). -/
def blockHi (c : Cfg) (r : Region) : Nat := (r.base.toNat + r.size.toNat) >>> blockBits c

/-- `lo_r ≤ b ∧ b < hi_r` (40_decoder R112). -/
def hits (c : Cfg) (a : Addr) (r : Region) : Bool :=
  decide (blockLo c r ≤ blockOf c a) && decide (blockOf c a < blockHi c r)

/-- DECODE with the region and its place in the list (40_decoder R112). -/
def decodeAddr (c : Cfg) (a : Addr) : Option (Region × Nat) := c.regions.zipIdx.find? fun p => hits c a p.1

/-- DECODE with the resource taken apart: unmapped, a MemoryRegion or a RegisterBank (40_decoder R110, R112). -/
def resolve (c : Cfg) (a : Addr) : Hit :=
  match decodeAddr c a with
  | none => .unmapped
  | some (r, k) =>
    match r.resource with
    | .mem m => .mem r m
    | .bank b => .bank k b

/-- DECODE.FAST: `(a & ~(size - 1)) == 0` at 16 bits (40_decoder R114, 30_encoding R103). -/
def decodeFast (m : Region) (a : Addr) : Bool := decide (a &&& ~~~(m.size - 1#16) = 0#16)

/-- The target the second-level decode hands to the read and write paths (30_encoding R85). -/
def target (c : Cfg) (a : Addr) : Target :=
  match resolve c a with
  | .unmapped => .unmapped
  | .mem _ m => if m.wide then .memWide else .memNarrow
  | .bank _ _ => .bank

/-- The local address `l = (a - base) mod 2^16` (30_encoding R101). -/
def localAddr (r : Region) (a : Addr) : Addr := a - r.base

/-- The local address of lane `k`, `(l + k) mod 2^16` (30_encoding R104). DESIGN CHOICE (log 16): in a wide
region of size 0xFFFE or more, this formula takes the lanes past local address 0xFFFF to local addresses from 0 up,
where R104's last sentence says that lanes do not wrap around into the start of the region. -/
def laneAddr (l : Addr) (k : Nat) : Addr := l + BitVec.ofNat 16 k

/-- The address under which `mem[r][l]` stands in `State.mem`: `base_r + l`, unbounded (log 4). -/
def cellAddr (r : Region) (l : Addr) : Nat := r.base.toNat + l.toNat

/-- `size` ones (30_encoding R91: a field value is an `s`-bit value). -/
def sizeMask (size : Nat) : Byte := BitVec.ofNat 8 (2 ^ size - 1)

/-- `FieldBits(f, w) = w[o+s-1 : o]` (30_encoding R91). -/
def fieldBits (f : Field) (w : Byte) : Byte := (w >>> f.offset) &&& sizeMask f.size

/-- `Place(f, v) = zext_8(v) << o` (30_encoding R92). -/
def place (f : Field) (v : Byte) : Byte := v <<< f.offset

/-- The value on the `size_f` wires `hw_val` (30_encoding R80). -/
def hwBits (f : Field) (v : Byte) : Byte := v &&& sizeMask f.size

/-- The bank at a place of the region list. -/
def bankAt (c : Cfg) (k : Nat) : Option Bank :=
  match c.regions[k]? with
  | some { resource := .bank b, .. } => some b
  | _ => none

/-- The register at an address of a bank: the read-dispatch table (43_register_bank R186). -/
def registerAt (b : Bank) (a : Addr) : Option Register := b.registers.find? fun g => decide (g.address = a)

/-- The description of a field. -/
def fieldAt (c : Cfg) (k : FieldKey) : Option Field :=
  (bankAt c k.bank).bind fun b => (registerAt b k.addr).bind fun g => g.fields.find? fun f => decide (f.offset = k.offset)

/-- The fields with storage of a configuration, banks, registers and fields in order (10_state R20, R26). -/
def storedFields (c : Cfg) : List (FieldKey × Field) :=
  c.regions.zipIdx.flatMap fun p =>
    match p.1.resource with
    | .mem _ => []
    | .bank b =>
      b.registers.flatMap fun g =>
        (g.fields.filter fun f => !f.mirror).map fun f => ({ bank := p.2, addr := g.address, offset := f.offset }, f)

/-- Whether a field has a hardware-set channel: a ReadOnly field without `mirror`, or a ClearOnWrite field
(43_register_bank R175). -/
def hasChannel (f : Field) : Bool :=
  !f.mirror &&
    match f.access with
    | .readOnly => true
    | .clearOnWrite => true
    | .readWrite => false
    | .pulse => false

/-- `hw_val` of a field whose `hw_we` is 1 in this cycle (30_encoding R80); the first event of a field counts (log 8). -/
def hwFor (evs : List HwEvent) (k : FieldKey) : Option Byte :=
  (evs.find? fun e => decide (e.key = k)).map HwEvent.val

/-- The hardware-set events of the current cycle. -/
def hwNow (s : State) : List HwEvent :=
  match s.inputs with
  | [] => []
  | i :: _ => i.hw

/-- The register `Cfg.toggle.ctl` names, with its bank's place: the one the address reaches, else the first bank that
holds one there (44_toggle_table R214, log 10). -/
def controlRegister (c : Cfg) (a : Addr) : Option (Nat × Register) :=
  let held := c.regions.zipIdx.findSome? fun p =>
    (bankAt c p.2).bind fun b => (registerAt b a).map fun g => (p.2, g)
  match resolve c a with
  | .bank k b =>
    match registerAt b a with
    | some g => some (k, g)
    | none => held
  | _ => held

/-- The field of a register with a given name, if it has the policy, size and mirror attribute the binding asks for
(44_toggle_table R214). -/
def boundField (g : Register) (name : String) (acc : Access) (size : Nat) (mirror : Bool) : Option Nat :=
  match g.fields.find? fun f => decide (f.name = name) with
  | some f => if f.access = acc ∧ f.size = size ∧ f.mirror = mirror then some f.offset else none
  | none => none

/-- The five fields of the toggle table's control register; `none` without a binding or where CE15 applies
(44_toggle_table R214). -/
def togKeys (c : Cfg) : Option TogKeys :=
  match c.toggle with
  | none => none
  | some t =>
    match controlRegister c t.ctl with
    | none => none
    | some (k, g) =>
      match boundField g t.ep .readWrite 4 false, boundField g t.dir .readWrite 1 false,
        boundField g t.set .pulse 1 false, boundField g t.reset .pulse 1 false,
        boundField g t.q .readOnly 1 true with
      | some e, some d, some x, some r, some q =>
        some { ep := ⟨k, g.address, e⟩, dir := ⟨k, g.address, d⟩, set := ⟨k, g.address, x⟩,
               reset := ⟨k, g.address, r⟩, q := ⟨k, g.address, q⟩ }
      | _, _, _, _, _ => none

/-- INDEX_OF (44_toggle_table R212): `d` is the direction, OUT = false, IN = true (30_encoding R93). -/
def indexOf (e : BitVec 4) (d : Bool) : Option Nat :=
  if e = 0#4 then some 0
  else if e = 1#4 then some (1 + d.toNat)
  else if e = 2#4 ∨ e = 4#4 ∨ e = 6#4 ∨ e = 8#4 then some (e.toNat / 2 + 2)
  else none

end Sys2Proof.Machine
end

