-- ==== Sys2Proof/Machine/Flags.lean ====
section
/-! DEFINITION. The block has no condition codes (10_state R23). Its per-cycle status bits are the acceptance of a
request, the two acknowledges and the constant error outputs (41_arbiter R133 to R140), and the outputs they reach. -/

namespace Sys2Proof.Machine

/-- `¬(Cfg.handshake = classic ∧ S.ack_x)`: the master's own acknowledge does not gate its request
(41_arbiter R133, R134). -/
def ungated (c : Cfg) (ack : Bool) : Bool := !(decide (c.handshake = .classic) && ack)

/-- `acc_d` (41_arbiter R133). -/
def accD (s : State) (q : Request) : Bool := q.dReq && ungated s.cfg s.ackD

/-- `acc_i` (41_arbiter R133). -/
def accI (s : State) (q : Request) : Bool := !q.dReq && q.iReq && ungated s.cfg s.ackI

/-- `wr = acc_d ∧ d_we` (41_arbiter R140). -/
def writeStrobe (s : State) (q : Request) : Bool := accD s q && q.dWe

/-- The outputs of a cycle (30_encoding R81). -/
structure Out where
  dDatR : Byte
  dAck : Bool
  dErr : Bool
  iDatR : Word32
  iAck : Bool
  iErr : Bool
deriving DecidableEq, Repr

/-- `Outputs(S)`: of the state alone; the errors are constant 0 (45_cycle_step R238, 41_arbiter R138, R139). -/
def outputs (s : State) : Out :=
  { dDatR := s.resp.extractLsb' 0 8, dAck := s.ackD, dErr := false, iDatR := s.resp, iAck := s.ackI, iErr := false }

end Sys2Proof.Machine
end

