-- ==== Sys2Proof/Machine/Ops.lean ====
section
/-! DEFINITION. The shared operations: memory cells, field storage and the four policies, the toggle table, the read
value, the one tick of the block, and the raising of a configuration error. Each reads the state before the tick only
(45_cycle_step R239). -/

namespace Sys2Proof.Machine

/-! Memory -/

/-- One byte of memory. -/
def Memory.read (m : Memory) (a : Nat) : Byte :=
  match m with
  | [] => unlisted
  | (k, v) :: rest => if a = k then v else Memory.read rest a

/-- The cells after one byte is written, in canonical form: a byte equal to what an unlisted address reads as has no
cell. -/
def Memory.write (m : Memory) (a : Nat) (v : Byte) : Memory :=
  match m with
  | [] => if v = unlisted then [] else [(a, v)]
  | (k, w) :: rest =>
    if a < k then (if v = unlisted then (k, w) :: rest else (a, v) :: (k, w) :: rest)
    else if a = k then (if v = unlisted then rest else (a, v) :: rest)
    else (k, w) :: Memory.write rest a v

/-- Bytes loaded from an address upwards: LOAD_IMAGE's `S_0.mem[r][l] = image[l]` (42_memory_region R157). -/
def Memory.load (m : Memory) (a : Nat) (bytes : List Byte) : Memory :=
  match bytes with
  | [] => m
  | b :: rest => Memory.load (Memory.write m a b) (a + 1) rest

/-- `Byte(S, r, l)`: the byte of a region at a local address, 0 at or past the size (42_memory_region R160, R156). -/
def regionByte (m : Memory) (r : Region) (l : Addr) : Byte :=
  if l.toNat < r.size.toNat then m.read (cellAddr r l) else 0x00#8

/-- MEM.RD8's value: `zext_32(Byte(S, r, l))` (42_memory_region R151). -/
def readNarrow (m : Memory) (r : Region) (l : Addr) : Word32 := (regionByte m r l).setWidth 32

/-- MEM.RD32's value: lane `k` in bits `8k+7:8k` (42_memory_region R152, 20_memory R51). -/
def readWide (m : Memory) (r : Region) (l : Addr) : Word32 :=
  regionByte m r (laneAddr l 3) ++ regionByte m r (laneAddr l 2) ++ regionByte m r (laneAddr l 1)
    ++ regionByte m r (laneAddr l 0)

/-- MEM.WR8's memory: one byte, where the region has write support and the local address is inside it
(42_memory_region R154 to R156). -/
def writeByte (m : Memory) (r : Region) (o : MemOptions) (l : Addr) (v : Byte) : Memory :=
  if o.writable && decide (l.toNat < r.size.toNat) then m.write (cellAddr r l) v else m

/-! Fields -/

/-- The first value listed under a key. -/
def lookupField (l : List (FieldKey × Byte)) (k : FieldKey) : Option Byte :=
  match l with
  | [] => none
  | (j, v) :: rest => if j = k then some v else lookupField rest k

/-- `S.fld[a][f]`; 0 where nothing is stored. -/
def fieldVal (s : State) (k : FieldKey) : Byte := (lookupField s.flds k).getD 0x00#8

/-- Field storage with one field assigned. -/
def setField (l : List (FieldKey × Byte)) (k : FieldKey) (v : Byte) : List (FieldKey × Byte) :=
  l.map fun p => if p.1 = k then (p.1, v) else p

/-- FLD.RW: `strobe ? FieldBits(f, w) : cur` (43_register_bank R171). -/
def policyReadWrite (f : Field) (cur : Byte) (c : FieldIn) : Byte := if c.strobe then fieldBits f c.w else cur

/-- FLD.RO: `hw_we ? hw_val : cur`; a bus write is ignored (43_register_bank R172). -/
def policyReadOnly (f : Field) (cur : Byte) (c : FieldIn) : Byte :=
  match c.hw with
  | some v => hwBits f v
  | none => cur

/-- FLD.PULSE: `strobe ? FieldBits(f, w) : 0` (43_register_bank R174). -/
def policyPulse (f : Field) (c : FieldIn) : Byte := if c.strobe then fieldBits f c.w else 0x00#8

/-- FLD.COW: the hardware-set value wins, else a strobe clears the bits written 1 (43_register_bank R173, R176). -/
def policyClearOnWrite (f : Field) (cur : Byte) (c : FieldIn) : Byte :=
  match c.hw with
  | some v => hwBits f v
  | none => if c.strobe then cur &&& ~~~(fieldBits f c.w) else cur

/-- The next value of a stored field (45_cycle_step R235). A mirror field has no storage and keeps nothing
(43_register_bank R177). -/
def nextField (f : Field) (cur : Byte) (c : FieldIn) : Byte :=
  if f.mirror then cur
  else
    match f.access with
    | .readWrite => policyReadWrite f cur c
    | .readOnly => policyReadOnly f cur c
    | .pulse => policyPulse f c
    | .clearOnWrite => policyClearOnWrite f cur c

/-- `strobe[a]` without `wr`: the bus address decodes to the field's bank and is its register's address
(43_register_bank R170). -/
def strobed (c : Cfg) (a : Addr) (k : FieldKey) : Bool :=
  match resolve c a with
  | .bank n _ => decide (k.bank = n) && decide (k.addr = a)
  | _ => false

/-- What a field sees in a cycle whose bus address is `a` and whose accepted write, if any, carries a byte
(43_register_bank R170, 45_cycle_step R231). -/
def fieldIn (c : Cfg) (a : Addr) (wr : Option Byte) (evs : List HwEvent) (k : FieldKey) : FieldIn :=
  { key := k, strobe := wr.isSome && strobed c a k, w := wr.getD 0x00#8, hw := hwFor evs k }

/-- Every stored field's next value, all from the same state and the same byte (45_cycle_step R235,
43_register_bank R179). -/
def nextFlds (s : State) (a : Addr) (wr : Option Byte) (evs : List HwEvent) : List (FieldKey × Byte) :=
  s.flds.map fun p =>
    match fieldAt s.cfg p.1 with
    | some f => (p.1, nextField f p.2 (fieldIn s.cfg a wr evs p.1))
    | none => p

/-! Toggle table -/

/-- The bit of a one-bit field. -/
def fieldBit (s : State) (k : FieldKey) : Bool := (fieldVal s k).getLsbD 0

/-- `sel(S)`: the selected index, from the stored selector fields (44_toggle_table R215). -/
def togSel (s : State) (t : TogKeys) : Option Nat := indexOf ((fieldVal s t.ep).setWidth 4) (fieldBit s t.dir)

/-- `NextTog` as a function of the pulses, the selected index and the table (44_toggle_table R216 to R218, R222). -/
def togAct (set reset : Bool) (sel : Option Nat) (t : BitVec 7) : BitVec 7 :=
  match sel with
  | none => t
  | some i => if set then t ||| (1#7 <<< i) else if reset then t &&& ~~~(1#7 <<< i) else t

/-- `NextTog(S)`; without a binding the table keeps its value (45_cycle_step R236). -/
def nextTog (s : State) : BitVec 7 :=
  match togKeys s.cfg with
  | none => s.tog
  | some t => togAct (fieldBit s t.set) (fieldBit s t.reset) (togSel s t) s.tog

/-- `Q(S) = sel(S) = Some(i) ? S.tog[i] : 0` (44_toggle_table R219, R220). -/
def mirrorQ (s : State) (t : TogKeys) : Byte :=
  match togSel s t with
  | some i => (BitVec.ofBool (s.tog.getLsbD i)).setWidth 8
  | none => 0x00#8

/-! Read path -/

/-- The value of a mirror field: `Q(S)` for the toggle status, else the free value of its unknown owner
(43_register_bank R177, log 7). -/
def mirrorVal (s : State) (k : FieldKey) (f : Field) : Byte :=
  let free := Config.mirrorValue s.mem s.flds s.tog s.resp s.ackD s.ackI k &&& sizeMask f.size
  match togKeys s.cfg with
  | some t => if k = t.q then mirrorQ s t else free
  | none => free

/-- `FieldValue(S, a, f)` (43_register_bank R177). -/
def fieldValue (s : State) (k : FieldKey) (f : Field) : Byte := if f.mirror then mirrorVal s k f else fieldVal s k

/-- `RegValue(S, a)`: the bitwise or of the placed field values, gaps 0 (43_register_bank R178, R180). -/
def regValue (s : State) (k : Nat) (g : Register) : Byte :=
  g.fields.foldr
    (fun f acc => place f (fieldValue s { bank := k, addr := g.address, offset := f.offset } f) ||| acc) 0x00#8

/-- `BankValue(S, k, a)`: the register's value, 0 at a hole, in bits 7:0 (43_register_bank R181, R182, R187). -/
def bankValue (s : State) (k : Nat) (b : Bank) (a : Addr) : Word32 :=
  match registerAt b a with
  | some g => (regValue s k g).setWidth 32
  | none => 0#32

/-- `ReadValue(S, a)` (45_cycle_step R233). -/
def readValue (s : State) (a : Addr) : Word32 :=
  match resolve s.cfg a with
  | .unmapped => 0#32
  | .mem r o => if o.wide then readWide s.mem r (localAddr r a) else readNarrow s.mem r (localAddr r a)
  | .bank k b => bankValue s k b a

/-! The tick -/

/-- Memory after a cycle: at most the one byte of an accepted write to a MemoryRegion (45_cycle_step R234). -/
def nextMem (s : State) (a : Addr) (wr : Option Byte) : Memory :=
  match wr, resolve s.cfg a with
  | some v, .mem r o => writeByte s.mem r o (localAddr r a) v
  | _, _ => s.mem

/-- One tick with bus address `a`, the accepted write's byte if there is one, and the new acknowledges: every group of
the state from the state before it (45_cycle_step R234 to R237). -/
def tick (s : State) (a : Addr) (wr : Option Byte) (ackD ackI : Bool) : State :=
  ((((s.withMem (nextMem s a wr)).withFlds (nextFlds s a wr (hwNow s))).withTog (nextTog s)).withResp
    (readValue s a)).withAcks ackD ackI

/-! Configuration errors -/

/-- What a configuration error does: no state exists and no cycle runs (60_exceptions R268). There is no return
(R269). -/
def raiseConfig (e : ConfigError) : Host.Outcome State Fault Refusal := .fault (.configError e)

/-! Fetch -/

/-- The inputs of the current cycle, if the environment presents any (45_cycle_step R240). -/
def fetch (s : State) : Option In := s.inputs.head?

/-- The next cycle's state: the cycle's inputs are "created and consumed within a single simulated cycle"
(10_state R44). -/
def retire (o : Host.Outcome State Fault Refusal) : Host.Outcome State Fault Refusal :=
  match o with
  | .next t => .next (t.withInputs t.inputs.tail)
  | .fault e => .fault e
  | .refused e => .refused e

end Sys2Proof.Machine
end

