-- ==== Sys2Proof/Machine/Bus.lean ====
section
/-! DEFINITION. The four bus operations (41_arbiter section 3). Each is one whole cycle: the read path latches the value
of the bus address, the acknowledges follow the acceptance, an accepted write lands, and the updates of every tick
happen (pulses clear, hardware-set events apply, armed toggle pulses act). -/

namespace Sys2Proof.Machine

/-- IDLE (41_arbiter R143). -/
def execIdle (iAdr : Addr) (s : State) : Host.Outcome State Fault Refusal :=
  .next (tick s iAdr none false false)

/-- IFETCH (41_arbiter R144): acknowledged unless `HANDSHAKE = classic` and `ack_i` is high. -/
def execIfetch (iAdr : Addr) (s : State) : Host.Outcome State Fault Refusal :=
  .next (tick s iAdr none false (ungated s.cfg s.ackI))

/-- DREAD (41_arbiter R145). -/
def execDread (dAdr : Addr) (s : State) : Host.Outcome State Fault Refusal :=
  .next (tick s dAdr none (ungated s.cfg s.ackD) false)

/-- DWRITE (41_arbiter R146): the byte lands if the request is accepted; `resp` takes the pre-write value. -/
def execDwrite (dAdr : Addr) (v : Byte) (s : State) : Host.Outcome State Fault Refusal :=
  .next (tick s dAdr (if ungated s.cfg s.ackD then some v else none) (ungated s.cfg s.ackD) false)

end Sys2Proof.Machine
end

