-- ==== Sys2Proof/Machine/MemoryRegion.lean ====
section
/-! DEFINITION. The micro-operations of the MemoryRegion and of unmapped addresses (42_memory_region, 41_arbiter R137),
each taken alone: it makes the assignments of its rule and no other (log 5), and assigns nothing where the address
reaches another resource than its row's (log 6). -/

namespace Sys2Proof.Machine

/-- MEM.RD8 (42_memory_region R151): selected by a MemoryRegion without wide port. -/
def execMemRd8 (adr : Addr) (s : State) : Host.Outcome State Fault Refusal :=
  match resolve s.cfg adr with
  | .mem r o => .next (if o.wide then s else s.withResp (readNarrow s.mem r (localAddr r adr)))
  | _ => .next s

/-- MEM.RD32 (42_memory_region R152): selected by a MemoryRegion with wide port. -/
def execMemRd32 (adr : Addr) (s : State) : Host.Outcome State Fault Refusal :=
  match resolve s.cfg adr with
  | .mem r o => .next (if o.wide then s.withResp (readWide s.mem r (localAddr r adr)) else s)
  | _ => .next s

/-- UNMAPPED.RD (41_arbiter R137): the read value is 0, all 32 bits. -/
def execUnmappedRd (adr : Addr) (s : State) : Host.Outcome State Fault Refusal :=
  match resolve s.cfg adr with
  | .unmapped => .next (s.withResp 0#32)
  | _ => .next s

/-- MEM.WR8 (42_memory_region R154 to R156): selected by a MemoryRegion. -/
def execMemWr8 (adr : Addr) (v : Byte) (s : State) : Host.Outcome State Fault Refusal :=
  match resolve s.cfg adr with
  | .mem r o => .next (s.withMem (writeByte s.mem r o (localAddr r adr) v))
  | _ => .next s

/-- UNMAPPED.WR (41_arbiter R137): a write that changes no state, whether or not the address is unmapped. -/
def execUnmappedWr (_adr : Addr) (_v : Byte) (s : State) : Host.Outcome State Fault Refusal := .next s

end Sys2Proof.Machine
end

