-- ==== Sys2Proof/Machine/RegisterBank.lean ====
section
/-! DEFINITION. The micro-operations of the register bank: REG.RD, REG.WR, the four field policies and HWSET
(43_register_bank), each taken alone: it makes the assignments of its rule and no other (log 5), and assigns nothing
where its row's resource or field is not there (log 6). -/

namespace Sys2Proof.Machine

/-- REG.RD (43_register_bank R181, R182): selected by a RegisterBank. -/
def execRegRd (adr : Addr) (s : State) : Host.Outcome State Fault Refusal :=
  match resolve s.cfg adr with
  | .bank k b => .next (s.withResp (bankValue s k b adr))
  | _ => .next s

/-- The fields after the register at bus address `a` is strobed with `v`, no other field changed
(43_register_bank R179, R183). -/
def strobeFlds (s : State) (a : Addr) (v : Byte) : List (FieldKey × Byte) :=
  s.flds.map fun p =>
    match fieldAt s.cfg p.1 with
    | some f => if strobed s.cfg a p.1 then (p.1, nextField f p.2 { key := p.1, strobe := true, w := v, hw := none }) else p
    | none => p

/-- REG.WR (43_register_bank R183, R182): selected by a RegisterBank; at a hole nothing is strobed. -/
def execRegWr (adr : Addr) (v : Byte) (s : State) : Host.Outcome State Fault Refusal :=
  match resolve s.cfg adr with
  | .bank _ _ => .next (s.withFlds (strobeFlds s adr v))
  | _ => .next s

/-- A field micro-operation: the field takes the value its policy gives, if it is a stored field of that policy; a
mirror field has no storage and bus writes ignore it (43_register_bank R177). -/
def onField (acc : Access) (next : Field → Byte → Byte) (k : FieldKey) (s : State) : Host.Outcome State Fault Refusal :=
  match fieldAt s.cfg k with
  | some f =>
    .next (if f.access = acc ∧ f.mirror = false then s.withFlds (setField s.flds k (next f (fieldVal s k))) else s)
  | none => .next s

/-- FLD.RW (43_register_bank R171). -/
def execFldRw (c : FieldIn) (s : State) : Host.Outcome State Fault Refusal :=
  onField .readWrite (fun f cur => policyReadWrite f cur c) c.key s

/-- FLD.RO (43_register_bank R172). -/
def execFldRo (c : FieldIn) (s : State) : Host.Outcome State Fault Refusal :=
  onField .readOnly (fun f cur => policyReadOnly f cur c) c.key s

/-- FLD.PULSE (43_register_bank R174). -/
def execFldPulse (c : FieldIn) (s : State) : Host.Outcome State Fault Refusal :=
  onField .pulse (fun f _ => policyPulse f c) c.key s

/-- FLD.COW (43_register_bank R173, R176). -/
def execFldCow (c : FieldIn) (s : State) : Host.Outcome State Fault Refusal :=
  onField .clearOnWrite (fun f cur => policyClearOnWrite f cur c) c.key s

/-- HWSET (43_register_bank R175): selected by a field of that size that has a hardware-set channel. -/
def execHwset (k : FieldKey) (size : Nat) (v : Byte) (s : State) : Host.Outcome State Fault Refusal :=
  match fieldAt s.cfg k with
  | some f => .next (if hasChannel f && decide (f.size = size) then s.withFlds (setField s.flds k (hwBits f v)) else s)
  | none => .next s

end Sys2Proof.Machine
end

