-- ==== Sys2Proof/Machine/Toggle.lean ====
section
/-! DEFINITION. The micro-operations of the toggle table (44_toggle_table R216 to R222), each taken alone on the pulse
and selector values that are its operands (log 5). Without a binding the table "stays 0 for ever", so nothing is
assigned (R214); a selector that names no bit changes nothing (R220). -/

namespace Sys2Proof.Machine

/-- A toggle micro-operation on the table. -/
def onToggle (set reset dir : Bool) (ep : BitVec 4) (s : State) : Host.Outcome State Fault Refusal :=
  match togKeys s.cfg with
  | some _ => .next (s.withTog (togAct set reset (indexOf ep dir) s.tog))
  | none => .next s

/-- TOG.SET (44_toggle_table R216); it wins over `reset` (R218). -/
def execTogSet (reset dir : Bool) (ep : BitVec 4) (s : State) : Host.Outcome State Fault Refusal :=
  onToggle true reset dir ep s

/-- TOG.RESET (44_toggle_table R217). -/
def execTogReset (dir : Bool) (ep : BitVec 4) (s : State) : Host.Outcome State Fault Refusal :=
  onToggle false true dir ep s

/-- TOG.HOLD (44_toggle_table R222): no toggle bit changes. -/
def execTogHold (dir : Bool) (ep : BitVec 4) (s : State) : Host.Outcome State Fault Refusal :=
  onToggle false false dir ep s

end Sys2Proof.Machine
end

