-- ==== Sys2Proof/Machine/Dispatch.lean ====
section
/-! DEFINITION. One arm per operation of spec/opcode_table.json. -/

namespace Sys2Proof.Machine

def exec (i : Instr) (s : State) : Host.Outcome State Fault Refusal :=
  match i with
  | .idle a => Sys2Proof.Machine.execIdle a s
  | .ifetch a => Sys2Proof.Machine.execIfetch a s
  | .dread a => Sys2Proof.Machine.execDread a s
  | .dwrite a v => Sys2Proof.Machine.execDwrite a v s
  | .memRd8 a => Sys2Proof.Machine.execMemRd8 a s
  | .memRd32 a => Sys2Proof.Machine.execMemRd32 a s
  | .regRd a => Sys2Proof.Machine.execRegRd a s
  | .unmappedRd a => Sys2Proof.Machine.execUnmappedRd a s
  | .memWr8 a v => Sys2Proof.Machine.execMemWr8 a v s
  | .regWr a v => Sys2Proof.Machine.execRegWr a v s
  | .unmappedWr a v => Sys2Proof.Machine.execUnmappedWr a v s
  | .fldRw c => Sys2Proof.Machine.execFldRw c s
  | .fldRo c => Sys2Proof.Machine.execFldRo c s
  | .fldPulse c => Sys2Proof.Machine.execFldPulse c s
  | .fldCow c => Sys2Proof.Machine.execFldCow c s
  | .hwset k n v => Sys2Proof.Machine.execHwset k n v s
  | .togSet r d e => Sys2Proof.Machine.execTogSet r d e s
  | .togReset d e => Sys2Proof.Machine.execTogReset d e s
  | .togHold d e => Sys2Proof.Machine.execTogHold d e s

end Sys2Proof.Machine
end

