-- ==== Sys2Proof/Machine/Validity.lean ====
section
/-! DEFINITION. Which configurations are valid (30_encoding R95: "valid when no rule of 60_exceptions.md R251 to R264 or
R267 raises"), as one decidable proposition, each part named for the error that its failure is. -/

namespace Sys2Proof.Machine

/-- CE10's condition (60_exceptions R260): a power of two, `1 ≤ B ≤ 2^16`. -/
abbrev BlockSizeOk (c : Cfg) : Prop := 2 ^ Nat.log2 c.blockSize = c.blockSize ∧ c.blockSize ≤ 2 ^ 16

/-- CE5, CE12 and CE13 do not apply (60_exceptions R255, R262, R263). -/
abbrev FieldOk (f : Field) : Prop :=
  (1 ≤ f.size ∧ f.offset + f.size ≤ 8) ∧ (f.mirror = true → f.access = .readOnly) ∧
    (f.reset < 2 ^ f.size ∧ (f.mirror = true → f.reset = 0))

/-- The bit ranges of two fields do not meet (CE6, 60_exceptions R256). -/
abbrev FieldsApart (f g : Field) : Prop := f.offset + f.size ≤ g.offset ∨ g.offset + g.size ≤ f.offset

/-- CE3, CE5 to CE7, CE12 and CE13 do not apply to a register. -/
abbrev RegisterOk (g : Register) : Prop :=
  g.name ≠ "" ∧ g.width = 8 ∧ (∀ f ∈ g.fields, FieldOk f) ∧ g.fields.Pairwise FieldsApart

/-- CE1 and CE2 do not apply to two registers of one bank (60_exceptions R251, R252). -/
abbrev RegistersApart (g h : Register) : Prop := g.address ≠ h.address ∧ g.name ≠ h.name

/-- A bank ADD and FINALIZE accept. -/
abbrev BankOk (b : Bank) : Prop := (∀ g ∈ b.registers, RegisterOk g) ∧ b.registers.Pairwise RegistersApart

/-- A resource its construction accepts: an image that fits (CE8, 60_exceptions R258), or a bank. -/
def resourceOk (r : Region) : Bool :=
  match r.resource with
  | .mem m => decide (m.image.length ≤ r.size.toNat)
  | .bank b => decide (BankOk b)

/-- The byte ranges of two regions do not meet (CE4, 40_decoder R117). -/
abbrev BytesApart (q r : Region) : Prop :=
  ¬ (r.base.toNat < q.base.toNat + q.size.toNat ∧ q.base.toNat < r.base.toNat + r.size.toNat)

/-- The block ranges of two regions do not meet (CE4, 40_decoder R117). -/
abbrev BlocksApart (c : Cfg) (q r : Region) : Prop := ¬ (blockLo c r < blockHi c q ∧ blockLo c q < blockHi c r)

/-- The resource is a MemoryRegion. -/
def isMem (r : Region) : Bool :=
  match r.resource with
  | .mem _ => true
  | .bank _ => false

/-- What main RAM must be: base 0, size a power of two and at least a block, a MemoryRegion (CE11, 60_exceptions
R261). -/
abbrev MainRamOk (c : Cfg) (r : Region) : Prop :=
  r.mainRam = true →
    r.base = 0#16 ∧ 2 ^ Nat.log2 r.size.toNat = r.size.toNat ∧ c.blockSize ≤ r.size.toNat ∧ isMem r = true

/-- CE4, CE9 and CE11 do not apply to the region list (60_exceptions R254, R259, R261). -/
abbrev RegionsOk (c : Cfg) : Prop :=
  (∀ r ∈ c.regions, r.base.toNat + r.size.toNat ≤ 2 ^ 16 ∧ MainRamOk c r) ∧
    c.regions.Pairwise fun q r => BytesApart q r ∧ BlocksApart c q r ∧ ¬ (q.mainRam = true ∧ r.mainRam = true)

/-- CE15 does not apply (60_exceptions R267). -/
abbrev ToggleOk (c : Cfg) : Prop := c.toggle = none ∨ (togKeys c).isSome = true

/-- A valid configuration (30_encoding R95). -/
abbrev ValidCfg (c : Cfg) : Prop :=
  BlockSizeOk c ∧ (∀ r ∈ c.regions, resourceOk r = true) ∧ RegionsOk c ∧ ToggleOk c

/-- FINALIZE has run on the bank of a region, if it is one (43_register_bank R186). -/
def regionFinalized (r : Region) : Bool :=
  match r.resource with
  | .mem _ => true
  | .bank b => b.finalized

/-- Every bank is finalized (60_exceptions R264). -/
def allFinalized (c : Cfg) : Bool := c.regions.all regionFinalized

end Sys2Proof.Machine
end

