-- ==== Sys2Proof/Machine/Construct.lean ====
section
/-! DEFINITION. The construction-time operations (30_encoding R96, 70_reset_and_hazards R295): ADD, GET, FINALIZE,
LOAD_IMAGE, ADD_REGION, the binding of the toggle table, their composition, and the reset state a valid configuration
has (10_state R45 to R48). Each reports its first failing check in the order of its pseudocode (60_exceptions R266). -/

namespace Sys2Proof.Machine

/-- The checks of ADD on one field, in order: CE5, CE12, CE13 (43_register_bank R184). -/
def checkField (g : Register) (f : Field) : Except ConfigError Unit :=
  if f.size < 1 ∨ 8 < f.offset + f.size then .error (.ce5FieldRange g.name f.name)
  else if f.mirror = true ∧ f.access ≠ .readOnly then .error (.ce12FieldPolicy g.name f.name)
  else if 2 ^ f.size ≤ f.reset ∨ (f.mirror = true ∧ f.reset ≠ 0) then .error (.ce13ResetValue g.name f.name)
  else .ok ()

/-- `checkField` on every field, in order. -/
def checkFields (g : Register) (fs : List Field) : Except ConfigError Unit :=
  match fs with
  | [] => .ok ()
  | f :: rest => (checkField g f).bind fun _ => checkFields g rest

/-- CE6: the first pair of fields that share a bit (43_register_bank R184). -/
def checkApart (g : Register) (fs : List Field) : Except ConfigError Unit :=
  match fs with
  | [] => .ok ()
  | f :: rest =>
    match rest.find? fun h => !decide (FieldsApart f h) with
    | some h => .error (.ce6FieldOverlap g.name f.name h.name)
    | none => checkApart g rest

/-- ADD (43_register_bank R184): the register is stored under `address`. -/
def addRegister (b : Bank) (address : Addr) (g : Register) : Except ConfigError Bank :=
  if b.finalized = true then .error .ce14Order
  else if g.name = "" then .error .ce3EmptyName
  else if ∃ h ∈ b.registers, h.address = address then .error (.ce1DuplicateAddress address)
  else if ∃ h ∈ b.registers, h.name = g.name then .error (.ce2DuplicateName g.name)
  else if g.width ≠ 8 then .error (.ce7MultiWord g.name)
  else
    (checkFields g g.fields).bind fun _ => (checkApart g g.fields).bind fun _ =>
      .ok { b with registers := b.registers ++ [{ g with address := address }] }

/-- GET (43_register_bank R185), an inspection query. -/
def getRegister (b : Bank) (q : RegisterQuery) : Except LookupError Register :=
  let hit := match q with
    | .byAddress a => registerAt b a
    | .byName n => b.registers.find? fun g => decide (g.name = n)
  match hit with
  | some g => .ok g
  | none => .error (.le1 q)

/-- FINALIZE (43_register_bank R186): no register may be wider than one bus address. DESIGN CHOICE (log 18): R186's
pseudocode raises CE7 for a width above 8 and 60_exceptions R257 for one that is not 8; this is R186's test, so a width
below 8, which ADD lets into no bank, passes. -/
def finalizeBank (b : Bank) : Except ConfigError Bank :=
  match b.registers.find? fun g => decide (8 < g.width) with
  | some g => .error (.ce7MultiWord g.name)
  | none => .ok { b with finalized := true }

/-- ADD of every register of a list, in order. -/
def addRegisters (b : Bank) (regs : List Register) : Except ConfigError Bank :=
  match regs with
  | [] => .ok b
  | g :: rest => (addRegister b g.address g).bind fun b' => addRegisters b' rest

/-- LOAD_IMAGE's check (42_memory_region R157). -/
def loadImage (r : Region) (m : MemOptions) : Except ConfigError MemOptions :=
  if r.size.toNat < m.image.length then .error (.ce8ImageTooLong r.name m.image.length) else .ok m

/-- Building the resource of a region: its image, or its bank from the empty one to FINALIZE
(70_reset_and_hazards R295, step 2). -/
def buildResource (r : Region) : Except ConfigError Region :=
  match r.resource with
  | .mem m => (loadImage r m).map fun m' => { r with resource := .mem m' }
  | .bank b =>
    ((addRegisters { registers := [], finalized := false } b.registers).bind finalizeBank).map fun b' =>
      { r with resource := .bank b' }

/-- Every resource of a description, in order. -/
def buildResources (rs : List Region) : Except ConfigError (List Region) :=
  match rs with
  | [] => .ok []
  | r :: rest => (buildResource r).bind fun r' => (buildResources rest).map fun rest' => r' :: rest'

/-- ADD_REGION (40_decoder R117, 60_exceptions R259, R261, R254). CE11 stands between CE9 and CE4 (log 11). -/
def addRegion (c : Cfg) (r : Region) : Except ConfigError Cfg :=
  if 2 ^ 16 < r.base.toNat + r.size.toNat then .error (.ce9BeyondSpace r.name)
  else if ¬ MainRamOk c r ∨ (r.mainRam = true ∧ ∃ q ∈ c.regions, q.mainRam = true) then .error (.ce11MainRam r.name)
  else
    match c.regions.find? fun q => !decide (BytesApart q r ∧ BlocksApart c q r) with
    | some q => .error (.ce4Overlap r.name q.name)
    | none => .ok { c with regions := c.regions ++ [r] }

/-- ADD_REGION of every region of a list, in order. -/
def addRegions (c : Cfg) (rs : List Region) : Except ConfigError Cfg :=
  match rs with
  | [] => .ok c
  | r :: rest => (addRegion c r).bind fun c' => addRegions c' rest

/-- The binding of the toggle table (44_toggle_table R214, 60_exceptions R267). -/
def bindToggle (c : Cfg) (t : Option TogBinding) : Except ConfigError Cfg :=
  match t with
  | none => .ok { c with toggle := none }
  | some b =>
    if (togKeys { c with toggle := some b }).isSome then .ok { c with toggle := some b }
    else .error (.ce15ToggleBinding b.ctl)

/-- Construction from a description, in the order of 70_reset_and_hazards R295: block size, resources, regions, toggle
binding (log 12). -/
def construct (d : Cfg) : Except ConfigError Cfg :=
  if ¬ BlockSizeOk d then .error (.ce10BlockSize d.blockSize)
  else
    (buildResources d.regions).bind fun rs =>
      (addRegions { blockSize := d.blockSize, handshake := d.handshake, regions := [], toggle := none } rs).bind fun c =>
        bindToggle c d.toggle

/-- A region whose bank, if it holds one, is finalized. -/
def finalizedRegion (r : Region) : Region :=
  match r.resource with
  | .mem _ => r
  | .bank b => { r with resource := .bank { b with finalized := true } }

/-- A configuration with every bank finalized. -/
def finalizedCfg (c : Cfg) : Cfg := { c with regions := c.regions.map finalizedRegion }

/-- The reset contents of memory: every image, zero padded (10_state R46). -/
def initMem (m : Memory) (rs : List Region) : Memory :=
  match rs with
  | [] => m
  | r :: rest =>
    match r.resource with
    | .mem o => initMem (m.load r.base.toNat o.image) rest
    | .bank _ => initMem m rest

/-- `S_0` of a configuration (10_state R45 to R48): fields at their `reset`, memory at its images, the rest 0. -/
def initState (c : Cfg) : State :=
  { cfg := c, mem := initMem [] c.regions,
    flds := (storedFields c).map fun p => (p.1, BitVec.ofNat 8 p.2.reset),
    tog := 0#7, resp := 0#32, ackD := false, ackI := false, inputs := [] }

/-- The start of a run: CE14 if a bank is not finalized (60_exceptions R264), else `S_0` (70_reset_and_hazards R295,
step 5). -/
def startRun (c : Cfg) : Host.Outcome State Fault Refusal :=
  if allFinalized c then .next (initState c) else raiseConfig .ce14Order

/-- Construction and the start of a run: a configuration error leaves no state (60_exceptions R268). -/
def powerOn (d : Cfg) : Host.Outcome State Fault Refusal :=
  match construct d with
  | .ok c => startRun c
  | .error e => raiseConfig e

end Sys2Proof.Machine
end

