-- ==== Sys2Proof/Machine/Fetch.lean ====
section
/-! DEFINITION. How a word of spec/opcode_table.json is placed so that the next step performs its operation (log 14).
A micro-operation has no word that a master could present; the hardware performs it in a cycle. -/

namespace Sys2Proof.Machine

/-- `s` with a cycle's inputs presented as the next ones. -/
def present (s : State) (i : In) : State := s.withInputs (i :: s.inputs.tail)

/-- REFCFG with one 8-bit field of a given policy in place of `CSR_E600`'s field: the field `fetchKey` names. -/
def policyCfg (acc : Access) : Cfg :=
  { refCfg [] with
    regions :=
      [mainRegion [],
       csrRegion
        [{ csrE600 with fields := [{ name := "val", offset := 0, size := 8, access := acc, mirror := false, reset := 0 }] },
         togctl]] }

/-- `s` with that configuration and its fields at reset. -/
def withPolicyCfg (s : State) (acc : Access) : State :=
  { s.withFlds (initState (policyCfg acc)).flds with cfg := policyCfg acc }

/-- The stored fields after the toggle control register took a byte (43_register_bank R171, R174). -/
def withToggleByte (s : State) (b : Byte) : State :=
  match togKeys s.cfg with
  | some t =>
    s.withFlds
      (setField (setField (setField (setField s.flds t.set ((b >>> 6) &&& 1#8)) t.reset ((b >>> 5) &&& 1#8)) t.dir
        ((b >>> 4) &&& 1#8)) t.ep (b &&& 0x0F#8))
  | none => s

/-- The placing of a word, by the place that decodes it. -/
def placeWord (s : State) (nbits w : Nat) : State :=
  match tableView nbits w with
  | some (.control, w') => present s { req := .ofWord (BitVec.ofNat 43 w'), hw := [] }
  | some (.policy c, w') =>
    present (withPolicyCfg s (policyOfCode (BitVec.ofNat 2 w'))) { req := dataRequest true c.key.addr c.w, hw := [] }
  | some (.hwChannel k n, w') =>
    present (withPolicyCfg s .clearOnWrite)
      { req := readRequest false 0, hw := if w'.testBit n then [⟨k, BitVec.ofNat 8 (w' % 2 ^ n)⟩] else [] }
  | some (.toggle, w') => present (withToggleByte s (BitVec.ofNat 8 w')) { req := readRequest false 0, hw := [] }
  | _ => s

end Sys2Proof.Machine
end

