-- ==== Sys2Proof/Machine/Step.lean ====
section
/-! DEFINITION. The step of the machine: one cycle. -/

namespace Sys2Proof.Machine

/-- One cycle (45_cycle_step R230, R240): the inputs of the cycle are decoded to a bus operation, which runs; then they
are gone. Without inputs there is no cycle. -/
def step (s : State) : Host.Outcome State Fault Refusal :=
  match fetch s with
  | none => .refused .noInput
  | some i => retire (exec (busOperation i.req) s)

/-- `s` so set that its next step runs the instruction of a table row's word: a request word is presented as the
cycle's inputs; for a micro-operation's word, the configuration, the stored fields and the inputs of a cycle that
performs it (log 14). -/
def State.withFetchWord (s : State) (nbits w : Nat) : State := placeWord s nbits w

end Sys2Proof.Machine
end

