-- ==== Sys2Proof/Machine/Cycle.lean ====
section
/-! DEFINITION. The cycle as 45_cycle_step composes it, straight from the wires, and the micro-operations of the opcode
table that a cycle performs (30_encoding R85). The machine itself runs the four bus operations; these definitions say
the same a second and a third way, for statements that compare them. -/

namespace Sys2Proof.Machine

/-- The written byte of a cycle, if there is an accepted write: `wr` and `wdata` (41_arbiter R140). -/
def writtenByte (s : State) (q : Request) : Option Byte := if writeStrobe s q then some q.dDatW else none

/-- `Step(Cfg, S, In)` from the wires (45_cycle_step R230 to R237). The hardware-set events are the current cycle's. -/
def composedStep (s : State) (q : Request) : State := tick s (busAdr q) (writtenByte s q) (accD s q) (accI s q)

/-- The read micro-operation of a cycle: the read path runs every cycle (45_cycle_step R237). -/
def readOp (c : Cfg) (q : Request) : Instr := readInstr (target c (busAdr q)) (busAdr q)

/-- The write micro-operation of a cycle, if an accepted DWRITE is in it (41_arbiter R146). -/
def writeOp (s : State) (q : Request) : List Instr :=
  match writtenByte s q with
  | some v => [writeInstr (target s.cfg (busAdr q)) (busAdr q) v]
  | none => []

/-- The toggle micro-operation of a cycle, from the stored pulses and selectors (44_toggle_table R216 to R222). -/
def toggleOp (s : State) : List Instr :=
  match togKeys s.cfg with
  | some t => [toggleInstr (fieldBit s t.set) (fieldBit s t.reset) (fieldBit s t.dir) ((fieldVal s t.ep).setWidth 4)]
  | none => []

/-- The policy micro-operations of a cycle, one per stored field (45_cycle_step R235). -/
def fieldOps (s : State) (q : Request) : List Instr :=
  s.flds.flatMap fun p =>
    match fieldAt s.cfg p.1 with
    | some f => [fieldInstr f.access (fieldIn s.cfg (busAdr q) (writtenByte s q) (hwNow s) p.1)]
    | none => []

/-- The hardware-set micro-operations of a cycle, one per field whose `hw_we` is 1 (43_register_bank R175). -/
def hwsetOps (s : State) : List Instr :=
  s.flds.flatMap fun p =>
    match fieldAt s.cfg p.1, hwFor (hwNow s) p.1 with
    | some f, some v => if hasChannel f then [.hwset p.1 f.size (hwBits f v)] else []
    | _, _ => []

/-- Every micro-operation of a cycle, in an order in which each reads only what no earlier one writes. -/
def microOps (s : State) (q : Request) : List Instr :=
  readOp s.cfg q :: (toggleOp s ++ writeOp s q ++ fieldOps s q ++ hwsetOps s)

end Sys2Proof.Machine
end

