-- ==== Sys2Proof/Safety.lean ====
section
/-! DEFINITION. What the statements call a good state and a run: the invariant of the block, the running of
micro-operations one after another, and runs over presented inputs (45_cycle_step R240). -/

namespace Sys2Proof.Machine

/-- Every listed cell of memory is a byte of some MemoryRegion: `mem[r][l]` with `l < size_r` (10_state R29). -/
def ownedCell (c : Cfg) (a : Nat) : Bool :=
  c.regions.any fun r =>
    isMem r && decide (r.base.toNat ≤ a) && decide (a < r.base.toNat + r.size.toNat)

/-- A stored value has at most as many bits as its field (10_state R26). -/
def fieldFits (c : Cfg) (p : FieldKey × Byte) : Bool :=
  match fieldAt c p.1 with
  | some f => decide (p.2.toNat < 2 ^ f.size)
  | none => true

/-- The invariant: a valid, finalized configuration; memory in canonical form and inside the MemoryRegions; exactly the
stored fields of the configuration, each within its bits; never both acknowledges (41_arbiter R133). -/
structure Inv (s : State) : Prop where
  valid : ValidCfg s.cfg
  finalized : allFinalized s.cfg = true
  memCanonical : s.mem.wf
  memOwned : ∀ p ∈ s.mem, ownedCell s.cfg p.1 = true
  keys : s.flds.map Prod.fst = (storedFields s.cfg).map Prod.fst
  fits : ∀ p ∈ s.flds, fieldFits s.cfg p = true
  oneAck : ¬ (s.ackD = true ∧ s.ackI = true)

/-- Operations run one after another, stopping at the first that answers no next state. -/
def runOps (l : List Instr) (s : State) : Host.Outcome State Fault Refusal :=
  match l with
  | [] => .next s
  | i :: rest =>
    match exec i s with
    | .next t => runOps rest t
    | .fault e => .fault e
    | .refused e => .refused e

/-- Every stored field takes the value its policy gives it (45_cycle_step R235), where `strobe` says which fields'
registers are strobed and `w` is the written byte; the hardware-set events are the current cycle's (log 8). The same fields are
stored. -/
def FieldsAdvance (s t : State) (strobe : FieldKey → Bool) (w : Byte) : Prop :=
  t.flds.map Prod.fst = s.flds.map Prod.fst ∧
    ∀ k f cur, fieldAt s.cfg k = some f → f.mirror = false → lookupField s.flds k = some cur →
      lookupField t.flds k = some
        (match f.access, hwFor (hwNow s) k with
          | .readWrite, _ => if strobe k then fieldBits f w else cur
          | .readOnly, some v => hwBits f v
          | .readOnly, none => cur
          | .clearOnWrite, some v => hwBits f v
          | .clearOnWrite, none => if strobe k then cur &&& ~~~(fieldBits f w) else cur
          | .pulse, _ => if strobe k then fieldBits f w else 0x00#8)

/-- Every toggle bit takes its next value (44_toggle_table R222): the selected bit is 1 on a `set` pulse, else 0 on a
`reset` pulse; every other bit is kept, and all are without a binding. -/
def TogglesAdvance (s t : State) : Prop :=
  ∀ j, j < 7 →
    t.tog.getLsbD j =
      match togKeys s.cfg with
      | none => s.tog.getLsbD j
      | some b =>
        if togSel s b = some j ∧ fieldBit s b.set = true then true
        else if togSel s b = some j ∧ fieldBit s b.reset = true then false
        else s.tog.getLsbD j

/-- Hardware-set events as the wires can present them (30_encoding R80): at most one for a field, its value within the
field's bits. -/
def WiredEvents (c : Cfg) (evs : List HwEvent) : Prop :=
  (evs.map HwEvent.key).Nodup ∧ ∀ e ∈ evs, ∀ f, fieldAt c e.key = some f → e.val.toNat < 2 ^ f.size

/-- No byte of memory reads differently. -/
def MemoryKept (s t : State) : Prop := ∀ x, t.mem.read x = s.mem.read x

/-- The configuration and the presented inputs are untouched. -/
def EnvironmentKept (s t : State) : Prop := t.cfg = s.cfg ∧ t.inputs = s.inputs

/-- A master's own acknowledge does not keep its request from being accepted (41_arbiter R133). -/
def NotHeld (s : State) (ack : Bool) : Prop := ¬ (s.cfg.handshake = .classic ∧ ack = true)

end Sys2Proof.Machine
end

