-- ==== Sys2Proof/Certificates/Slice0/Obligations.lean ====
section
/-! DEFINITION. The statements for the provers. Each docstring names the rule or the section of spec/ it comes from, and
the assumption log's entry where a clause rests on a choice of the model or on a decision the spec marks as its own. -/

open Sys2Proof Sys2Proof.Machine

/-! Words and their decoders -/

/-- Every decoder reads back what the encoder wrote, for every well-formed operation and every operand value
(30_encoding R80, R83, R84, R85, R90, R94; the packings are the spec's own, D26, and the places are the model's,
log 14). -/
def Obligations.DecodeOfEncodeIsIdentity : Prop :=
  ∀ i : Instr, i.wf = true → decode (encode i).1 (encode i).2 = .ok i

/-- Whatever a decoder answers is well formed (log 14). -/
def Obligations.DecodedOperationsAreWellFormed : Prop :=
  ∀ v w i, decode v w = .ok i → i.wf = true

/-- The control tuple selects the bus operation by the match and mask of 30_encoding R84, with its operands; the four
rows cover every request word and no two of them meet. -/
def Obligations.ControlTupleSelectsTheBusOperation : Prop :=
  ∀ w : BitVec 43,
    (w &&& 0x50000000000#43 = 0x00000000000#43 → decode .control w.toNat = .ok (.idle (w.extractLsb' 0 16))) ∧
    (w &&& 0x50000000000#43 = 0x10000000000#43 → decode .control w.toNat = .ok (.ifetch (w.extractLsb' 0 16))) ∧
    (w &&& 0x60000000000#43 = 0x40000000000#43 → decode .control w.toNat = .ok (.dread (w.extractLsb' 24 16))) ∧
    (w &&& 0x60000000000#43 = 0x60000000000#43 →
      decode .control w.toNat = .ok (.dwrite (w.extractLsb' 24 16) (w.extractLsb' 16 8))) ∧
    (w &&& 0x50000000000#43 = 0x00000000000#43 ∨ w &&& 0x50000000000#43 = 0x10000000000#43 ∨
      w &&& 0x60000000000#43 = 0x40000000000#43 ∨ w &&& 0x60000000000#43 = 0x60000000000#43)

/-- Words written out from 30_encoding R83, R90, R94 and 95_test_vectors (V-ARB-2 to V-ARB-5, P1 to P3). -/
def Obligations.WrittenOutWordsDecode : Prop :=
  decode .control 0x00000000002 = .ok (.idle 0x0002#16) ∧
  decode .control 0x2E600FF0000 = .ok (.idle 0x0000#16) ∧
  decode .control 0x10000003FFE = .ok (.ifetch 0x3FFE#16) ∧
  decode .control 0x50001003FFE = .ok (.dread 0x0001#16) ∧
  decode .control 0x6E600180000 = .ok (.dwrite 0xE600#16 0x18#8) ∧
  decode (.readPath .memWide) 0x10000000001 = .ok (.memRd32 0x0001#16) ∧
  decode (.writePath .bank) 0x6E683410000 = .ok (.regWr 0xE683#16 0x41#8) ∧
  decode (.policy fetchFieldIn) 0b11 = .ok (.fldCow fetchFieldIn) ∧
  decode .toggle 0x61 = .ok (.togSet true false 1#4) ∧
  decode .toggle 0xB1 = .ok (.togReset true 1#4) ∧
  decode .toggle 0x11 = .ok (.togHold true 1#4)

/-- When a word is rejected, and by which name, in every place: bits above the width of the format (30_encoding R80,
R83, R90, R94); the write path on a request that is no DWRITE; a channel with `hw_we = 0`; a field or a channel that no
register can have. Rejecting by name is the model's choice (log 14). -/
def Obligations.WordsAboveTheirWidthAreRejected : Prop :=
  ∀ w : Nat,
    (decode .control w = .error .bitsAbove ↔ 2 ^ 43 ≤ w) ∧
    (∀ t, decode (.readPath t) w = .error .bitsAbove ↔ 2 ^ 43 ≤ w) ∧
    (∀ t, decode (.writePath t) w = .error .bitsAbove ↔ 2 ^ 43 ≤ w) ∧
    (∀ t, decode (.writePath t) w = .error .notAWrite ↔
      w < 2 ^ 43 ∧ ¬ (w.testBit 42 = true ∧ w.testBit 41 = true)) ∧
    (∀ c, decode (.policy c) w = .error .bitsAbove ↔ 2 ^ 2 ≤ w) ∧
    (∀ c, decode (.policy c) w = .error .badField ↔ w < 2 ^ 2 ∧ 7 < c.key.offset) ∧
    (∀ k n, decode (.hwChannel k n) w = .error .bitsAbove ↔ 2 ^ (n + 1) ≤ w) ∧
    (∀ k n, decode (.hwChannel k n) w = .error .badField ↔
      w < 2 ^ (n + 1) ∧ ¬ (k.offset ≤ 7 ∧ 1 ≤ n ∧ k.offset + n ≤ 8)) ∧
    (∀ k n, decode (.hwChannel k n) w = .error .noEvent ↔
      w < 2 ^ n ∧ k.offset ≤ 7 ∧ 1 ≤ n ∧ k.offset + n ≤ 8) ∧
    (decode .toggle w = .error .bitsAbove ↔ 2 ^ 8 ≤ w)

/-! The step -/

/-- The step decodes the request word of the current cycle, runs that operation, and drops the cycle's inputs
(45_cycle_step R230, R240; log 2). -/
def Obligations.StepRunsTheDecodedOperation : Prop :=
  ∀ (s : State) (i : In) (rest : List In) (op : Instr), s.inputs = i :: rest →
    decode .control i.req.word.toNat = .ok op →
    ∃ t, exec op s = .next t ∧ step s = .next (t.withInputs rest) ∧ t.inputs = i :: rest ∧ t.cfg = s.cfg

/-- Without inputs there is no cycle: the model's reading of "a run ends when the caller stops supplying inputs"
(45_cycle_step section 6; log 2). -/
def Obligations.StepWithoutInputsIsRefused : Prop :=
  ∀ s : State, s.inputs = [] → step s = .refused .noInput

/-- The four bus operations of 41_arbiter together are the composed step of 45_cycle_step, computed from the wires, for
all eight control tuples; so a step with inputs never fails. -/
def Obligations.StepIsTheComposedCycle : Prop :=
  ∀ (s : State) (i : In) (rest : List In), s.inputs = i :: rest →
    step s = .next ((composedStep s i.req).withInputs rest)

/-- 45_cycle_step R234: every byte of every MemoryRegion after a cycle. -/
def Obligations.MemoryAfterACycle : Prop :=
  ∀ (s : State) (i : In) (rest : List In), s.inputs = i :: rest → ValidCfg s.cfg → s.mem.wf →
    ∃ t, step s = .next t ∧
      ∀ (k : Nat) (r : Region) (o : MemOptions), s.cfg.regions[k]? = some r → r.resource = .mem o →
        ∀ j : Addr, j.toNat < r.size.toNat →
          t.mem.read (cellAddr r j) =
            if writeStrobe s i.req = true ∧ decodeAddr s.cfg (busAdr i.req) = some (r, k) ∧ o.writable = true ∧
                j = busAdr i.req - r.base
            then i.req.dDatW else s.mem.read (cellAddr r j)

/-- 45_cycle_step R235: every stored field after a cycle, by its policy; an event `⟨k, v⟩` among the cycle's inputs is
`hw[a][f].hw_we = 1` with `hw_val = v`, no event is `hw_we = 0`. -/
def Obligations.FieldsAfterACycle : Prop :=
  ∀ (s : State) (i : In) (rest : List In), s.inputs = i :: rest → Inv s → WiredEvents s.cfg i.hw →
    ∃ t, step s = .next t ∧
      ∀ (k : FieldKey) (f : Field), (k, f) ∈ storedFields s.cfg →
        let strobe := writeStrobe s i.req && strobed s.cfg (busAdr i.req) k
        let fb := fieldBits f i.req.dDatW
        (f.access = .readWrite → fieldVal t k = if strobe then fb else fieldVal s k) ∧
        (f.access = .readOnly →
          (∀ v, ⟨k, v⟩ ∈ i.hw → fieldVal t k = v) ∧ ((∀ v, ⟨k, v⟩ ∉ i.hw) → fieldVal t k = fieldVal s k)) ∧
        (f.access = .clearOnWrite →
          (∀ v, ⟨k, v⟩ ∈ i.hw → fieldVal t k = v) ∧
          ((∀ v, ⟨k, v⟩ ∉ i.hw) → fieldVal t k = if strobe then fieldVal s k &&& ~~~fb else fieldVal s k)) ∧
        (f.access = .pulse → fieldVal t k = if strobe then fb else 0x00#8)

/-- 44_toggle_table R222: every toggle bit after a cycle, from the stored pulses and selectors; without a binding the
table is kept. -/
def Obligations.TogglesAfterACycle : Prop :=
  ∀ (s : State) (i : In) (rest : List In), s.inputs = i :: rest → Inv s →
    ∃ t, step s = .next t ∧ (togKeys s.cfg = none → t.tog = s.tog) ∧
      ∀ b, togKeys s.cfg = some b → ∀ j, j < 7 →
        t.tog.getLsbD j =
          if togSel s b = some j ∧ fieldVal s b.set = 1#8 then true
          else if togSel s b = some j ∧ fieldVal s b.reset = 1#8 then false
          else s.tog.getLsbD j

/-- The response register after a cycle, whatever the cycle's request: the read value, in the state before it, of the
bus address (45_cycle_step section 3; loading it in every cycle is the spec's decision D7, the zeros of lanes beyond a
region D10 (log 16), of undriven bits D6 and of unmapped addresses D3; the value of a mirror field no peripheral of the spec
owns is the free value of log 7). -/
def Obligations.ReadPathAfterACycle : Prop :=
  ∀ (s : State) (i : In) (rest : List In), s.inputs = i :: rest →
    ∃ t, step s = .next t ∧
      (decodeAddr s.cfg (busAdr i.req) = none → t.resp = 0#32) ∧
      (∀ r k o, decodeAddr s.cfg (busAdr i.req) = some (r, k) → r.resource = .mem o → o.wide = false →
        t.resp.toNat = (regionByte s.mem r (busAdr i.req - r.base)).toNat) ∧
      (∀ r k o, decodeAddr s.cfg (busAdr i.req) = some (r, k) → r.resource = .mem o → o.wide = true →
        ∀ n, n < 4 →
          t.resp.extractLsb' (8 * n) 8 = regionByte s.mem r (busAdr i.req - r.base + BitVec.ofNat 16 n)) ∧
      (∀ r k b, decodeAddr s.cfg (busAdr i.req) = some (r, k) → r.resource = .bank b →
        (∀ g, registerAt b (busAdr i.req) = some g → t.resp.toNat = (regValue s k g).toNat) ∧
        (registerAt b (busAdr i.req) = none → t.resp = 0#32))

/-- 41_arbiter R133 and R136: the acknowledges after a cycle are the acceptances of the requests in it, and at most one
request is accepted. -/
def Obligations.AcknowledgesFollowAcceptance : Prop :=
  ∀ (s : State) (i : In) (rest : List In), s.inputs = i :: rest →
    ∃ t, step s = .next t ∧
      (t.ackD = true ↔ i.req.dReq = true ∧ ¬ (s.cfg.handshake = .classic ∧ s.ackD = true)) ∧
      (t.ackI = true ↔
        i.req.dReq = false ∧ i.req.iReq = true ∧ ¬ (s.cfg.handshake = .classic ∧ s.ackI = true)) ∧
      ¬ (t.ackD = true ∧ t.ackI = true)

/-- The invariant of the block is kept by every step, from every state that has it: the configuration stays valid and
finalized, memory stays canonical and inside the MemoryRegions, the stored fields stay those of the configuration and
within their bits, and the two acknowledges exclude each other (10_state R20, R26, R44, 41_arbiter R133). -/
def Obligations.StepKeepsTheInvariant : Prop :=
  ∀ s t : State, Inv s → step s = .next t → Inv t

/-- The reset state has the invariant. -/
def Obligations.ResetMeetsTheInvariant : Prop := Inv State.reset

/-- A cycle is its micro-operations run one after another: the read, the toggle action, the write, every field's policy
and every hardware-set event, in an order in which none reads what an earlier one wrote (30_encoding R85,
45_cycle_step R239); the bus operation itself only adds the acknowledges (log 5). -/
def Obligations.MicroOperationsComposeToTheCycle : Prop :=
  ∀ (s : State) (i : In) (rest : List In), s.inputs = i :: rest → Inv s →
    ∃ u t, runOps (microOps s i.req) s = .next u ∧ exec (busOperation i.req) s = .next t ∧
      step s = .next (t.withInputs rest) ∧ t = u.withAcks t.ackD t.ackI

/-! The bus operations -/

/-- IDLE, IFETCH and DREAD complete in every state: `resp` takes the read value of the address, the acknowledge is the
acceptance, no byte of memory and nothing of the configuration or the inputs changes, no field is strobed, and the
toggle table takes its next value (41_arbiter section 3; IDLE's bus address is the spec's decision D8). -/
def Obligations.ReadingOperationsResultAndFrame : Prop :=
  ∀ (s : State) (a : Addr),
    (∃ t, exec (.idle a) s = .next t ∧ t.resp = readValue s a ∧ t.ackD = false ∧ t.ackI = false ∧
      MemoryKept s t ∧ EnvironmentKept s t ∧ FieldsAdvance s t (fun _ => false) 0 ∧ TogglesAdvance s t) ∧
    (∃ t, exec (.ifetch a) s = .next t ∧ t.resp = readValue s a ∧ t.ackD = false ∧
      (t.ackI = true ↔ NotHeld s s.ackI) ∧
      MemoryKept s t ∧ EnvironmentKept s t ∧ FieldsAdvance s t (fun _ => false) 0 ∧ TogglesAdvance s t) ∧
    (∃ t, exec (.dread a) s = .next t ∧ t.resp = readValue s a ∧ (t.ackD = true ↔ NotHeld s s.ackD) ∧
      t.ackI = false ∧
      MemoryKept s t ∧ EnvironmentKept s t ∧ FieldsAdvance s t (fun _ => false) 0 ∧ TogglesAdvance s t)

/-- An accepted DWRITE to a MemoryRegion: the one byte at `base + l`, where the region has write support and
`l = (a - base) mod 2^16` is inside it, and no other byte of memory; the response is the pre-write value; no field is
strobed (41_arbiter section 3, 42_memory_region section 3; D7, D10). -/
def Obligations.DwriteToMemoryResultAndFrame : Prop :=
  ∀ (s : State) (a : Addr) (v : Byte) (r : Region) (o : MemOptions),
    resolve s.cfg a = .mem r o → s.mem.wf → NotHeld s s.ackD →
    ∃ t, exec (.dwrite a v) s = .next t ∧ t.resp = readValue s a ∧ t.ackD = true ∧ t.ackI = false ∧
      EnvironmentKept s t ∧ FieldsAdvance s t (fun _ => false) 0 ∧ TogglesAdvance s t ∧
      ∀ x, t.mem.read x =
        if o.writable = true ∧ (a - r.base).toNat < r.size.toNat ∧ x = r.base.toNat + (a - r.base).toNat then v
        else s.mem.read x

/-- An accepted DWRITE to a RegisterBank strobes the fields of the register at `a` and no others (at a hole, none);
memory is kept (41_arbiter section 3, 43_register_bank sections 3 and 4; D7). -/
def Obligations.DwriteToRegisterResultAndFrame : Prop :=
  ∀ (s : State) (a : Addr) (v : Byte) (k : Nat) (b : Bank),
    resolve s.cfg a = .bank k b → NotHeld s s.ackD →
    ∃ t, exec (.dwrite a v) s = .next t ∧ t.resp = readValue s a ∧ t.ackD = true ∧ t.ackI = false ∧
      MemoryKept s t ∧ EnvironmentKept s t ∧ TogglesAdvance s t ∧
      FieldsAdvance s t (fun key => decide (key.bank = k) && decide (key.addr = a)) v

/-- An accepted DWRITE to an unmapped address is acknowledged, answers 0 and stores nothing (the spec's decision
D3). -/
def Obligations.DwriteToUnmappedResultAndFrame : Prop :=
  ∀ (s : State) (a : Addr) (v : Byte), resolve s.cfg a = .unmapped → NotHeld s s.ackD →
    ∃ t, exec (.dwrite a v) s = .next t ∧ t.resp = 0#32 ∧ t.ackD = true ∧ t.ackI = false ∧
      MemoryKept s t ∧ EnvironmentKept s t ∧ FieldsAdvance s t (fun _ => false) 0 ∧ TogglesAdvance s t

/-- With `HANDSHAKE = classic`, a DWRITE held through its own acknowledge is not accepted: it stores nothing and is not
acknowledged again; the read path still runs (the parameter of the spec's decision D5). -/
def Obligations.HeldDwriteIsNotAccepted : Prop :=
  ∀ (s : State) (a : Addr) (v : Byte), s.cfg.handshake = .classic → s.ackD = true →
    ∃ t, exec (.dwrite a v) s = .next t ∧ t.resp = readValue s a ∧ t.ackD = false ∧ t.ackI = false ∧
      MemoryKept s t ∧ EnvironmentKept s t ∧ FieldsAdvance s t (fun _ => false) 0 ∧ TogglesAdvance s t

/-! Micro-operations of memory and of unmapped addresses -/

/-- MEM.RD8 and MEM.RD32: the byte, and the four little-endian lanes, a lane at or past the region's end 0; nothing but
`resp` changes (42_memory_region section 2; D9, D10, log 16; that a micro-operation is taken alone is log 5). -/
def Obligations.MemoryReadsLatchTheirBytes : Prop :=
  ∀ (s : State) (a : Addr) (r : Region) (o : MemOptions), resolve s.cfg a = .mem r o →
    let byte := fun n : Nat =>
      if (a - r.base + BitVec.ofNat 16 n).toNat < r.size.toNat then
        s.mem.read (r.base.toNat + (a - r.base + BitVec.ofNat 16 n).toNat) else 0x00#8
    (o.wide = false → ∃ t, exec (.memRd8 a) s = .next t ∧ t = s.withResp t.resp ∧ t.resp.toNat = (byte 0).toNat) ∧
    (o.wide = true → ∃ t, exec (.memRd32 a) s = .next t ∧ t = s.withResp t.resp ∧
      ∀ n, n < 4 → t.resp.extractLsb' (8 * n) 8 = byte n)

/-- MEM.WR8: at most the one byte at `base + l`, and nothing else of the state (42_memory_region section 3; D10;
log 5). -/
def Obligations.MemoryWriteStoresOneByte : Prop :=
  ∀ (s : State) (a : Addr) (v : Byte) (r : Region) (o : MemOptions), resolve s.cfg a = .mem r o → s.mem.wf →
    ∃ t, exec (.memWr8 a v) s = .next t ∧ t = s.withMem t.mem ∧ t.mem.wf ∧
      ∀ x, t.mem.read x =
        if o.writable = true ∧ (a - r.base).toNat < r.size.toNat ∧ x = r.base.toNat + (a - r.base).toNat then v
        else s.mem.read x

/-- UNMAPPED.RD reads 0 and UNMAPPED.WR changes nothing (the spec's decision D3; log 5). -/
def Obligations.UnmappedReadAndWriteComplete : Prop :=
  ∀ (s : State) (a : Addr) (v : Byte), resolve s.cfg a = .unmapped →
    exec (.unmappedRd a) s = .next (s.withResp 0#32) ∧ exec (.unmappedWr a v) s = .next s

/-! Registers and fields -/

/-- REG.RD: the register's value in bits 7:0, 0 at a hole, nothing but `resp` changed (43_register_bank section 4; D6;
log 5, log 7). -/
def Obligations.RegisterReadReturnsTheRegister : Prop :=
  ∀ (s : State) (a : Addr) (k : Nat) (b : Bank), resolve s.cfg a = .bank k b →
    ∃ t, exec (.regRd a) s = .next t ∧ t = s.withResp t.resp ∧
      (∀ g, registerAt b a = some g → t.resp.toNat = (regValue s k g).toNat) ∧
      (registerAt b a = none → t.resp = 0#32)

/-- 43_register_bank R178: each field's value stands at its offset, whatever its policy (a stored field's is the stored
one), and a bit of no field is 0. -/
def Obligations.RegisterValueConcatenatesFields : Prop :=
  ∀ (s : State) (k : Nat) (r : Region) (b : Bank) (g : Register), Inv s → s.cfg.regions[k]? = some r →
    r.resource = .bank b → g ∈ b.registers →
    (∀ f ∈ g.fields, ∀ n, n < f.size →
      (regValue s k g).getLsbD (f.offset + n) = (fieldValue s ⟨k, g.address, f.offset⟩ f).getLsbD n) ∧
    (∀ f ∈ g.fields, f.mirror = false → ∀ n, n < f.size →
      (regValue s k g).getLsbD (f.offset + n) = (fieldVal s ⟨k, g.address, f.offset⟩).getLsbD n) ∧
    (∀ j, (∀ f ∈ g.fields, ¬ (f.offset ≤ j ∧ j < f.offset + f.size)) → (regValue s k g).getLsbD j = false)

/-- 30_encoding R91: the field's bits of a written byte are the slice from its offset up. -/
def Obligations.FieldBitsAreTheSlice : Prop :=
  ∀ (f : Field) (w : Byte), f.offset + f.size ≤ 8 →
    (fieldBits f w).toNat < 2 ^ f.size ∧ (fieldBits f w).toNat = w.toNat / 2 ^ f.offset % 2 ^ f.size

/-- REG.WR: every field of the register at `a` takes its policy's value from the same byte, every other field and
everything else is kept (43_register_bank sections 3 and 4; log 5). -/
def Obligations.RegisterWriteStrobesItsFields : Prop :=
  ∀ (s : State) (a : Addr) (v : Byte) (k : Nat) (b : Bank), resolve s.cfg a = .bank k b →
    ∃ t, exec (.regWr a v) s = .next t ∧ t = s.withFlds t.flds ∧ t.flds.map Prod.fst = s.flds.map Prod.fst ∧
      ∀ key f cur, fieldAt s.cfg key = some f → f.mirror = false → lookupField s.flds key = some cur →
        lookupField t.flds key = some
          (if key.bank = k ∧ key.addr = a then
            match f.access with
            | .readWrite => fieldBits f v
            | .readOnly => cur
            | .pulse => fieldBits f v
            | .clearOnWrite => cur &&& ~~~(fieldBits f v)
          else cur)

/-- FLD.RW, FLD.RO, FLD.PULSE and FLD.COW: the field's next value by its policy, every other field and everything else
kept; FLD.RO on a mirror field changes nothing (43_register_bank section 1; D15, D17, D18; log 5). -/
def Obligations.FieldPoliciesGiveTheNextValue : Prop :=
  ∀ (s : State) (c : FieldIn) (f : Field), fieldAt s.cfg c.key = some f →
    (f.access = .readOnly → f.mirror = true → exec (.fldRo c) s = .next s) ∧
    ∀ cur, f.mirror = false → lookupField s.flds c.key = some cur →
      let fb := fieldBits f c.w
      let gives := fun (i : Instr) (v : Byte) =>
        ∃ t, exec i s = .next t ∧ t = s.withFlds t.flds ∧ lookupField t.flds c.key = some v ∧
          ∀ j, j ≠ c.key → lookupField t.flds j = lookupField s.flds j
      (f.access = .readWrite → gives (.fldRw c) (if c.strobe then fb else cur)) ∧
      (f.access = .readOnly → gives (.fldRo c) (match c.hw with | some v => hwBits f v | none => cur)) ∧
      (f.access = .pulse → gives (.fldPulse c) (if c.strobe then fb else 0x00#8)) ∧
      (f.access = .clearOnWrite → gives (.fldCow c)
        (match c.hw with | some v => hwBits f v | none => if c.strobe then cur &&& ~~~fb else cur))

/-- HWSET assigns the whole field, and nothing else (43_register_bank section 2; D16; log 5). -/
def Obligations.HwsetAssignsTheField : Prop :=
  ∀ (s : State) (k : FieldKey) (f : Field) (cur v : Byte), fieldAt s.cfg k = some f → f.mirror = false →
    f.access = .readOnly ∨ f.access = .clearOnWrite → f.size ≤ 8 → v.toNat < 2 ^ f.size →
    lookupField s.flds k = some cur →
    ∃ t, exec (.hwset k f.size v) s = .next t ∧ t = s.withFlds t.flds ∧ lookupField t.flds k = some v ∧
      ∀ j, j ≠ k → lookupField t.flds j = lookupField s.flds j

/-! The toggle table -/

/-- TOG.SET, TOG.RESET and TOG.HOLD: the selected bit becomes 1, 0 or stays, every other bit and everything else is
kept; a selector that names no bit changes nothing (44_toggle_table section 4; D21; log 5). -/
def Obligations.ToggleOperationsActOnTheSelectedBit : Prop :=
  ∀ (s : State) (r d : Bool) (e : BitVec 4), (togKeys s.cfg).isSome = true →
    (∃ t, exec (.togSet r d e) s = .next t ∧ t = s.withTog t.tog ∧
      ∀ j, j < 7 → t.tog.getLsbD j = (decide (indexOf e d = some j) || s.tog.getLsbD j)) ∧
    (∃ t, exec (.togReset d e) s = .next t ∧ t = s.withTog t.tog ∧
      ∀ j, j < 7 → t.tog.getLsbD j = (!decide (indexOf e d = some j) && s.tog.getLsbD j)) ∧
    exec (.togHold d e) s = .next s

/-- The complete table of INDEX_OF (44_toggle_table section 2; D20, D21). -/
def Obligations.IndexOfIsItsTable : Prop :=
  ∀ (e : BitVec 4) (d : Bool),
    indexOf e d =
      match e.toNat, d with
      | 0, _ => some 0
      | 1, false => some 1
      | 1, true => some 2
      | 2, _ => some 3
      | 4, _ => some 4
      | 6, _ => some 5
      | 8, _ => some 6
      | _, _ => none

/-- 44_toggle_table R213: two pairs with the same index are the same pair, or the same endpoint other than 1 with the
direction ignored; each index 0 to 6 is some pair's; the raw map is not injective. -/
def Obligations.IndexOfIsInjectiveOnTheSevenBits : Prop :=
  (∀ (e e' : BitVec 4) (d d' : Bool) (i : Nat), indexOf e d = some i → indexOf e' d' = some i →
    e = e' ∧ (e = 1#4 → d = d')) ∧
  (∀ i, i < 7 → ∃ e d, indexOf e d = some i) ∧
  (∀ e : BitVec 4, e ≠ 1#4 → indexOf e false = indexOf e true)

/-- A byte written to REFCFG's TOGCTL acts on the pair it names two ticks later: `set` wins over `reset`, and the write
leaves the table's own next value alone at its first tick (44_toggle_table section 4; D22; the layout is D19). -/
def Obligations.TogglePulseActsTwoTicksAfterTheWrite : Prop :=
  ∀ (s : State) (image : List Byte) (v : Byte) (h1 : List HwEvent) (j : In) (rest : List In), Inv s →
    s.cfg = refCfg image → s.inputs = { req := dataRequest true 0xE683#16 v, hw := h1 } :: j :: rest →
    ∃ t u, step s = .next t ∧ step t = .next u ∧ t.tog = nextTog s ∧
      ∀ n, n < 7 →
        u.tog.getLsbD n =
          if indexOf (v.extractLsb' 0 4) (v.getLsbD 4) = some n ∧ v.getLsbD 6 = true then true
          else if indexOf (v.extractLsb' 0 4) (v.getLsbD 4) = some n ∧ v.getLsbD 5 = true then false
          else t.tog.getLsbD n

/-! Where a micro-operation has nothing to act on -/

/-- A micro-operation taken alone assigns nothing where what its row acts on is not there: the resource at the address,
a stored field of the row's access policy, a field with a hardware-set channel of that size, a bound toggle table. This
is the model's choice (log 6), and it is not the whole `select` of a row (30_encoding section 1): the DWRITE, the strobe,
the event and the stored pulses are the cycle's part, which an operation taken alone has as given or in its operands
(log 5). -/
def Obligations.MicroOperationsDoNothingOffTheirSelection : Prop :=
  ∀ (s : State) (a : Addr) (v : Byte) (c : FieldIn) (k : FieldKey) (n : Nat) (r d : Bool) (e : BitVec 4),
    ((¬ ∃ q o, resolve s.cfg a = .mem q o ∧ o.wide = false) → exec (.memRd8 a) s = .next s) ∧
    ((¬ ∃ q o, resolve s.cfg a = .mem q o ∧ o.wide = true) → exec (.memRd32 a) s = .next s) ∧
    ((¬ ∃ i b, resolve s.cfg a = .bank i b) → exec (.regRd a) s = .next s) ∧
    (resolve s.cfg a ≠ .unmapped → exec (.unmappedRd a) s = .next s) ∧
    ((¬ ∃ q o, resolve s.cfg a = .mem q o) → exec (.memWr8 a v) s = .next s) ∧
    ((¬ ∃ i b, resolve s.cfg a = .bank i b) → exec (.regWr a v) s = .next s) ∧
    (resolve s.cfg a ≠ .unmapped → exec (.unmappedWr a v) s = .next s) ∧
    ((¬ ∃ f, fieldAt s.cfg c.key = some f ∧ f.access = .readWrite ∧ f.mirror = false) →
      exec (.fldRw c) s = .next s) ∧
    ((¬ ∃ f, fieldAt s.cfg c.key = some f ∧ f.access = .readOnly ∧ f.mirror = false) →
      exec (.fldRo c) s = .next s) ∧
    ((¬ ∃ f, fieldAt s.cfg c.key = some f ∧ f.access = .pulse ∧ f.mirror = false) →
      exec (.fldPulse c) s = .next s) ∧
    ((¬ ∃ f, fieldAt s.cfg c.key = some f ∧ f.access = .clearOnWrite ∧ f.mirror = false) →
      exec (.fldCow c) s = .next s) ∧
    ((¬ ∃ f, fieldAt s.cfg k = some f ∧ f.mirror = false ∧
        (f.access = .readOnly ∨ f.access = .clearOnWrite) ∧ f.size = n) → exec (.hwset k n v) s = .next s) ∧
    (togKeys s.cfg = none → exec (.togSet r d e) s = .next s ∧ exec (.togReset d e) s = .next s ∧
      exec (.togHold d e) s = .next s)

/-! The decoder of addresses -/

/-- 40_decoder R112: DECODE answers the region whose block range contains the address's block, or `None` if there is
none; and its two examples. -/
def Obligations.DecodeFindsTheContainingRegion : Prop :=
  (∀ c : Cfg, ValidCfg c → ∀ a : Addr,
    (∀ r k, decodeAddr c a = some (r, k) ↔
      c.regions[k]? = some r ∧ r.base.toNat / c.blockSize ≤ a.toNat / c.blockSize ∧
        a.toNat / c.blockSize < (r.base.toNat + r.size.toNat) / c.blockSize) ∧
    (decodeAddr c a = none ↔
      ∀ r ∈ c.regions, ¬ (r.base.toNat / c.blockSize ≤ a.toNat / c.blockSize ∧
        a.toNat / c.blockSize < (r.base.toNat + r.size.toNat) / c.blockSize))) ∧
  (∀ image, decodeAddr (refCfg image) 0xE683#16 = some (csrRegion [csrE600, togctl], 1) ∧
    decodeAddr (refCfg image) 0x4000#16 = none)

/-- No address is in the block ranges of two regions of a valid configuration (40_decoder sections 2 and 4; the refusal
of overlapping regions is D12). -/
def Obligations.NoAddressReachesTwoRegions : Prop :=
  ∀ c : Cfg, ValidCfg c → ∀ (a : Addr) (i j : Nat) (q r : Region), c.regions[i]? = some q → c.regions[j]? = some r →
    hits c a q = true → hits c a r = true → i = j

/-- The main-RAM fast path agrees with the general decode on every address (40_decoder section 3; D12, D30). -/
def Obligations.FastPathAgreesWithDecode : Prop :=
  ∀ c : Cfg, ValidCfg c → ∀ (k : Nat) (m : Region), c.regions[k]? = some m → m.mainRam = true →
    ∀ a : Addr, decodeFast m a = true ↔ decodeAddr c a = some (m, k)

/-- 30_encoding R103: with `size = 2^k` the mask has ones in bits 15 down to `k`, and the fast path's test holds exactly
below the size. -/
def Obligations.MaskTestIsTheSizeComparison : Prop :=
  ∀ (m : Region) (k : Nat), k < 16 → m.size = BitVec.twoPow 16 k →
    (∀ i, i < 16 → (~~~(m.size - 1#16)).getLsbD i = decide (k ≤ i)) ∧
    ∀ a : Addr, decodeFast m a = true ↔ a.toNat < m.size.toNat

/-- The worked decode table of REFCFG (40_decoder section 5). -/
def Obligations.ReferenceMapDecodes : Prop :=
  let csr := Hit.bank 1 { registers := [csrE600, togctl], finalized := true }
  let main := Hit.mem (mainRegion []) { wide := true, writable := true, image := [] }
  resolve (refCfg []) 0x0000#16 = main ∧ resolve (refCfg []) 0x3FFF#16 = main ∧
  resolve (refCfg []) 0x4000#16 = .unmapped ∧ resolve (refCfg []) 0xE5FF#16 = .unmapped ∧
  resolve (refCfg []) 0xE600#16 = csr ∧ resolve (refCfg []) 0xE601#16 = csr ∧
  resolve (refCfg []) 0xE683#16 = csr ∧ resolve (refCfg []) 0xE6FF#16 = csr ∧
  resolve (refCfg []) 0xE700#16 = .unmapped ∧ resolve (refCfg []) 0xFFFF#16 = .unmapped

/-! Construction and reset -/

/-- Construction, check by check in the order of its operations, accepts exactly the valid configurations and gives
them back with every bank finalized (30_encoding section 3, 60_exceptions section 2, 70_reset_and_hazards section 2;
log 11, log 12). -/
def Obligations.ConstructionAcceptsExactlyTheValid : Prop :=
  ∀ d c : Cfg, construct d = .ok c ↔ ValidCfg d ∧ c = finalizedCfg d

/-- A valid description starts a run in its reset state; any other ends in a configuration error, and no state exists
(60_exceptions section 3; D29). A run started while a bank is not finalized raises CE14 (60_exceptions section 2;
D28; that CE14 records its code alone is log 17). -/
def Obligations.ConfigurationErrorLeavesNoState : Prop :=
  (∀ d : Cfg,
    (ValidCfg d → powerOn d = .next (initState (finalizedCfg d))) ∧
    (¬ ValidCfg d → ∃ e, construct d = .error e ∧ powerOn d = .fault (.configError e))) ∧
  ∀ c : Cfg,
    ((∃ r ∈ c.regions, ∃ b, r.resource = .bank b ∧ b.finalized = false) →
      startRun c = .fault (.configError .ce14Order)) ∧
    ((∀ r ∈ c.regions, ∀ b, r.resource = .bank b → b.finalized = true) → startRun c = .next (initState c))

/-- ADD refuses an empty name (CE3), else an occupied address (CE1), else a name in use (CE2), recording the offending
item (43_register_bank section 5; the order of the checks is D31; that CE3 records its code alone is log 17). -/
def Obligations.AddRefusesEmptyAndDuplicateNames : Prop :=
  ∀ (b : Bank) (a : Addr) (g : Register), b.finalized = false →
    (g.name = "" → addRegister b a g = .error .ce3EmptyName) ∧
    (g.name ≠ "" → (∃ h ∈ b.registers, h.address = a) → addRegister b a g = .error (.ce1DuplicateAddress a)) ∧
    (g.name ≠ "" → (¬ ∃ h ∈ b.registers, h.address = a) → (∃ h ∈ b.registers, h.name = g.name) →
      addRegister b a g = .error (.ce2DuplicateName g.name))

/-- GET answers a register with the given address or name, or LE1 exactly when there is none (43_register_bank
section 5). -/
def Obligations.GetFindsTheRegister : Prop :=
  ∀ b : Bank,
    (∀ a, (∀ g, getRegister b (.byAddress a) = .ok g → g ∈ b.registers ∧ g.address = a) ∧
      (getRegister b (.byAddress a) = .error (.le1 (.byAddress a)) ↔ ∀ g ∈ b.registers, g.address ≠ a)) ∧
    (∀ n, (∀ g, getRegister b (.byName n) = .ok g → g ∈ b.registers ∧ g.name = n) ∧
      (getRegister b (.byName n) = .error (.le1 (.byName n)) ↔ ∀ g ∈ b.registers, g.name ≠ n))

/-- 10_state R47 for the toggle table; with it the reset values of fields and memory (10_state section 6): every stored
field at its `reset`, every byte at its region's zero-padded image. -/
def Obligations.InitialStateHoldsTheResetValues : Prop :=
  ∀ c : Cfg, ValidCfg c →
    (∀ i, i < 7 → (initState c).tog.getLsbD i = false) ∧
    (∀ k f, (k, f) ∈ storedFields c → (fieldVal (initState c) k).toNat = f.reset) ∧
    (∀ r ∈ c.regions, ∀ o, r.resource = .mem o → ∀ l : Addr, l.toNat < r.size.toNat →
      (initState c).mem.read (cellAddr r l) = o.image.getD l.toNat 0x00#8)

/-- Every valid, finalized configuration starts in the invariant (10_state section 6). -/
def Obligations.InitialStateMeetsTheInvariant : Prop :=
  ∀ c : Cfg, ValidCfg c → allFinalized c = true → Inv (initState c)

/-- The read path of every reset state is 0, and so are its outputs (10_state section 6; D24). The model's reset is the
reset state of REFCFG, constructed without an image (log 1, log 3). -/
def Obligations.ResetIsTheReferenceStart : Prop :=
  (∀ c : Cfg, (initState c).resp = 0#32 ∧ (initState c).ackD = false ∧ (initState c).ackI = false ∧
    outputs (initState c) = { dDatR := 0, dAck := false, dErr := false, iDatR := 0, iAck := false, iErr := false }) ∧
  powerOn (refCfg []) = .next State.reset ∧
    outputs State.reset = { dDatR := 0, dAck := false, dErr := false, iDatR := 0, iAck := false, iErr := false }

/-! Promises about the whole block -/

/-- The six outputs of a state: both masters see the one response word, the data master its low byte, each its own
acknowledge, and the errors are 0; so two states with the same response word and acknowledges have the same outputs
(45_cycle_step section 5; D1, D4, D6). -/
def Obligations.OutputsShowTheSharedResponse : Prop :=
  (∀ s : State,
    (outputs s).iDatR = s.resp ∧ (outputs s).dDatR.toNat = s.resp.toNat % 256 ∧
      (outputs s).dAck = s.ackD ∧ (outputs s).iAck = s.ackI ∧ (outputs s).dErr = false ∧ (outputs s).iErr = false) ∧
  ∀ s t : State, s.resp = t.resp → s.ackD = t.ackD → s.ackI = t.ackI → outputs s = outputs t

/-- 41_arbiter R135: a fetch that loses to the data master leaves no trace but the absence of its acknowledge, whatever
address it had and whatever stands on `i_adr` without it. -/
def Obligations.LosingFetchLeavesNoTrace : Prop :=
  ∀ (s : State) (q : Request) (a b : Addr) (hw : List HwEvent) (rest : List In), q.dReq = true →
    ∃ t, step (s.withInputs ({ req := { q with iReq := true, iAdr := a }, hw := hw } :: rest)) = .next t ∧
      step (s.withInputs ({ req := { q with iReq := false, iAdr := b }, hw := hw } :: rest)) = .next t ∧ t.ackI = false

/-- No read has a side effect: the address of a read reaches the response word and nothing else (20_memory
section 4). -/
def Obligations.ReadAddressReachesOnlyTheResponse : Prop :=
  ∀ (s : State) (i j : In) (rest : List In), i.hw = j.hw →
    i.req.dReq = j.req.dReq → i.req.iReq = j.req.iReq → writeStrobe s i.req = false → writeStrobe s j.req = false →
    ∃ t u, step (s.withInputs (i :: rest)) = .next t ∧ step (s.withInputs (j :: rest)) = .next u ∧
      u = t.withResp u.resp

/-- 43_register_bank R172: a stored ReadOnly field follows its hardware-set channel, and no run without an event for it
changes it, whatever is written. -/
def Obligations.ReadOnlyFieldFollowsOnlyItsChannel : Prop :=
  ∀ (s : State) (k : FieldKey) (f : Field), Inv s → (k, f) ∈ storedFields s.cfg → f.access = .readOnly →
    (∀ i rest, s.inputs = i :: rest →
      ∃ t, step s = .next t ∧
        fieldVal t k = match hwFor i.hw k with | some v => hwBits f v | none => fieldVal s k) ∧
    (∀ n, n ≤ s.inputs.length → (∀ i ∈ s.inputs.take n, hwFor i.hw k = none) →
      ∃ t, Host.Core.run Sys2Proof.core n s = .next t ∧ fieldVal t k = fieldVal s k)

/-- A ClearOnWrite field bit by bit: the hardware-set value if there is an event, else a written 1 clears and a written 0
keeps; a bus write alone never sets a bit (43_register_bank section 1; the priority is D17). -/
def Obligations.ClearOnWriteIsSetOnlyByItsChannel : Prop :=
  ∀ (s : State) (i : In) (rest : List In) (k : FieldKey) (f : Field), s.inputs = i :: rest → Inv s →
    (k, f) ∈ storedFields s.cfg → f.access = .clearOnWrite →
    ∃ t, step s = .next t ∧
      (∀ v, hwFor i.hw k = some v → ∀ n, n < f.size → (fieldVal t k).getLsbD n = v.getLsbD n) ∧
      (hwFor i.hw k = none → ∀ n, n < f.size →
        (fieldVal t k).getLsbD n =
          ((fieldVal s k).getLsbD n &&
            !(writeStrobe s i.req && strobed s.cfg (busAdr i.req) k && i.req.dDatW.getLsbD (f.offset + n))))

/-- A Pulse field holds the written bits for exactly the cycle after the write (43_register_bank section 1; D15). -/
def Obligations.PulseLastsOneCycle : Prop :=
  ∀ (s : State) (i j : In) (rest : List In) (k : FieldKey) (f : Field), s.inputs = i :: j :: rest → Inv s →
    (k, f) ∈ storedFields s.cfg → f.access = .pulse →
    writeStrobe s i.req = true → strobed s.cfg (busAdr i.req) k = true →
    ¬ (j.req.dReq = true ∧ j.req.dWe = true ∧ j.req.dAdr = k.addr) →
    ∃ t u, step s = .next t ∧ step t = .next u ∧
      (fieldVal t k).toNat = i.req.dDatW.toNat / 2 ^ f.offset % 2 ^ f.size ∧ fieldVal u k = 0x00#8

/-- A byte written to memory is what the next cycle's read of it returns, whichever master reads (20_memory section 7;
the acceptance is D5's parameter). -/
def Obligations.WriteThenReadReturnsTheByte : Prop :=
  ∀ (s : State) (i j : In) (rest : List In) (r : Region) (o : MemOptions), s.inputs = i :: j :: rest → s.mem.wf →
    writeStrobe s i.req = true → resolve s.cfg i.req.dAdr = .mem r o → o.writable = true →
    (i.req.dAdr - r.base).toNat < r.size.toNat → busAdr j.req = i.req.dAdr →
    ∃ t u, step s = .next t ∧ step t = .next u ∧ u.resp.extractLsb' 0 8 = i.req.dDatW

/-- A value written to a ReadWrite field is what the next cycle's read of its register returns in the field's bits
(43_register_bank section 1). -/
def Obligations.ReadWriteFieldReadsBack : Prop :=
  ∀ (s : State) (i j : In) (rest : List In) (k : Nat) (b : Bank) (g : Register) (f : Field), Inv s →
    s.inputs = i :: j :: rest → writeStrobe s i.req = true → resolve s.cfg i.req.dAdr = .bank k b →
    registerAt b i.req.dAdr = some g → f ∈ g.fields → f.access = .readWrite → busAdr j.req = i.req.dAdr →
    ∃ t u, step s = .next t ∧ step t = .next u ∧
      ∀ n, n < f.size → u.resp.getLsbD (f.offset + n) = i.req.dDatW.getLsbD (f.offset + n)

/-- A cycle on an unmapped address answers 0, is acknowledged like any other, and stores nothing (the spec's decision
D3). -/
def Obligations.UnmappedCycleStoresNothing : Prop :=
  ∀ (s : State) (i : In) (rest : List In), s.inputs = i :: rest → resolve s.cfg (busAdr i.req) = .unmapped →
    ∃ t, step s = .next t ∧ t.resp = 0#32 ∧ t.ackD = accD s i.req ∧ t.ackI = accI s i.req ∧
      MemoryKept s t ∧ FieldsAdvance s t (fun _ => false) 0

/-- What the toggle status mirror reads: the toggle bit that the stored endpoint and direction select, and 0 where they
select none (44_toggle_table sections 3 and 5; D18, D21). -/
def Obligations.ToggleStatusReadsTheSelectedBit : Prop :=
  ∀ (s : State) (t : TogKeys) (f : Field), Inv s → togKeys s.cfg = some t → fieldAt s.cfg t.q = some f →
    let sel := indexOf ((fieldVal s t.ep).setWidth 4) (decide (fieldVal s t.dir = 1#8))
    (∀ j, sel = some j →
      fieldValue s t.q f = if s.tog.getLsbD j = true then 1#8 else 0#8) ∧
    (sel = none → fieldValue s t.q f = 0#8)

/-- No operation traps: every one of the opcode table answers a next state in every state, with the configuration and
the inputs untouched and canonical memory kept canonical (30_encoding section 5, 60_exceptions section 4; that the
micro-operations are total where what they act on is not there is log 6). -/
def Obligations.EveryOperationCompletes : Prop :=
  ∀ (i : Instr) (s : State), ∃ t, exec i s = .next t ∧ EnvironmentKept s t ∧ (s.mem.wf → t.mem.wf) ∧
    t.flds.map Prod.fst = s.flds.map Prod.fst

/-- ADD and FINALIZE, check by check in their order (43_register_bank section 5; D13, D14, D27, D28, D31): CE14; on an
open bank, with a name and an address that are free, CE7, then the first field that CE5, CE12 or CE13 refuses, then CE6
for two fields that share a bit; and otherwise the register is stored under the address. Items are recorded by name,
CE14 has none (log 17); FINALIZE tests for a width above 8 (log 18). -/
def Obligations.AddRaisesTheFirstFailingCheck : Prop :=
  (∀ (b : Bank) (a : Addr) (g : Register), b.finalized = true → addRegister b a g = .error .ce14Order) ∧
  (∀ (b : Bank) (a : Addr) (g : Register), b.finalized = false → g.name ≠ "" →
    (∀ h ∈ b.registers, h.address ≠ a ∧ h.name ≠ g.name) →
    (g.width ≠ 8 → addRegister b a g = .error (.ce7MultiWord g.name)) ∧
    (∀ (pre post : List Field) (f : Field), g.width = 8 → g.fields = pre ++ f :: post → (∀ h ∈ pre, FieldOk h) →
      (f.size < 1 ∨ 7 < f.offset ∨ 8 < f.offset + f.size →
        addRegister b a g = .error (.ce5FieldRange g.name f.name)) ∧
      (1 ≤ f.size → f.offset + f.size ≤ 8 → f.mirror = true → f.access ≠ .readOnly →
        addRegister b a g = .error (.ce12FieldPolicy g.name f.name)) ∧
      (1 ≤ f.size → f.offset + f.size ≤ 8 → (f.mirror = true → f.access = .readOnly) →
        (2 ^ f.size ≤ f.reset ∨ (f.mirror = true ∧ f.reset ≠ 0)) →
        addRegister b a g = .error (.ce13ResetValue g.name f.name))) ∧
    (g.width = 8 → (∀ f ∈ g.fields, FieldOk f) →
      ((∀ (i j : Nat) (f h : Field), i < j → g.fields[i]? = some f → g.fields[j]? = some h → ∀ n : Nat,
          ¬ ((f.offset ≤ n ∧ n < f.offset + f.size) ∧ (h.offset ≤ n ∧ n < h.offset + h.size))) →
        addRegister b a g = .ok { b with registers := b.registers ++ [{ g with address := a }] }) ∧
      ((∃ (i j : Nat) (f h : Field) (n : Nat), i < j ∧ g.fields[i]? = some f ∧ g.fields[j]? = some h ∧
          (f.offset ≤ n ∧ n < f.offset + f.size) ∧ (h.offset ≤ n ∧ n < h.offset + h.size)) →
        ∃ (i j : Nat) (f h : Field) (n : Nat), i < j ∧ g.fields[i]? = some f ∧ g.fields[j]? = some h ∧
          (f.offset ≤ n ∧ n < f.offset + f.size) ∧ (h.offset ≤ n ∧ n < h.offset + h.size) ∧
          addRegister b a g = .error (.ce6FieldOverlap g.name f.name h.name)))) ∧
  ∀ b : Bank,
    ((∀ g ∈ b.registers, g.width ≤ 8) → finalizeBank b = .ok { b with finalized := true }) ∧
    ((∃ g ∈ b.registers, 8 < g.width) →
      ∃ g ∈ b.registers, 8 < g.width ∧ finalizeBank b = .error (.ce7MultiWord g.name))

/-- The other construction-time operations raise their own codes (60_exceptions section 2; D12, D19, D30, D31): CE10 for
the block size, before any other error of the description (the order of construction, 70_reset_and_hazards section 2,
D28, log 12); CE8 for an image; CE9, then CE11 (its place is the model's, log 11), then CE4 for a region; CE15 for the
binding of the toggle table, where the register and the fields that the binding names are the model's choice if several
fit: the register the address reaches, else the first held at it, and the first field of a name (log 10). In what form an item is recorded is the
model's choice too (log 17). -/
def Obligations.ConstructionRaisesTheNamedError : Prop :=
  (∀ d : Cfg, (¬ ∃ k, k ≤ 16 ∧ d.blockSize = 2 ^ k) → construct d = .error (.ce10BlockSize d.blockSize)) ∧
  (∀ (r : Region) (m : MemOptions),
    (r.size.toNat < m.image.length → loadImage r m = .error (.ce8ImageTooLong r.name m.image.length)) ∧
    (m.image.length ≤ r.size.toNat → loadImage r m = .ok m)) ∧
  (∀ (c : Cfg) (r : Region),
    let beyond := 2 ^ 16 < r.base.toNat + r.size.toNat
    let badMain := r.mainRam = true ∧
      (r.base ≠ 0#16 ∨ (¬ ∃ k, r.size.toNat = 2 ^ k) ∨ r.size.toNat < c.blockSize ∨
        (∃ b, r.resource = .bank b) ∨ ∃ q ∈ c.regions, q.mainRam = true)
    let meets := fun q : Region =>
      (r.base.toNat < q.base.toNat + q.size.toNat ∧ q.base.toNat < r.base.toNat + r.size.toNat) ∨
        (blockLo c r < blockHi c q ∧ blockLo c q < blockHi c r)
    (beyond → addRegion c r = .error (.ce9BeyondSpace r.name)) ∧
    (¬ beyond → badMain → addRegion c r = .error (.ce11MainRam r.name)) ∧
    (¬ beyond → ¬ badMain → (∃ q ∈ c.regions, meets q) →
      ∃ q ∈ c.regions, meets q ∧ addRegion c r = .error (.ce4Overlap r.name q.name)) ∧
    (¬ beyond → ¬ badMain → (¬ ∃ q ∈ c.regions, meets q) →
      addRegion c r = .ok { c with regions := c.regions ++ [r] })) ∧
  ∀ (c : Cfg) (t : TogBinding),
    let has := fun (g : Register) (n : String) (acc : Access) (size : Nat) (mirror : Bool) =>
      ∃ f, (g.fields.find? fun h => decide (h.name = n)) = some f ∧ f.access = acc ∧ f.size = size ∧ f.mirror = mirror
    let fits := ∃ k g, controlRegister c t.ctl = some (k, g) ∧ has g t.ep .readWrite 4 false ∧
      has g t.dir .readWrite 1 false ∧ has g t.set .pulse 1 false ∧ has g t.reset .pulse 1 false ∧
      has g t.q .readOnly 1 true
    (fits → bindToggle c (some t) = .ok { c with toggle := some t }) ∧
    (¬ fits → bindToggle c (some t) = .error (.ce15ToggleBinding t.ctl))
end

