-- ==== Sys2Proof/Laws/State.lean ====
section
/-! SUPPORT. One lemma per field per named update of the state: no later proof unfolds a record update. -/

namespace Sys2Proof.Machine

variable (s : State)

@[simp] theorem State.withMem_cfg (m : Memory) : (s.withMem m).cfg = s.cfg := rfl
@[simp] theorem State.withMem_mem (m : Memory) : (s.withMem m).mem = m := rfl
@[simp] theorem State.withMem_flds (m : Memory) : (s.withMem m).flds = s.flds := rfl
@[simp] theorem State.withMem_tog (m : Memory) : (s.withMem m).tog = s.tog := rfl
@[simp] theorem State.withMem_resp (m : Memory) : (s.withMem m).resp = s.resp := rfl
@[simp] theorem State.withMem_ackD (m : Memory) : (s.withMem m).ackD = s.ackD := rfl
@[simp] theorem State.withMem_ackI (m : Memory) : (s.withMem m).ackI = s.ackI := rfl
@[simp] theorem State.withMem_inputs (m : Memory) : (s.withMem m).inputs = s.inputs := rfl

@[simp] theorem State.withFlds_cfg (l : List (FieldKey × Byte)) : (s.withFlds l).cfg = s.cfg := rfl
@[simp] theorem State.withFlds_mem (l : List (FieldKey × Byte)) : (s.withFlds l).mem = s.mem := rfl
@[simp] theorem State.withFlds_flds (l : List (FieldKey × Byte)) : (s.withFlds l).flds = l := rfl
@[simp] theorem State.withFlds_tog (l : List (FieldKey × Byte)) : (s.withFlds l).tog = s.tog := rfl
@[simp] theorem State.withFlds_resp (l : List (FieldKey × Byte)) : (s.withFlds l).resp = s.resp := rfl
@[simp] theorem State.withFlds_ackD (l : List (FieldKey × Byte)) : (s.withFlds l).ackD = s.ackD := rfl
@[simp] theorem State.withFlds_ackI (l : List (FieldKey × Byte)) : (s.withFlds l).ackI = s.ackI := rfl
@[simp] theorem State.withFlds_inputs (l : List (FieldKey × Byte)) : (s.withFlds l).inputs = s.inputs := rfl

@[simp] theorem State.withTog_cfg (b : BitVec 7) : (s.withTog b).cfg = s.cfg := rfl
@[simp] theorem State.withTog_mem (b : BitVec 7) : (s.withTog b).mem = s.mem := rfl
@[simp] theorem State.withTog_flds (b : BitVec 7) : (s.withTog b).flds = s.flds := rfl
@[simp] theorem State.withTog_tog (b : BitVec 7) : (s.withTog b).tog = b := rfl
@[simp] theorem State.withTog_resp (b : BitVec 7) : (s.withTog b).resp = s.resp := rfl
@[simp] theorem State.withTog_ackD (b : BitVec 7) : (s.withTog b).ackD = s.ackD := rfl
@[simp] theorem State.withTog_ackI (b : BitVec 7) : (s.withTog b).ackI = s.ackI := rfl
@[simp] theorem State.withTog_inputs (b : BitVec 7) : (s.withTog b).inputs = s.inputs := rfl

@[simp] theorem State.withResp_cfg (w : Word32) : (s.withResp w).cfg = s.cfg := rfl
@[simp] theorem State.withResp_mem (w : Word32) : (s.withResp w).mem = s.mem := rfl
@[simp] theorem State.withResp_flds (w : Word32) : (s.withResp w).flds = s.flds := rfl
@[simp] theorem State.withResp_tog (w : Word32) : (s.withResp w).tog = s.tog := rfl
@[simp] theorem State.withResp_resp (w : Word32) : (s.withResp w).resp = w := rfl
@[simp] theorem State.withResp_ackD (w : Word32) : (s.withResp w).ackD = s.ackD := rfl
@[simp] theorem State.withResp_ackI (w : Word32) : (s.withResp w).ackI = s.ackI := rfl
@[simp] theorem State.withResp_inputs (w : Word32) : (s.withResp w).inputs = s.inputs := rfl

@[simp] theorem State.withInputs_cfg (l : List In) : (s.withInputs l).cfg = s.cfg := rfl
@[simp] theorem State.withInputs_mem (l : List In) : (s.withInputs l).mem = s.mem := rfl
@[simp] theorem State.withInputs_flds (l : List In) : (s.withInputs l).flds = s.flds := rfl
@[simp] theorem State.withInputs_tog (l : List In) : (s.withInputs l).tog = s.tog := rfl
@[simp] theorem State.withInputs_resp (l : List In) : (s.withInputs l).resp = s.resp := rfl
@[simp] theorem State.withInputs_ackD (l : List In) : (s.withInputs l).ackD = s.ackD := rfl
@[simp] theorem State.withInputs_ackI (l : List In) : (s.withInputs l).ackI = s.ackI := rfl
@[simp] theorem State.withInputs_inputs (l : List In) : (s.withInputs l).inputs = l := rfl

@[simp] theorem State.withAcks_cfg (d i : Bool) : (s.withAcks d i).cfg = s.cfg := rfl
@[simp] theorem State.withAcks_mem (d i : Bool) : (s.withAcks d i).mem = s.mem := rfl
@[simp] theorem State.withAcks_flds (d i : Bool) : (s.withAcks d i).flds = s.flds := rfl
@[simp] theorem State.withAcks_tog (d i : Bool) : (s.withAcks d i).tog = s.tog := rfl
@[simp] theorem State.withAcks_resp (d i : Bool) : (s.withAcks d i).resp = s.resp := rfl
@[simp] theorem State.withAcks_ackD (d i : Bool) : (s.withAcks d i).ackD = d := rfl
@[simp] theorem State.withAcks_ackI (d i : Bool) : (s.withAcks d i).ackI = i := rfl
@[simp] theorem State.withAcks_inputs (d i : Bool) : (s.withAcks d i).inputs = s.inputs := rfl

end Sys2Proof.Machine
end

