-- ==== Sys2Proof/Laws/Fields.lean ====
section
/-! SUPPORT. The laws of field storage: lookups after each update, the bits of a field, and the stored fields of a valid
configuration. -/

namespace Sys2Proof.Machine

/-- A lookup after every value is replaced by a function of its key and itself. -/
theorem lookupField_map (l : List (FieldKey × Byte)) (g : FieldKey → Byte → Byte) (k : FieldKey) :
    lookupField (l.map fun p => (p.1, g p.1 p.2)) k = (lookupField l k).map (g k) := by
  induction l with
  | nil => rfl
  | cons p rest ih =>
    obtain ⟨j, v⟩ := p
    simp only [List.map_cons, lookupField]
    split
    · rename_i h
      subst h
      rfl
    · exact ih

/-- The value a field takes in a cycle, by its description if it has one. -/
def nextAt (c : Cfg) (a : Addr) (wr : Option Byte) (evs : List HwEvent) (k : FieldKey) (v : Byte) : Byte :=
  match fieldAt c k with
  | some f => nextField f v (fieldIn c a wr evs k)
  | none => v

theorem nextFlds_eq_map (s : State) (a : Addr) (wr : Option Byte) (evs : List HwEvent) :
    nextFlds s a wr evs = s.flds.map fun p => (p.1, nextAt s.cfg a wr evs p.1 p.2) := by
  unfold nextFlds nextAt
  refine List.map_congr_left fun p _ => ?_
  cases fieldAt s.cfg p.1 <;> rfl

/-- A lookup after a cycle. -/
theorem lookup_nextFlds (s : State) (a : Addr) (wr : Option Byte) (evs : List HwEvent) (k : FieldKey) :
    lookupField (nextFlds s a wr evs) k = (lookupField s.flds k).map (nextAt s.cfg a wr evs k) := by
  rw [nextFlds_eq_map, lookupField_map]

/-- A cycle stores the same fields. -/
theorem keys_nextFlds (s : State) (a : Addr) (wr : Option Byte) (evs : List HwEvent) :
    (nextFlds s a wr evs).map Prod.fst = s.flds.map Prod.fst := by
  rw [nextFlds_eq_map, List.map_map]
  exact List.map_congr_left fun _ _ => rfl

theorem setField_eq_map (l : List (FieldKey × Byte)) (k : FieldKey) (v : Byte) :
    setField l k v = l.map fun p => (p.1, if p.1 = k then v else p.2) := by
  unfold setField
  refine List.map_congr_left fun p _ => ?_
  split <;> rfl

/-- A lookup after one field is assigned. -/
theorem lookup_setField (l : List (FieldKey × Byte)) (k j : FieldKey) (v : Byte) :
    lookupField (setField l k v) j = (lookupField l j).map fun w => if j = k then v else w := by
  rw [setField_eq_map, lookupField_map l (fun i w => if i = k then v else w)]

theorem keys_setField (l : List (FieldKey × Byte)) (k : FieldKey) (v : Byte) :
    (setField l k v).map Prod.fst = l.map Prod.fst := by
  rw [setField_eq_map, List.map_map]
  exact List.map_congr_left fun _ _ => rfl

/-- What REG.WR does to one field. -/
def strobeAt (c : Cfg) (a : Addr) (v : Byte) (k : FieldKey) (cur : Byte) : Byte :=
  match fieldAt c k with
  | some f => if strobed c a k then nextField f cur { key := k, strobe := true, w := v, hw := none } else cur
  | none => cur

theorem strobeFlds_eq_map (s : State) (a : Addr) (v : Byte) :
    strobeFlds s a v = s.flds.map fun p => (p.1, strobeAt s.cfg a v p.1 p.2) := by
  unfold strobeFlds strobeAt
  refine List.map_congr_left fun p _ => ?_
  cases fieldAt s.cfg p.1 with
  | none => rfl
  | some f => by_cases h : strobed s.cfg a p.1 <;> simp [h]

/-- A lookup after REG.WR. -/
theorem lookup_strobeFlds (s : State) (a : Addr) (v : Byte) (k : FieldKey) :
    lookupField (strobeFlds s a v) k = (lookupField s.flds k).map (strobeAt s.cfg a v k) := by
  rw [strobeFlds_eq_map, lookupField_map]

/-- A listed value is found under its key, where the keys are distinct. -/
theorem lookupField_of_mem (l : List (FieldKey × Byte)) (h : (l.map Prod.fst).Nodup) (k : FieldKey) (v : Byte)
    (hp : (k, v) ∈ l) : lookupField l k = some v := by
  induction l with
  | nil => simp at hp
  | cons p rest ih =>
    obtain ⟨j, w⟩ := p
    simp only [List.map_cons, List.nodup_cons, List.mem_map, not_exists, not_and] at h
    rcases List.mem_cons.1 hp with hp | hp
    · simp only [Prod.mk.injEq] at hp
      simp [lookupField, hp.1, hp.2]
    · have hj : j ≠ k := fun e => h.1 (k, v) hp e.symm
      simp only [lookupField, if_neg hj]
      exact ih h.2 hp

/-- A found value is listed under its key. -/
theorem mem_of_lookupField (l : List (FieldKey × Byte)) (k : FieldKey) (v : Byte) (h : lookupField l k = some v) :
    (k, v) ∈ l := by
  induction l with
  | nil => simp [lookupField] at h
  | cons p rest ih =>
    obtain ⟨j, w⟩ := p
    simp only [lookupField] at h
    split at h
    · rename_i hj
      simp_all
    · exact List.mem_cons_of_mem _ (ih h)

/-- A key that is listed is found. -/
theorem lookupField_isSome (l : List (FieldKey × Byte)) (k : FieldKey) :
    (lookupField l k).isSome = true ↔ k ∈ l.map Prod.fst := by
  induction l with
  | nil => simp [lookupField]
  | cons p rest ih =>
    obtain ⟨j, w⟩ := p
    simp only [lookupField, List.map_cons, List.mem_cons]
    split
    · rename_i hj
      simp [hj]
    · rename_i hj
      rw [ih]
      constructor
      · exact .inr
      · rintro (h | h)
        · exact absurd h.symm hj
        · exact h

/-! Hardware-set events -/

/-- The event found for a field that has one. -/
theorem hwFor_of_mem (l : List HwEvent) (h : (l.map HwEvent.key).Nodup) (k v) (hm : (⟨k, v⟩ : HwEvent) ∈ l) : hwFor l k = some v := by
  induction l with
  | nil => simp at hm
  | cons e rest ih =>
    simp only [List.map_cons, List.nodup_cons, List.mem_map, not_exists, not_and] at h
    rcases List.mem_cons.1 hm with rfl | hm
    · simp [hwFor]
    · have := ih h.2 hm
      have hne : e.key ≠ k := fun he => h.1 _ hm he.symm
      simpa [hwFor, hne] using this

/-- No event is found for a field that has none. -/
theorem hwFor_none (l : List HwEvent) (k) (hm : ∀ v, (⟨k, v⟩ : HwEvent) ∉ l) : hwFor l k = none := by
  simp only [hwFor, Option.map_eq_none_iff, List.find?_eq_none]
  intro e he hk; simp at hk; subst hk; exact hm e.val he

/-! The bits of a field -/

theorem sizeMask_toNat (n : Nat) (h : n ≤ 8) : (sizeMask n).toNat = 2 ^ n - 1 := by
  unfold sizeMask
  rw [BitVec.toNat_ofNat]
  apply Nat.mod_eq_of_lt
  have h1 : 2 ^ n ≤ 2 ^ 8 := Nat.pow_le_pow_right (by omega) h
  have h2 : 0 < 2 ^ n := Nat.two_pow_pos n
  omega

theorem and_sizeMask_lt (v : Byte) (n : Nat) (h : n ≤ 8) : (v &&& sizeMask n).toNat < 2 ^ n := by
  rw [BitVec.toNat_and, sizeMask_toNat n h, Nat.and_two_pow_sub_one_eq_mod]
  exact Nat.mod_lt _ (Nat.two_pow_pos n)

theorem and_sizeMask_eq (v : Byte) (n : Nat) (h : n ≤ 8) (hv : v.toNat < 2 ^ n) : v &&& sizeMask n = v := by
  apply BitVec.eq_of_toNat_eq
  rw [BitVec.toNat_and, sizeMask_toNat n h, Nat.and_two_pow_sub_one_eq_mod, Nat.mod_eq_of_lt hv]

theorem and_not_lt (v m : Byte) (n : Nat) (hv : v.toNat < 2 ^ n) : (v &&& m).toNat < 2 ^ n := by
  rw [BitVec.toNat_and]
  exact lt_of_le_of_lt Nat.and_le_left hv

theorem fieldBits_lt (f : Field) (w : Byte) (h : f.size ≤ 8) : (fieldBits f w).toNat < 2 ^ f.size :=
  and_sizeMask_lt _ _ h

theorem hwBits_lt (f : Field) (v : Byte) (h : f.size ≤ 8) : (hwBits f v).toNat < 2 ^ f.size := and_sizeMask_lt _ _ h

theorem hwBits_hwBits (f : Field) (v : Byte) (h : f.size ≤ 8) : hwBits f (hwBits f v) = hwBits f v :=
  and_sizeMask_eq _ _ h (hwBits_lt f v h)

/-- A policy's next value has at most the field's bits (10_state R26). -/
theorem nextField_lt (f : Field) (cur : Byte) (c : FieldIn) (h : f.size ≤ 8) (hc : cur.toNat < 2 ^ f.size) :
    (nextField f cur c).toNat < 2 ^ f.size := by
  have h0 : (0x00#8).toNat < 2 ^ f.size := by simp
  unfold nextField
  split
  · exact hc
  · split
    · unfold policyReadWrite
      split
      · exact fieldBits_lt f _ h
      · exact hc
    · unfold policyReadOnly
      split
      · exact hwBits_lt f _ h
      · exact hc
    · unfold policyPulse
      split
      · exact fieldBits_lt f _ h
      · exact h0
    · unfold policyClearOnWrite
      split
      · exact hwBits_lt f _ h
      · split
        · exact and_not_lt _ _ _ hc
        · exact hc

/-! The stored fields of a valid configuration -/

theorem bankAt_of_getElem (c : Cfg) (k : Nat) (r : Region) (b : Bank) (h : c.regions[k]? = some r)
    (hb : r.resource = .bank b) : bankAt c k = some b := by
  unfold bankAt
  rw [h]
  obtain ⟨n, x, y, z, res⟩ := r
  simp only at hb
  subst hb
  rfl

theorem bankAt_eq_some (c : Cfg) (k : Nat) (b : Bank) (h : bankAt c k = some b) :
    ∃ r, c.regions[k]? = some r ∧ r.resource = .bank b := by
  unfold bankAt at h
  split at h
  · rename_i n x y z b' hr
    simp only [Option.some.injEq] at h
    subst h
    exact ⟨_, hr, rfl⟩
  · simp at h

theorem find?_of_pairwise {α : Type} (l : List α) (p : α → Bool) (x : α) (hx : x ∈ l) (hp : p x = true)
    (h : ∀ y ∈ l, p y = true → y = x) : l.find? p = some x := by
  induction l with
  | nil => simp at hx
  | cons y rest ih =>
    by_cases hy : p y = true
    · rw [List.find?_cons_of_pos hy, h y (by simp) hy]
    · rw [List.find?_cons_of_neg hy]
      rcases List.mem_cons.1 hx with rfl | hx
      · exact absurd hp hy
      · exact ih hx fun z hz => h z (by simp [hz])

/-- Two different members of a list are in a symmetric relation that holds pairwise. -/
theorem pairwise_of_mem {α : Type} {R : α → α → Prop} (hs : ∀ x y, R x y → R y x) {l : List α} (h : l.Pairwise R)
    {x y : α} (hx : x ∈ l) (hy : y ∈ l) (hne : x ≠ y) : R x y := by
  induction l with
  | nil => simp at hx
  | cons z rest ih =>
    rw [List.pairwise_cons] at h
    rcases List.mem_cons.1 hx with h1 | h1 <;> rcases List.mem_cons.1 hy with h2 | h2
    · exact absurd (h1.trans h2.symm) hne
    · exact h1 ▸ h.1 y h2
    · exact h2 ▸ hs _ _ (h.1 x h1)
    · exact ih h.2 h1 h2

theorem fieldsApart_symm (f g : Field) (h : FieldsApart f g) : FieldsApart g f := h.symm

theorem registersApart_symm (g h : Register) (e : RegistersApart g h) : RegistersApart h g := ⟨e.1.symm, e.2.symm⟩

theorem registerAt_of_mem (b : Bank) (hb : BankOk b) (g : Register) (hg : g ∈ b.registers) :
    registerAt b g.address = some g := by
  refine find?_of_pairwise _ _ _ hg (by simp) fun y hy he => ?_
  have he : y.address = g.address := by simpa using he
  by_contra hne
  exact (pairwise_of_mem registersApart_symm hb.2 hy hg hne).1 he

theorem fieldsApart_offset_ne (f g : Field) (hf : FieldOk f) (hg : FieldOk g) (h : FieldsApart f g) :
    f.offset ≠ g.offset := by
  have h1 := hf.1.1
  have h2 := hg.1.1
  rcases h with h | h <;> omega

theorem field_of_mem (g : Register) (hg : RegisterOk g) (f : Field) (hf : f ∈ g.fields) :
    (g.fields.find? fun h => decide (h.offset = f.offset)) = some f := by
  refine find?_of_pairwise _ _ _ hf (by simp) fun y hy he => ?_
  have he : y.offset = f.offset := by simpa using he
  by_contra hne
  have := pairwise_of_mem fieldsApart_symm hg.2.2.2 hy hf hne
  exact fieldsApart_offset_ne y f (hg.2.2.1 y hy) (hg.2.2.1 f hf) this he

theorem bankOk_of_valid (c : Cfg) (hc : ValidCfg c) (r : Region) (hr : r ∈ c.regions) (b : Bank)
    (hb : r.resource = .bank b) : BankOk b := by
  have := hc.2.1 r hr
  unfold resourceOk at this
  rw [hb] at this
  exact of_decide_eq_true this

/-- Where a stored field comes from. -/
theorem mem_storedFields (c : Cfg) (k : FieldKey) (f : Field) :
    (k, f) ∈ storedFields c ↔
      ∃ r b g, c.regions[k.bank]? = some r ∧ r.resource = .bank b ∧ g ∈ b.registers ∧ f ∈ g.fields ∧
        f.mirror = false ∧ k.addr = g.address ∧ k.offset = f.offset := by
  obtain ⟨kb, ka, ko⟩ := k
  unfold storedFields
  simp only [List.mem_flatMap, Prod.exists, List.mem_zipIdx_iff_getElem?]
  constructor
  · rintro ⟨r, i, hr, h⟩
    cases hres : r.resource with
    | mem m => simp [hres] at h
    | bank b =>
      simp only [hres, List.mem_flatMap, List.mem_map, List.mem_filter, Prod.mk.injEq, FieldKey.mk.injEq] at h
      obtain ⟨g, hg, f', ⟨hf', hm⟩, ⟨rfl, rfl, rfl⟩, rfl⟩ := h
      exact ⟨r, b, g, hr, hres, hg, hf', by simpa using hm, rfl, rfl⟩
  · rintro ⟨r, b, g, hr, hres, hg, hf, hm, h1, h2⟩
    refine ⟨r, kb, hr, ?_⟩
    simp only [hres, List.mem_flatMap, List.mem_map, List.mem_filter, Prod.mk.injEq, FieldKey.mk.injEq]
    exact ⟨g, hg, f, ⟨hf, by simp [hm]⟩, ⟨trivial, h1.symm, h2.symm⟩, rfl⟩

/-- The description found for a stored field of a valid configuration is that field's. -/
theorem fieldAt_of_stored (c : Cfg) (hc : ValidCfg c) (k : FieldKey) (f : Field) (h : (k, f) ∈ storedFields c) :
    fieldAt c k = some f := by
  obtain ⟨r, b, g, hr, hb, hg, hf, -, h1, h2⟩ := (mem_storedFields c k f).1 h
  have hbank := bankOk_of_valid c hc r (List.mem_of_getElem? hr) b hb
  unfold fieldAt
  rw [bankAt_of_getElem c k.bank r b hr hb, Option.bind_some, h1, registerAt_of_mem b hbank g hg, Option.bind_some, h2]
  exact field_of_mem g (hbank.1 g hg) f hf

/-- What a found field description is. -/
theorem fieldAt_eq_some (c : Cfg) (k : FieldKey) (f : Field) (h : fieldAt c k = some f) :
    ∃ r b g, c.regions[k.bank]? = some r ∧ r.resource = .bank b ∧ g ∈ b.registers ∧ f ∈ g.fields ∧
      g.address = k.addr ∧ f.offset = k.offset := by
  unfold fieldAt at h
  rw [Option.bind_eq_some_iff] at h
  obtain ⟨b, hb, h⟩ := h
  rw [Option.bind_eq_some_iff] at h
  obtain ⟨g, hg, h⟩ := h
  obtain ⟨r, hr, hres⟩ := bankAt_eq_some c k.bank b hb
  have hg1 := List.mem_of_find?_eq_some hg
  have hg2 := List.find?_some hg
  have hf1 := List.mem_of_find?_eq_some h
  have hf2 := List.find?_some h
  exact ⟨r, b, g, hr, hres, hg1, hf1, by simpa using hg2, by simpa using hf2⟩

/-- A field of a valid configuration is valid. -/
theorem fieldOk_of_fieldAt (c : Cfg) (hc : ValidCfg c) (k : FieldKey) (f : Field) (h : fieldAt c k = some f) :
    FieldOk f := by
  obtain ⟨r, b, g, hr, hb, hg, hf, -, -⟩ := fieldAt_eq_some c k f h
  exact ((bankOk_of_valid c hc r (List.mem_of_getElem? hr) b hb).1 g hg).2.2.1 f hf

theorem size_le_of_fieldAt (c : Cfg) (hc : ValidCfg c) (k : FieldKey) (f : Field) (h : fieldAt c k = some f) :
    f.size ≤ 8 := by
  have := (fieldOk_of_fieldAt c hc k f h).1.2
  omega

/-- The keys of the stored fields of a valid configuration are distinct. -/
theorem storedFields_nodup (c : Cfg) (hc : ValidCfg c) : ((storedFields c).map Prod.fst).Nodup := by
  unfold storedFields
  rw [List.map_flatMap, List.nodup_flatMap]
  constructor
  · rintro ⟨r, i⟩ hp
    have hr : r ∈ c.regions := List.mem_of_getElem? (List.mem_zipIdx_iff_getElem?.1 hp)
    cases hres : r.resource with
    | mem m => simp
    | bank b =>
      have hb := bankOk_of_valid c hc r hr b hres
      simp only [List.map_flatMap, List.map_map]
      rw [List.nodup_flatMap]
      constructor
      · intro g hg
        have hgok := hb.1 g hg
        refine List.Nodup.map_on ?_ ?_
        · intro x hx y hy hxy
          simp only [List.mem_filter] at hx hy
          by_contra hne
          have := pairwise_of_mem fieldsApart_symm hgok.2.2.2 hx.1 hy.1 hne
          have hoff := fieldsApart_offset_ne x y (hgok.2.2.1 x hx.1) (hgok.2.2.1 y hy.1) this
          simp only [Function.comp, FieldKey.mk.injEq] at hxy
          exact hoff hxy.2.2
        · refine List.Nodup.filter _ ?_
          refine hgok.2.2.2.imp_of_mem fun {x y} hx hy h => ?_
          intro e
          exact fieldsApart_offset_ne x y (hgok.2.2.1 x hx) (hgok.2.2.1 y hy) h (by rw [e])
      · refine hb.2.imp fun {g h} hgh => ?_
        simp only [Function.onFun, List.disjoint_left, List.mem_map, Function.comp]
        rintro k ⟨f, -, rfl⟩ ⟨f', -, he⟩
        simp only [FieldKey.mk.injEq] at he
        exact hgh.1 he.2.1.symm
  · have : c.regions.zipIdx.Pairwise fun p q => p.2 ≠ q.2 := by
      have h := (List.nodup_range' (s := 0) (n := c.regions.length) (step := 1))
      have e : c.regions.zipIdx.map Prod.snd = List.range' 0 c.regions.length := by
        rw [List.zipIdx_map_snd]
      rw [← e] at h
      exact (List.pairwise_map.1 h)
    refine this.imp fun {p q} hpq => ?_
    simp only [Function.onFun, List.disjoint_left]
    intro k hk hk'
    have hp : k.bank = p.2 := by
      cases hres : p.1.resource with
      | mem m => simp [hres] at hk
      | bank b =>
        simp only [hres, List.map_flatMap, List.mem_flatMap, List.map_map, List.mem_map, Function.comp] at hk
        obtain ⟨g, -, f, -, rfl⟩ := hk
        rfl
    have hq : k.bank = q.2 := by
      cases hres : q.1.resource with
      | mem m => simp [hres] at hk'
      | bank b =>
        simp only [hres, List.map_flatMap, List.mem_flatMap, List.map_map, List.mem_map, Function.comp] at hk'
        obtain ⟨g, -, f, -, rfl⟩ := hk'
        rfl
    exact hpq (hp.symm.trans hq)

/-! The fields the toggle table is bound to -/

/-- What the control register is: a register of some bank, at the named address (44_toggle_table R214). -/
theorem controlRegister_eq_some (c : Cfg) (a : Addr) (k : Nat) (g : Register) (h : controlRegister c a = some (k, g)) :
    ∃ r b, c.regions[k]? = some r ∧ r.resource = .bank b ∧ g ∈ b.registers ∧ g.address = a := by
  have fin : ∀ b, registerAt b a = some g → g ∈ b.registers ∧ g.address = a := fun b hb =>
    ⟨List.mem_of_find?_eq_some hb, by simpa using List.find?_some hb⟩
  have held : ∀ x, (c.regions.zipIdx.findSome? fun p =>
      (bankAt c p.2).bind fun b => (registerAt b a).map fun g => (p.2, g)) = some x → x = (k, g) →
      ∃ r b, c.regions[k]? = some r ∧ r.resource = .bank b ∧ g ∈ b.registers ∧ g.address = a := by
    rintro x hx rfl
    obtain ⟨p, -, hp⟩ := List.exists_of_findSome?_eq_some hx
    obtain ⟨b, hb, hp⟩ := Option.bind_eq_some_iff.1 hp
    obtain ⟨g', hg', hp⟩ := Option.map_eq_some_iff.1 hp
    simp only [Prod.mk.injEq] at hp
    obtain ⟨rfl, rfl⟩ := hp
    obtain ⟨r, hr, hres⟩ := bankAt_eq_some c _ b hb
    exact ⟨r, b, hr, hres, fin b hg'⟩
  simp only [controlRegister] at h
  split at h
  · rename_i n b hres
    split at h
    · rename_i g' hg'
      simp only [Option.some.injEq, Prod.mk.injEq] at h
      obtain ⟨rfl, rfl⟩ := h
      unfold resolve at hres
      cases hd : decodeAddr c a with
      | none => simp [hd] at hres
      | some p =>
        obtain ⟨r, i⟩ := p
        simp only [hd] at hres
        cases hr : r.resource with
        | mem m => simp [hr] at hres
        | bank b' =>
          simp only [hr, Hit.bank.injEq] at hres
          obtain ⟨rfl, rfl⟩ := hres
          exact ⟨r, b', List.mem_zipIdx_iff_getElem?.1 (List.mem_of_find?_eq_some hd), hr, fin b' hg'⟩
    · exact held _ h rfl
  · exact held _ h rfl

/-- What a bound field is (44_toggle_table R214). -/
theorem boundField_eq_some (g : Register) (n : String) (acc : Access) (size : Nat) (m : Bool) (o : Nat)
    (h : boundField g n acc size m = some o) :
    ∃ f ∈ g.fields, f.access = acc ∧ f.size = size ∧ f.mirror = m ∧ f.offset = o := by
  unfold boundField at h
  split at h
  · rename_i f hf
    split at h
    · rename_i hc
      exact ⟨f, List.mem_of_find?_eq_some hf, hc.1, hc.2.1, hc.2.2, by simpa using h⟩
    · simp at h
  · simp at h

/-- The field of a valid configuration that a bound name gives. -/
theorem fieldAt_of_bound (c : Cfg) (hc : ValidCfg c) (k : Nat) (r : Region) (b : Bank) (g : Register)
    (hr : c.regions[k]? = some r) (hb : r.resource = .bank b) (hg : g ∈ b.registers) (n : String) (acc : Access)
    (size : Nat) (m : Bool) (o : Nat) (h : boundField g n acc size m = some o) :
    ∃ f, fieldAt c ⟨k, g.address, o⟩ = some f ∧ f.access = acc ∧ f.size = size ∧ f.mirror = m := by
  obtain ⟨f, hf, h1, h2, h3, rfl⟩ := boundField_eq_some g n acc size m o h
  have hbank := bankOk_of_valid c hc r (List.mem_of_getElem? hr) b hb
  refine ⟨f, ?_, h1, h2, h3⟩
  unfold fieldAt
  rw [bankAt_of_getElem c k r b hr hb, Option.bind_some, registerAt_of_mem b hbank g hg, Option.bind_some]
  exact field_of_mem g (hbank.1 g hg) f hf

/-- What the bound fields of a valid configuration are (44_toggle_table R214). -/
theorem togKeys_fields (c : Cfg) (hc : ValidCfg c) (t : TogKeys) (h : togKeys c = some t) :
    (∃ f, fieldAt c t.ep = some f ∧ f.access = .readWrite ∧ f.size = 4 ∧ f.mirror = false) ∧
    (∃ f, fieldAt c t.dir = some f ∧ f.access = .readWrite ∧ f.size = 1 ∧ f.mirror = false) ∧
    (∃ f, fieldAt c t.set = some f ∧ f.access = .pulse ∧ f.size = 1 ∧ f.mirror = false) ∧
    (∃ f, fieldAt c t.reset = some f ∧ f.access = .pulse ∧ f.size = 1 ∧ f.mirror = false) ∧
    (∃ f, fieldAt c t.q = some f ∧ f.access = .readOnly ∧ f.size = 1 ∧ f.mirror = true) := by
  unfold togKeys at h
  split at h
  · simp at h
  · rename_i tb _
    split at h
    · simp at h
    · rename_i k g hk
      split at h
      · rename_i e d x y q he hd hx hy hq
        simp only [Option.some.injEq] at h
        subst h
        obtain ⟨r, b, hr, hb, hg, -⟩ := controlRegister_eq_some c _ k g hk
        exact ⟨fieldAt_of_bound c hc k r b g hr hb hg _ _ _ _ _ he, fieldAt_of_bound c hc k r b g hr hb hg _ _ _ _ _ hd,
          fieldAt_of_bound c hc k r b g hr hb hg _ _ _ _ _ hx, fieldAt_of_bound c hc k r b g hr hb hg _ _ _ _ _ hy,
          fieldAt_of_bound c hc k r b g hr hb hg _ _ _ _ _ hq⟩
      · simp at h

/-- A described field without `mirror` is a stored one. -/
theorem stored_of_fieldAt (c : Cfg) (k : FieldKey) (f : Field) (h : fieldAt c k = some f) (hm : f.mirror = false) :
    (k, f) ∈ storedFields c := by
  obtain ⟨r, b, g, h1, h2, h3, h4, h5, h6⟩ := fieldAt_eq_some c k f h
  exact (mem_storedFields c k f).2 ⟨r, b, g, h1, h2, h3, h4, hm, h5.symm, h6.symm⟩

end Sys2Proof.Machine
end

