-- ==== Sys2Proof/Laws/Construct.lean ====
section
/-! SUPPORT. What each construction-time operation can do, said once: the checks of ADD, ADD of a list, building a
resource, ADD_REGION; and that FINALIZE changes nothing an address or a name finds. -/

namespace Sys2Proof.Machine

/-- A bound check answers a value where both parts do. -/
theorem except_bind_ok {α β ε : Type} (x : Except ε α) (f : α → Except ε β) (b : β) : x.bind f = .ok b ↔
      ∃ a, x = .ok a ∧ f a = .ok b := by
  cases x <;> simp [Except.bind]

/-- A mapped check answers a value where the check does. -/
theorem except_map_ok {α β ε : Type} (x : Except ε α) (f : α → β) (b : β) : x.map f = .ok b ↔
      ∃ a, x = .ok a ∧ f a = b := by
  cases x <;> simp [Except.map]

/-- The checks of ADD on one field (43_register_bank R184). -/
theorem checkField_ok (g f) : checkField g f = .ok () ↔ FieldOk f := by
  unfold checkField FieldOk
  split
  · simp; omega
  · split
    · rename_i h1 h2; simp; intro _ _ h; exact absurd (h h2.1) h2.2
    · split
      · rename_i h1 h2 h3; simp; intro _ _ h h4
        rcases h3 with h3 | h3
        · omega
        · exact ⟨h3.1, h3.2⟩
      · rename_i h1 h2 h3
        simp only [true_iff]
        refine ⟨by omega, fun h => ?_, by omega, fun h => ?_⟩
        · by_contra h'; exact h2 ⟨h, h'⟩
        · by_contra h'; exact h3 (.inr ⟨h, h'⟩)

/-- The checks of ADD on every field. -/
theorem checkFields_ok (g fs) : checkFields g fs = .ok () ↔ ∀ f ∈ fs, FieldOk f := by
  induction fs with
  | nil => simp [checkFields]
  | cons f rest ih =>
    simp only [checkFields, except_bind_ok, ih, List.forall_mem_cons, ← checkField_ok g f]
    constructor
    · rintro ⟨⟨⟩, h1, h2⟩
      exact ⟨h1, h2⟩
    · rintro ⟨h1, h2⟩
      exact ⟨(), h1, h2⟩

/-- The first field that fails a check of ADD decides the error (60_exceptions R266). -/
theorem checkFields_error (g : Register) (pre post : List Field) (f : Field) (e : ConfigError)
    (h : ∀ h ∈ pre, FieldOk h) (hf : checkField g f = .error e) : checkFields g (pre ++ f :: post) = .error e := by
  induction pre with
  | nil => simp [checkFields, hf, Except.bind]
  | cons p pre ih =>
    simp only [List.cons_append, checkFields]
    rw [(checkField_ok g p).2 (h p (by simp))]
    exact ih fun x hx => h x (by simp [hx])

/-- CE6's check (60_exceptions R256). -/
theorem checkApart_ok (g fs) : checkApart g fs = .ok () ↔ fs.Pairwise FieldsApart := by
  induction fs with
  | nil => simp [checkApart]
  | cons f rest ih =>
    simp only [checkApart, List.pairwise_cons, ← ih]
    split
    · rename_i h hh
      have := List.find?_some hh; have h2 := List.mem_of_find?_eq_some hh
      simp only [Bool.not_eq_true', decide_eq_false_iff_not] at this
      simp; intro h3; exact absurd (h3 h h2) this
    · rename_i hh; rw [List.find?_eq_none] at hh
      constructor
      · intro h; refine ⟨fun x hx => ?_, h⟩; have := hh x hx; rw [Bool.not_eq_true, Bool.not_eq_false', decide_eq_true_eq] at this; exact this
      · exact fun h => h.2

/-- Where two fields meet, CE6 names two that do (60_exceptions R256). -/
theorem checkApart_error (g : Register) (fs : List Field) (hne : ¬ fs.Pairwise FieldsApart) :
    ∃ (i j : Nat) (f h : Field), i < j ∧ fs[i]? = some f ∧ fs[j]? = some h ∧ ¬ FieldsApart f h ∧
      checkApart g fs = .error (.ce6FieldOverlap g.name f.name h.name) := by
  induction fs with
  | nil => simp at hne
  | cons p fs ih =>
    simp only [checkApart]
    split
    · rename_i h hh
      obtain ⟨j, hj⟩ := List.mem_iff_getElem?.1 (List.mem_of_find?_eq_some hh)
      have := List.find?_some hh
      exact ⟨0, j + 1, p, h, by omega, rfl, by simpa using hj, by simpa using this, rfl⟩
    · rename_i hh
      rw [List.find?_eq_none] at hh
      have : ¬ fs.Pairwise FieldsApart := fun hp => hne (List.pairwise_cons.2 ⟨fun x hx => by
        have := hh x hx
        rwa [Bool.not_eq_true, Bool.not_eq_false', decide_eq_true_eq] at this, hp⟩)
      obtain ⟨i, j, f, h, h1, h2, h3, h4⟩ := ih this
      exact ⟨i + 1, j + 1, f, h, by omega, by simpa using h2, by simpa using h3, h4⟩

/-- Two fields that ADD accepts share a bit exactly where their bit ranges meet. -/
theorem shares_bit_iff (f h : Field) (hf : FieldOk f) (hh : FieldOk h) :
    (∃ n, (f.offset ≤ n ∧ n < f.offset + f.size) ∧ (h.offset ≤ n ∧ n < h.offset + h.size)) ↔ ¬ FieldsApart f h := by
  obtain ⟨⟨a, -⟩, -⟩ := hf
  obtain ⟨⟨b, -⟩, -⟩ := hh
  constructor
  · rintro ⟨n, h1, h2⟩
    omega
  · exact fun h1 => ⟨max f.offset h.offset, by omega, by omega⟩

/-- What ADD can do under a register's own address (43_register_bank R184). -/
theorem addRegister_ok (b : Bank) (hb : b.finalized = false) (g : Register) (c : Bank) :
    addRegister b g.address g = .ok c ↔
      RegisterOk g ∧ (∀ h ∈ b.registers, RegistersApart h g) ∧
      c = { b with registers := b.registers ++ [g] } := by
  unfold addRegister RegisterOk RegistersApart
  rw [if_neg (by simp [hb])]
  split
  · simp_all
  split
  · rename_i h; obtain ⟨x, h1, h2⟩ := h
    simp; intro _ _ _ _ h; exact absurd h2 (h x h1).1
  split
  · rename_i h; obtain ⟨x, h1, h2⟩ := h
    simp; intro _ _ _ _ h; exact absurd h2 (h x h1).2
  split
  · simp_all
  rename_i h1 h2 h3 h4
  simp only [except_bind_ok, Except.ok.injEq]
  constructor
  · rintro ⟨_, h5, _, h6, rfl⟩
    refine ⟨⟨h1, by simpa using h4, (checkFields_ok g _).1 h5, (checkApart_ok g _).1 h6⟩, fun x hx => ⟨fun e => h2 ⟨x, hx, e⟩, fun e => h3 ⟨x, hx, e⟩⟩, rfl⟩
  · rintro ⟨⟨_, _, h5, h6⟩, _, rfl⟩
    exact ⟨(), (checkFields_ok g _).2 h5, (), (checkApart_ok g _).2 h6, rfl⟩

/-- What ADD of a list of registers can do. -/
theorem addRegisters_ok (rs : List Register) (b : Bank) (hb : b.finalized = false) (c : Bank) :
    addRegisters b rs = .ok c ↔
      (∀ g ∈ rs, RegisterOk g) ∧ rs.Pairwise RegistersApart ∧
      (∀ h ∈ b.registers, ∀ g ∈ rs, RegistersApart h g) ∧
      c = { b with registers := b.registers ++ rs } := by
  induction rs generalizing b with
  | nil => simp [addRegisters, eq_comm]
  | cons g rest ih =>
    simp only [addRegisters, except_bind_ok, addRegister_ok b hb]
    constructor
    · rintro ⟨b', ⟨h1, h2, rfl⟩, h3⟩
      rw [ih { b with registers := b.registers ++ [g] } hb] at h3
      obtain ⟨h4, h5, h6, rfl⟩ := h3
      simp only [List.forall_mem_cons, List.pairwise_cons, List.append_assoc, List.singleton_append, and_true]
      exact ⟨⟨h1, h4⟩, ⟨h6 g (by simp), h5⟩, fun h hh => ⟨h2 h hh, fun x hx => h6 h (by simp [hh]) x hx⟩⟩
    · simp only [List.forall_mem_cons, List.pairwise_cons]
      rintro ⟨⟨h1, h2⟩, ⟨h3, h4⟩, h5, rfl⟩
      refine ⟨_, ⟨h1, fun x hx => (h5 x hx).1, rfl⟩, ?_⟩
      rw [ih { b with registers := b.registers ++ [g] } hb]
      refine ⟨h2, h4, ?_, by simp⟩
      intro x hx y hy
      simp at hx
      rcases hx with hx | rfl
      · exact (h5 x hx).2 y hy
      · exact h3 y hy

/-- What building one resource can do (70_reset_and_hazards R295). -/
theorem buildResource_ok (r r' : Region) : buildResource r = .ok r' ↔
      resourceOk r = true ∧ r' = finalizedRegion r := by
  unfold buildResource resourceOk finalizedRegion
  cases hr : r.resource with
  | mem m =>
    simp only [except_map_ok, loadImage]
    split
    · simp; omega
    · rename_i h; simp only [Except.ok.injEq, exists_eq_left']
      have : ({ r with resource := .mem m } : Region) = r := by cases r; simp_all
      rw [this, decide_eq_true_eq]
      exact ⟨fun e => ⟨by omega, e.symm⟩, fun e => e.2.symm⟩
  | bank b =>
    simp only [except_map_ok, except_bind_ok]
    constructor
    · rintro ⟨b', ⟨b1, h1, h2⟩, rfl⟩
      rw [addRegisters_ok _ _ rfl] at h1
      obtain ⟨a1, a2, a3, rfl⟩ := h1
      unfold finalizeBank at h2
      split at h2
      · simp at h2
      · simp at h2; subst h2; exact ⟨decide_eq_true ⟨a1, a2⟩, by simp⟩
    · rintro ⟨h1, rfl⟩
      have h1 := of_decide_eq_true h1
      refine ⟨_, ⟨_, (addRegisters_ok _ _ rfl _).2 ⟨h1.1, h1.2, by simp, rfl⟩, ?_⟩, rfl⟩
      unfold finalizeBank
      split
      · rename_i g hg
        have := List.find?_some hg; have h2 := List.mem_of_find?_eq_some hg
        simp at h2; have := (h1.1 g h2).2.1; simp_all
      · simp

/-- What building every resource can do. -/
theorem buildResources_ok (rs rs' : List Region) : buildResources rs = .ok rs' ↔
      (∀ r ∈ rs, resourceOk r = true) ∧ rs' = rs.map finalizedRegion := by
  induction rs generalizing rs' with
  | nil => simp only [buildResources, Except.ok.injEq, List.not_mem_nil, false_imp_iff, implies_true, true_and, List.map_nil]; exact eq_comm
  | cons r rest ih =>
    simp only [buildResources, except_bind_ok, except_map_ok, buildResource_ok, ih, List.forall_mem_cons, List.map_cons]
    constructor
    · rintro ⟨_, ⟨h1, rfl⟩, _, ⟨h2, rfl⟩, rfl⟩; exact ⟨⟨h1, h2⟩, rfl⟩
    · rintro ⟨⟨h1, h2⟩, rfl⟩; exact ⟨_, ⟨h1, rfl⟩, _, ⟨h2, rfl⟩, rfl⟩

/-- Two regions of a list that both stand (60_exceptions R254, R261). -/
abbrev RegionsApart (c : Cfg) (q r : Region) : Prop := BytesApart q r ∧ BlocksApart c q r ∧ ¬ (q.mainRam = true ∧ r.mainRam = true)

/-- What ADD_REGION can do (40_decoder R117). -/
theorem addRegion_ok (c c' : Cfg) (r : Region) : addRegion c r = .ok c' ↔
      (r.base.toNat + r.size.toNat ≤ 2 ^ 16 ∧ MainRamOk c r) ∧ (∀ q ∈ c.regions, RegionsApart c q r) ∧
      c' = { c with regions := c.regions ++ [r] } := by
  unfold addRegion
  split
  · simp; omega
  split
  · rename_i h1 h2
    rcases h2 with h2 | ⟨h2, q, hq, h3⟩
    · simp; intro _ h; exact absurd h h2
    · simp only [reduceCtorEq, false_iff]; rintro ⟨_, h, _⟩; exact (h q hq).2.2 ⟨h3, h2⟩
  split
  · rename_i h1 h2 q hq
    have := List.find?_some hq; have h3 := List.mem_of_find?_eq_some hq
    simp only [Bool.not_eq_true', decide_eq_false_iff_not] at this
    simp only [reduceCtorEq, false_iff, not_and]
    intro _ h; exact absurd ⟨(h q h3).1, (h q h3).2.1⟩ this
  · rename_i h1 h2 _ hq
    rw [List.find?_eq_none] at hq
    simp only [not_or, not_not] at h2
    constructor
    · intro he
      obtain rfl := (Except.ok.inj he).symm
      refine ⟨⟨by omega, h2.1⟩, fun q hqq => ?_, rfl⟩
      have := hq q hqq
      simp only [Bool.not_eq_true', decide_eq_false_iff_not, not_not] at this
      exact ⟨this.1, this.2, fun e => h2.2 ⟨e.2, q, hqq, e.1⟩⟩
    · rintro ⟨_, _, rfl⟩; rfl

/-- What ADD_REGION of a list of regions can do. -/
theorem addRegions_ok (rs : List Region) (c c' : Cfg) : addRegions c rs = .ok c' ↔
      (∀ r ∈ rs, r.base.toNat + r.size.toNat ≤ 2 ^ 16 ∧ MainRamOk c r) ∧ rs.Pairwise (RegionsApart c) ∧
      (∀ q ∈ c.regions, ∀ r ∈ rs, RegionsApart c q r) ∧ c' = { c with regions := c.regions ++ rs } := by
  induction rs generalizing c with
  | nil => simp only [addRegions, Except.ok.injEq, List.not_mem_nil, false_imp_iff, implies_true, true_and, List.append_nil, List.Pairwise.nil]; exact eq_comm
  | cons g rest ih =>
    simp only [addRegions, except_bind_ok, addRegion_ok]
    constructor
    · rintro ⟨b', ⟨h1, h2, rfl⟩, h3⟩
      rw [ih] at h3
      obtain ⟨h4, h5, h6, rfl⟩ := h3
      simp only [List.forall_mem_cons, List.pairwise_cons, List.append_assoc, List.singleton_append, and_true]
      exact ⟨⟨h1, h4⟩, ⟨h6 g (by simp), h5⟩, fun h hh => ⟨h2 h hh, fun x hx => h6 h (by simp [hh]) x hx⟩⟩
    · simp only [List.forall_mem_cons, List.pairwise_cons]
      rintro ⟨⟨h1, h2⟩, ⟨h3, h4⟩, h5, rfl⟩
      refine ⟨_, ⟨h1, fun x hx => (h5 x hx).1, rfl⟩, ?_⟩
      rw [ih]
      refine ⟨h2, h4, ?_, by simp⟩
      intro x hx y hy
      simp at hx
      rcases hx with hx | rfl
      · exact (h5 x hx).2 y hy
      · exact h3 y hy

@[simp] theorem finalizedRegion_base (r) : (finalizedRegion r).base = r.base := by unfold finalizedRegion; split <;> rfl
@[simp] theorem finalizedRegion_size (r) : (finalizedRegion r).size = r.size := by unfold finalizedRegion; split <;> rfl
@[simp] theorem finalizedRegion_mainRam (r) : (finalizedRegion r).mainRam = r.mainRam := by unfold finalizedRegion; split <;> rfl
@[simp] theorem isMem_finalizedRegion (r) : isMem (finalizedRegion r) = isMem r := by unfold finalizedRegion; cases h : r.resource <;> simp [isMem, h]

/-- FINALIZE changes no register of a bank. -/
theorem bankAt_finalizedCfg (c : Cfg) (k : Nat) : bankAt (finalizedCfg c) k = (bankAt c k).map fun b => { b with finalized := true } := by
  unfold bankAt finalizedCfg
  simp only [List.getElem?_map]
  cases h : c.regions[k]? with
  | none => rfl
  | some r => obtain ⟨n,b,s,m,res⟩ := r; cases res <;> rfl


/-- FINALIZE changes no region's place or block range. -/
theorem decodeAddr_finalizedCfg (c : Cfg) (a : Addr) : decodeAddr (finalizedCfg c) a = (decodeAddr c a).map (Prod.map finalizedRegion id) := by
  unfold decodeAddr
  have : (finalizedCfg c).regions.zipIdx = c.regions.zipIdx.map (Prod.map finalizedRegion id) := by
    simp [finalizedCfg, List.zipIdx_map]
  rw [this, List.find?_map]
  have e : ((fun p : Region × Nat => hits (finalizedCfg c) a p.1) ∘ (Prod.map finalizedRegion id)) = fun p => hits c a p.1 := by
    funext p; simp [hits, blockLo, blockHi, blockOf, blockBits]; rfl
  rw [e]

/-- FINALIZE does not move the control register. -/
theorem controlRegister_finalizedCfg (c : Cfg) (a : Addr) : controlRegister (finalizedCfg c) a = controlRegister c a := by
  have e1 : ∀ b : Bank, registerAt { b with finalized := true } a = registerAt b a := fun b => rfl
  have e2 : ((finalizedCfg c).regions.zipIdx.findSome? fun p =>
      (bankAt (finalizedCfg c) p.2).bind fun b => (registerAt b a).map fun g => (p.2, g)) =
      (c.regions.zipIdx.findSome? fun p =>
      (bankAt c p.2).bind fun b => (registerAt b a).map fun g => (p.2, g)) := by
    have : (finalizedCfg c).regions.zipIdx = c.regions.zipIdx.map (Prod.map finalizedRegion id) := by
      simp [finalizedCfg, List.zipIdx_map]
    rw [this, List.findSome?_map]
    congr 1
    funext p
    simp only [Function.comp, Prod.map, id, bankAt_finalizedCfg, Option.bind_map]
    rfl
  simp only [controlRegister, e2]
  have e3 : resolve (finalizedCfg c) a = match resolve c a with
    | .unmapped => .unmapped
    | .mem r m => .mem r m
    | .bank k b => .bank k { b with finalized := true } := by
    unfold resolve
    rw [decodeAddr_finalizedCfg]
    cases h : decodeAddr c a with
    | none => rfl
    | some p =>
      obtain ⟨⟨n,b,s,m,res⟩,k⟩ := p
      cases res <;> rfl
  rw [e3]
  cases resolve c a <;> rfl

/-- FINALIZE does not change the binding of the toggle table. -/
theorem togKeys_finalizedCfg (c : Cfg) : togKeys (finalizedCfg c) = togKeys c := by
  unfold togKeys
  simp only [controlRegister_finalizedCfg]
  rfl

end Sys2Proof.Machine
end

