-- ==== Sys2Proof/Laws/Decode.lean ====
section
/-! SUPPORT. The request word and its wires: packing and unpacking agree (30_encoding R83). -/

namespace Sys2Proof

/-- Every bit of the request word (30_encoding R83). -/
theorem Request.word_getLsbD (q : Request) (i : Nat) :
    q.word.getLsbD i =
      if i < 16 then q.iAdr.getLsbD i
      else if i < 24 then q.dDatW.getLsbD (i - 16)
      else if i < 40 then q.dAdr.getLsbD (i - 24)
      else if i = 40 then q.iReq
      else if i = 41 then q.dWe
      else if i = 42 then q.dReq
      else false := by
  change @BitVec.getLsbD (1 + 1 + 1 + 16 + 8 + 16) _ i = _
  unfold Request.word
  simp only [BitVec.getLsbD_append]
  by_cases h1 : i < 16
  · simp [h1]
  by_cases h2 : i < 24
  · have : i - 16 < 8 := by omega
    simp [h1, h2, this]
  by_cases h3 : i < 40
  · have a : ¬ i - 16 < 8 := by omega
    have b : i - 24 < 16 := by omega
    have c : i - 16 - 8 = i - 24 := by omega
    simp only [h1, h2, h3, a, if_false, if_true, c, b]
  have a : ¬ i - 16 < 8 := by omega
  have b : ¬ i - 16 - 8 < 16 := by omega
  simp only [h1, h2, h3, a, b, if_false]
  by_cases h4 : i = 40
  · subst h4; simp
  by_cases h5 : i = 41
  · subst h5; simp
  by_cases h6 : i = 42
  · subst h6; simp
  have c : ¬ i - 16 - 8 - 16 < 1 := by omega
  have d : ¬ i - 16 - 8 - 16 - 1 < 1 := by omega
  simp only [h4, h5, h6, c, d, if_false]
  apply BitVec.getLsbD_of_ge
  omega

/-- Unpacking a packed request gives it back. -/
theorem Request.ofWord_word (q : Request) : Request.ofWord q.word = q := by
  obtain ⟨a, b, c, d, e, f⟩ := q
  simp only [Request.ofWord, Request.mk.injEq]
  refine ⟨?_, ?_, ?_, ?_, ?_, ?_⟩
  · rw [Request.word_getLsbD]; rfl
  · rw [Request.word_getLsbD]; rfl
  · rw [Request.word_getLsbD]; rfl
  · apply BitVec.eq_of_getLsbD_eq
    intro i hi
    rw [BitVec.getLsbD_extractLsb', Request.word_getLsbD]
    have h1 : ¬ 24 + i < 16 := by omega
    have h3 : 24 + i < 40 := by omega
    simp [hi, h1, h3]
  · apply BitVec.eq_of_getLsbD_eq
    intro i hi
    rw [BitVec.getLsbD_extractLsb', Request.word_getLsbD]
    have h2 : 16 + i < 24 := by omega
    simp [hi, h2]
  · apply BitVec.eq_of_getLsbD_eq
    intro i hi
    rw [BitVec.getLsbD_extractLsb', Request.word_getLsbD]
    simp [hi]

/-- The wires read back from the request word as a number. -/
@[simp] theorem Request.ofWord_toNat (q : Request) : Request.ofWord (BitVec.ofNat 43 q.word.toNat) = q := by
  rw [BitVec.ofNat_toNat, BitVec.setWidth_eq, Request.ofWord_word]

/-- A request word has 43 bits. -/
theorem Request.word_lt (q : Request) : q.word.toNat < 2 ^ 43 := q.word.isLt

/-- The arbiter's decoder on a request's word answers its bus operation (30_encoding R84). -/
theorem decode_control_word (q : Request) : decode .control q.word.toNat = .ok (busOperation q) := by
  simp only [decode, if_pos q.word_lt, Request.ofWord_toNat]

end Sys2Proof
end

