-- ==== Sys2Proof/Laws/Memory.lean ====
section
/-! SUPPORT. The laws of memory: reads after writes, the canonical form, and what a region's byte is after a write or an
image. -/

namespace Sys2Proof.Machine

@[simp] theorem Memory.read_nil (a : Nat) : Memory.read [] a = unlisted := rfl

theorem Memory.read_of_lt (m : Memory) (a : Nat) (h : ∀ p ∈ m, a < p.1) : m.read a = unlisted := by
  induction m with
  | nil => rfl
  | cons p rest ih =>
    obtain ⟨k, v⟩ := p
    have hk : a < k := h (k, v) (by simp)
    have : a ≠ k := by omega
    simp only [Memory.read, if_neg this]
    exact ih fun p hp => h p (by simp [hp])

theorem Memory.wf_tail {p : Host.Cell} {m : Memory} (h : Memory.wf (p :: m)) : Memory.wf m := by
  obtain ⟨h1, h2⟩ := h
  simp only [List.map_cons, List.pairwise_cons] at h1
  exact ⟨h1.2, fun c hc => h2 c (by simp [hc])⟩

theorem Memory.wf_head_lt {p : Host.Cell} {m : Memory} (h : Memory.wf (p :: m)) : ∀ q ∈ m, p.1 < q.1 := by
  obtain ⟨h1, -⟩ := h
  simp only [List.map_cons, List.pairwise_cons, List.mem_map] at h1
  exact fun q hq => h1.1 q.1 ⟨q, hq, rfl⟩

/-- A write does not change what another address reads as. -/
theorem Memory.read_write_other (m : Memory) (a b : Nat) (v : Byte) (hab : b ≠ a) : (m.write a v).read b = m.read b := by
  induction m with
  | nil => by_cases hv : v = unlisted <;> simp [Memory.write, Memory.read, hv, hab]
  | cons p rest ih =>
    obtain ⟨k, w⟩ := p
    simp only [Memory.write]
    split
    · split <;> simp [Memory.read, hab]
    · split
      · rename_i hk
        subst hk
        split <;> simp [Memory.read, hab]
      · simp [Memory.read, ih]

/-- A write is read back, on memory in canonical form. -/
theorem Memory.read_write_same (m : Memory) (h : m.wf) (a : Nat) (v : Byte) : (m.write a v).read a = v := by
  induction m with
  | nil => by_cases hv : v = unlisted <;> simp [Memory.write, Memory.read, hv]
  | cons p rest ih =>
    obtain ⟨k, w⟩ := p
    have hlt := Memory.wf_head_lt h
    have ih := ih (Memory.wf_tail h)
    simp only [Memory.write]
    split
    · rename_i hak
      split
      · rename_i hv
        rw [hv]
        refine Memory.read_of_lt _ _ fun p hp => ?_
        rcases List.mem_cons.1 hp with rfl | hp
        · exact hak
        · exact lt_trans hak (hlt p hp)
      · simp [Memory.read]
    · split
      · rename_i hk
        subst hk
        split
        · rename_i hv
          rw [hv]
          exact Memory.read_of_lt _ _ fun p hp => hlt p hp
        · simp [Memory.read]
      · rename_i hk
        simp [Memory.read, hk, ih]

/-- What a read gives after a write, on memory in canonical form. -/
theorem Memory.read_write (m : Memory) (h : m.wf) (a b : Nat) (v : Byte) :
    (m.write a v).read b = if b = a then v else m.read b := by
  split
  · rename_i hb
    rw [hb, Memory.read_write_same m h]
  · rename_i hb
    exact Memory.read_write_other m a b v hb

/-- The cells after a write are the old ones and the written one. -/
theorem Memory.mem_write (m : Memory) (a : Nat) (v : Byte) (p : Host.Cell) (hp : p ∈ m.write a v) :
    p ∈ m ∨ (p = (a, v) ∧ v ≠ unlisted) := by
  induction m with
  | nil =>
    simp only [Memory.write] at hp
    split at hp <;> simp_all
  | cons q rest ih =>
    obtain ⟨k, w⟩ := q
    simp only [Memory.write] at hp
    split at hp
    · split at hp <;> simp_all
      tauto
    · split at hp
      · split at hp <;> simp_all
        tauto
      · simp only [List.mem_cons] at hp ⊢
        rcases hp with hp | hp
        · exact .inl (.inl hp)
        · rcases ih hp with h | h
          · exact .inl (.inr h)
          · exact .inr h

/-- A write keeps the canonical form. -/
theorem Memory.write_wf (m : Memory) (h : m.wf) (a : Nat) (v : Byte) : (m.write a v).wf := by
  induction m with
  | nil =>
    simp only [Memory.write]
    split <;> simp_all [Memory.wf]
  | cons q rest ih =>
    obtain ⟨k, w⟩ := q
    have hlt := Memory.wf_head_lt h
    have htail := Memory.wf_tail h
    have ih := ih htail
    have hw : w ≠ unlisted := h.2 (k, w) (by simp)
    simp only [Memory.write]
    split
    · rename_i hak
      split
      · exact h
      · rename_i hv
        refine ⟨?_, ?_⟩
        · have h1 := h.1
          simp only [List.map_cons, List.pairwise_cons, List.mem_cons, List.mem_map] at h1 ⊢
          refine ⟨?_, h1⟩
          rintro b (rfl | ⟨p, hp, rfl⟩)
          · exact hak
          · exact lt_trans hak (hlt p hp)
        · intro c hc
          rcases List.mem_cons.1 hc with rfl | hc
          · exact hv
          · exact h.2 c hc
    · split
      · rename_i hk
        split
        · exact htail
        · rename_i hv
          refine ⟨?_, ?_⟩
          · have h1 := h.1
            simp only [List.map_cons] at h1 ⊢
            rw [hk]
            exact h1
          · intro c hc
            rcases List.mem_cons.1 hc with rfl | hc
            · exact hv
            · exact htail.2 c hc
      · rename_i h1 h2
        refine ⟨?_, ?_⟩
        · simp only [List.map_cons, List.pairwise_cons, List.mem_map]
          refine ⟨?_, ih.1⟩
          rintro b ⟨p, hp, rfl⟩
          rcases Memory.mem_write rest a v p hp with hp | ⟨rfl, -⟩
          · exact hlt p hp
          · show k < a
            omega
        · intro c hc
          rcases List.mem_cons.1 hc with rfl | hc
          · exact hw
          · exact ih.2 c hc

/-- Loading bytes keeps the canonical form. -/
theorem Memory.load_wf (bytes : List Byte) (m : Memory) (h : m.wf) (a : Nat) : (m.load a bytes).wf := by
  induction bytes generalizing m a with
  | nil => exact h
  | cons b rest ih => exact ih _ (Memory.write_wf m h a b) _

/-- What an address reads as after bytes are loaded from `a` upwards. -/
theorem Memory.read_load (bytes : List Byte) (m : Memory) (h : m.wf) (a x : Nat) :
    (m.load a bytes).read x = if a ≤ x ∧ x < a + bytes.length then bytes.getD (x - a) 0 else m.read x := by
  induction bytes generalizing m a with
  | nil =>
    simp [Memory.load]
  | cons b rest ih =>
    rw [Memory.load, ih _ (Memory.write_wf m h a b), Memory.read_write m h]
    simp only [List.length_cons]
    by_cases hx : x = a
    · subst hx
      simp
    · by_cases h2 : a + 1 ≤ x ∧ x < a + 1 + rest.length
      · have h3 : a ≤ x ∧ x < a + (rest.length + 1) := by omega
        have h4 : x - a = (x - (a + 1)) + 1 := by omega
        rw [if_pos h2, if_pos h3, h4]
        rfl
      · have h3 : ¬ (a ≤ x ∧ x < a + (rest.length + 1)) := by omega
        rw [if_neg h2, if_neg h3, if_neg hx]

/-- The byte write of a region keeps the canonical form. -/
theorem writeByte_wf (m : Memory) (h : m.wf) (r : Region) (o : MemOptions) (l : Addr) (v : Byte) :
    (writeByte m r o l v).wf := by
  unfold writeByte
  split
  · exact Memory.write_wf m h _ _
  · exact h

/-- The byte write of a region: what every address reads as afterwards. -/
theorem read_writeByte (m : Memory) (h : m.wf) (r : Region) (o : MemOptions) (l : Addr) (v : Byte) (x : Nat) :
    (writeByte m r o l v).read x =
      if (o.writable = true ∧ l.toNat < r.size.toNat) ∧ x = cellAddr r l then v else m.read x := by
  unfold writeByte
  split
  · rename_i hw
    simp only [Bool.and_eq_true, decide_eq_true_eq] at hw
    simp [Memory.read_write m h, hw]
  · rename_i hw
    simp only [Bool.and_eq_true, decide_eq_true_eq] at hw
    rw [if_neg (fun h => hw h.1)]

end Sys2Proof.Machine
end

