-- ==== Sys2Proof/Laws/Ops.lean ====
section
/-! SUPPORT. What each shared operation can do, said once: DECODE, the toggle table, the tick, the micro-operations and
the step. -/

namespace Sys2Proof.Machine

/-! DECODE -/

/-- What DECODE's answer is (40_decoder R112). -/
theorem decodeAddr_eq_some (c : Cfg) (a : Addr) (r : Region) (k : Nat) (h : decodeAddr c a = some (r, k)) :
    c.regions[k]? = some r ∧ hits c a r = true := by
  unfold decodeAddr at h
  exact ⟨List.mem_zipIdx_iff_getElem?.1 (List.mem_of_find?_eq_some h), by simpa using List.find?_some h⟩

/-- Where DECODE answers `None`, no region's block range contains the address (40_decoder R112). -/
theorem decodeAddr_eq_none (c : Cfg) (a : Addr) (h : decodeAddr c a = none) (r : Region) (hr : r ∈ c.regions) :
    hits c a r = false := by
  unfold decodeAddr at h
  obtain ⟨k, hk⟩ := List.mem_iff_getElem?.1 hr
  have := (List.find?_eq_none.1 h) (r, k) (List.mem_zipIdx_iff_getElem?.2 hk)
  simpa using this

theorem hits_iff (c : Cfg) (a : Addr) (r : Region) :
    hits c a r = true ↔ blockLo c r ≤ blockOf c a ∧ blockOf c a < blockHi c r := by
  simp [hits]

theorem resolve_eq_unmapped (c : Cfg) (a : Addr) : resolve c a = .unmapped ↔ decodeAddr c a = none := by
  unfold resolve
  cases h : decodeAddr c a with
  | none => simp
  | some p =>
    obtain ⟨r, k⟩ := p
    cases hr : r.resource <;> simp [hr]

theorem resolve_eq_mem (c : Cfg) (a : Addr) (r : Region) (o : MemOptions) :
    resolve c a = .mem r o ↔ ∃ k, decodeAddr c a = some (r, k) ∧ r.resource = .mem o := by
  unfold resolve
  cases h : decodeAddr c a with
  | none => simp
  | some p =>
    obtain ⟨q, k⟩ := p
    cases hr : q.resource with
    | mem m =>
      simp only [hr, Hit.mem.injEq, Option.some.injEq, Prod.mk.injEq]
      constructor
      · rintro ⟨rfl, rfl⟩
        exact ⟨k, ⟨rfl, rfl⟩, hr⟩
      · rintro ⟨k', ⟨rfl, -⟩, h2⟩
        rw [hr] at h2
        exact ⟨rfl, by simpa using h2⟩
    | bank b =>
      simp only [hr, reduceCtorEq, Option.some.injEq, Prod.mk.injEq, false_iff]
      rintro ⟨k', ⟨rfl, -⟩, h2⟩
      rw [hr] at h2
      exact absurd h2 (by simp)

theorem resolve_eq_bank (c : Cfg) (a : Addr) (k : Nat) (b : Bank) :
    resolve c a = .bank k b ↔ ∃ r, decodeAddr c a = some (r, k) ∧ r.resource = .bank b := by
  unfold resolve
  cases h : decodeAddr c a with
  | none => simp
  | some p =>
    obtain ⟨q, i⟩ := p
    cases hr : q.resource with
    | mem m =>
      simp only [hr, reduceCtorEq, Option.some.injEq, Prod.mk.injEq, false_iff]
      rintro ⟨k', ⟨rfl, -⟩, h2⟩
      rw [hr] at h2
      exact absurd h2 (by simp)
    | bank b' =>
      simp only [hr, Hit.bank.injEq, Option.some.injEq, Prod.mk.injEq]
      constructor
      · rintro ⟨rfl, rfl⟩
        exact ⟨q, ⟨rfl, rfl⟩, hr⟩
      · rintro ⟨k', ⟨rfl, rfl⟩, h2⟩
        rw [hr] at h2
        exact ⟨rfl, by simpa using h2⟩

theorem strobed_eq_true (c : Cfg) (a : Addr) (k : FieldKey) :
    strobed c a k = true ↔ ∃ b, resolve c a = .bank k.bank b ∧ k.addr = a := by
  unfold strobed
  cases h : resolve c a with
  | unmapped => simp
  | mem r o => simp
  | bank n b =>
    simp only [Bool.and_eq_true, decide_eq_true_eq, Hit.bank.injEq]
    constructor
    · rintro ⟨rfl, h2⟩
      exact ⟨b, ⟨rfl, rfl⟩, h2⟩
    · rintro ⟨b', ⟨h1, -⟩, h2⟩
      exact ⟨h1.symm, h2⟩

/-! Toggle table -/

/-- INDEX_OF answers one of the seven indices (44_toggle_table R211). -/
theorem indexOf_lt (e : BitVec 4) (d : Bool) (i : Nat) (h : indexOf e d = some i) : i < 7 := by
  have all : ∀ e d, (indexOf e d).all (fun i => decide (i < 7)) = true := by decide
  have := all e d
  rw [h] at this
  simpa using this

/-- Every bit of the table after a toggle operation (44_toggle_table R222). -/
theorem getLsbD_togAct (set reset : Bool) (sel : Option Nat) (t : BitVec 7) (j : Nat) (hj : j < 7) :
    (togAct set reset sel t).getLsbD j =
      if sel = some j ∧ set = true then true
      else if sel = some j ∧ reset = true then false
      else t.getLsbD j := by
  unfold togAct
  cases sel with
  | none => simp
  | some i =>
    have hbit : (1#7 <<< i).getLsbD j = decide (i = j) := by
      rw [BitVec.getLsbD_shiftLeft]
      by_cases h : j < i
      · have : i ≠ j := by omega
        simp [h, this]
      · by_cases h2 : i = j
        · subst h2
          simp [hj]
        · have : j - i ≠ 0 := by omega
          simp [h2, this, BitVec.getLsbD_one]
    cases set with
    | true => simp only [if_true, BitVec.getLsbD_or, hbit]; by_cases h : i = j <;> simp [h]
    | false =>
      cases reset with
      | true =>
        simp only [Bool.false_eq_true, if_false, if_true, BitVec.getLsbD_and, BitVec.getLsbD_not, hbit, and_false]
        by_cases h : i = j
        · simp [h]
        · simp [h, hj]
      | false => simp

/-! The tick -/

section
variable (s : State) (a : Addr) (wr : Option Byte) (d i : Bool)

@[simp] theorem tick_cfg : (tick s a wr d i).cfg = s.cfg := rfl
@[simp] theorem tick_mem : (tick s a wr d i).mem = nextMem s a wr := rfl
@[simp] theorem tick_flds : (tick s a wr d i).flds = nextFlds s a wr (hwNow s) := rfl
@[simp] theorem tick_tog : (tick s a wr d i).tog = nextTog s := rfl
@[simp] theorem tick_resp : (tick s a wr d i).resp = readValue s a := rfl
@[simp] theorem tick_ackD : (tick s a wr d i).ackD = d := rfl
@[simp] theorem tick_ackI : (tick s a wr d i).ackI = i := rfl
@[simp] theorem tick_inputs : (tick s a wr d i).inputs = s.inputs := rfl

end

@[simp] theorem nextMem_none (s : State) (a : Addr) : nextMem s a none = s.mem := rfl

theorem nextMem_mem (s : State) (a : Addr) (v : Byte) (r : Region) (o : MemOptions) (h : resolve s.cfg a = .mem r o) :
    nextMem s a (some v) = writeByte s.mem r o (localAddr r a) v := by
  simp [nextMem, h]

theorem nextMem_other (s : State) (a : Addr) (wr : Option Byte) (h : ∀ r o, resolve s.cfg a ≠ .mem r o) :
    nextMem s a wr = s.mem := by
  unfold nextMem
  split
  · rename_i hr
    exact absurd hr (h _ _)
  · rfl

theorem nextMem_wf (s : State) (h : s.mem.wf) (a : Addr) (wr : Option Byte) : (nextMem s a wr).wf := by
  unfold nextMem
  split
  · exact writeByte_wf _ h _ _ _ _
  · exact h

/-- The fields of a tick take the values of their policies. -/
theorem tick_fieldsAdvance (s : State) (a : Addr) (wr : Option Byte) (d i : Bool) :
    FieldsAdvance s (tick s a wr d i) (fun k => wr.isSome && strobed s.cfg a k) (wr.getD 0x00#8) := by
  refine ⟨keys_nextFlds s a wr (hwNow s), fun k f cur hf hm hl => ?_⟩
  rw [tick_flds, lookup_nextFlds, hl]
  simp only [Option.map_some, nextAt, hf, nextField, hm, Bool.false_eq_true, if_false, fieldIn]
  cases f.access <;> simp only [policyReadWrite, policyReadOnly, policyPulse, policyClearOnWrite] <;>
    cases hwFor (hwNow s) k <;> rfl

/-- `FieldsAdvance` depends on the strobes only. -/
theorem FieldsAdvance.congr {s t : State} {p q : FieldKey → Bool} {v w : Byte} (h : FieldsAdvance s t p v)
    (hp : p = q) (hv : (∃ k, p k = true) → v = w) : FieldsAdvance s t q w := by
  subst hp
  refine ⟨h.1, fun k f cur hf hm hl => ?_⟩
  rw [h.2 k f cur hf hm hl]
  by_cases hk : p k = true
  · rw [hv ⟨k, hk⟩]
  · simp [hk]

/-- The toggle table of a tick. -/
theorem tick_togglesAdvance (s : State) (a : Addr) (wr : Option Byte) (d i : Bool) :
    TogglesAdvance s (tick s a wr d i) := by
  intro j hj
  rw [tick_tog]
  unfold nextTog
  cases togKeys s.cfg with
  | none => rfl
  | some b => exact getLsbD_togAct _ _ _ _ j hj

/-- Acceptance where the master's own acknowledge does not gate it (41_arbiter R133). -/
theorem ungated_eq_true (s : State) (ack : Bool) : ungated s.cfg ack = true ↔ NotHeld s ack := by
  unfold ungated NotHeld
  cases ack <;> simp

theorem ungated_eq_false (s : State) (ack : Bool) :
    ungated s.cfg ack = false ↔ s.cfg.handshake = .classic ∧ ack = true := by
  unfold ungated
  cases ack <;> simp

/-! Micro-operations: each either makes its row's assignment, or assigns nothing where what the row acts on is not there (log 6) -/

theorem execMemRd8_cases (a : Addr) (s : State) :
    (∃ r o, resolve s.cfg a = .mem r o ∧ o.wide = false ∧
      execMemRd8 a s = .next (s.withResp (readNarrow s.mem r (localAddr r a)))) ∨
    ((¬ ∃ r o, resolve s.cfg a = .mem r o ∧ o.wide = false) ∧ execMemRd8 a s = .next s) := by
  unfold execMemRd8
  cases h : resolve s.cfg a with
  | unmapped => simp
  | bank k b => simp
  | mem r o => cases hw : o.wide <;> simp [hw]

theorem execMemRd32_cases (a : Addr) (s : State) :
    (∃ r o, resolve s.cfg a = .mem r o ∧ o.wide = true ∧
      execMemRd32 a s = .next (s.withResp (readWide s.mem r (localAddr r a)))) ∨
    ((¬ ∃ r o, resolve s.cfg a = .mem r o ∧ o.wide = true) ∧ execMemRd32 a s = .next s) := by
  unfold execMemRd32
  cases h : resolve s.cfg a with
  | unmapped => simp
  | bank k b => simp
  | mem r o => cases hw : o.wide <;> simp [hw]

theorem execUnmappedRd_cases (a : Addr) (s : State) :
    (resolve s.cfg a = .unmapped ∧ execUnmappedRd a s = .next (s.withResp 0#32)) ∨
    (resolve s.cfg a ≠ .unmapped ∧ execUnmappedRd a s = .next s) := by
  unfold execUnmappedRd
  cases h : resolve s.cfg a <;> simp

theorem execMemWr8_cases (a : Addr) (v : Byte) (s : State) :
    (∃ r o, resolve s.cfg a = .mem r o ∧
      execMemWr8 a v s = .next (s.withMem (writeByte s.mem r o (localAddr r a) v))) ∨
    ((¬ ∃ r o, resolve s.cfg a = .mem r o) ∧ execMemWr8 a v s = .next s) := by
  unfold execMemWr8
  cases h : resolve s.cfg a <;> simp

theorem execRegRd_cases (a : Addr) (s : State) :
    (∃ k b, resolve s.cfg a = .bank k b ∧ execRegRd a s = .next (s.withResp (bankValue s k b a))) ∨
    ((¬ ∃ k b, resolve s.cfg a = .bank k b) ∧ execRegRd a s = .next s) := by
  unfold execRegRd
  cases h : resolve s.cfg a <;> simp

theorem execRegWr_cases (a : Addr) (v : Byte) (s : State) :
    (∃ k b, resolve s.cfg a = .bank k b ∧ execRegWr a v s = .next (s.withFlds (strobeFlds s a v))) ∨
    ((¬ ∃ k b, resolve s.cfg a = .bank k b) ∧ execRegWr a v s = .next s) := by
  unfold execRegWr
  cases h : resolve s.cfg a <;> simp

/-- What a field micro-operation can do. -/
theorem onField_cases (acc : Access) (next : Field → Byte → Byte) (k : FieldKey) (s : State) :
    (∃ f, fieldAt s.cfg k = some f ∧ f.access = acc ∧ f.mirror = false ∧
      onField acc next k s = .next (s.withFlds (setField s.flds k (next f (fieldVal s k))))) ∨
    ((¬ ∃ f, fieldAt s.cfg k = some f ∧ f.access = acc ∧ f.mirror = false) ∧ onField acc next k s = .next s) := by
  unfold onField
  cases h : fieldAt s.cfg k with
  | none => simp
  | some f => by_cases hc : f.access = acc ∧ f.mirror = false <;> simp [hc]

/-- What HWSET can do. -/
theorem execHwset_cases (k : FieldKey) (n : Nat) (v : Byte) (s : State) :
    (∃ f, fieldAt s.cfg k = some f ∧ hasChannel f = true ∧ f.size = n ∧
      execHwset k n v s = .next (s.withFlds (setField s.flds k (hwBits f v)))) ∨
    ((¬ ∃ f, fieldAt s.cfg k = some f ∧ hasChannel f = true ∧ f.size = n) ∧ execHwset k n v s = .next s) := by
  unfold execHwset
  cases h : fieldAt s.cfg k with
  | none => simp
  | some f => by_cases hc : hasChannel f = true <;> by_cases hn : f.size = n <;> simp [hc, hn]

/-- What a toggle micro-operation can do. -/
theorem onToggle_cases (set reset dir : Bool) (ep : BitVec 4) (s : State) :
    ((togKeys s.cfg).isSome = true ∧
      onToggle set reset dir ep s = .next (s.withTog (togAct set reset (indexOf ep dir) s.tog))) ∨
    (togKeys s.cfg = none ∧ onToggle set reset dir ep s = .next s) := by
  unfold onToggle
  cases togKeys s.cfg <;> simp

/-! The step -/

theorem fetch_cons (s : State) (i : In) (rest : List In) (h : s.inputs = i :: rest) : fetch s = some i := by
  simp [fetch, h]

/-- The step of a state with inputs runs their bus operation and drops them. -/
theorem step_of_inputs (s : State) (i : In) (rest : List In) (h : s.inputs = i :: rest) :
    step s = retire (exec (busOperation i.req) s) := by
  unfold step
  rw [fetch_cons s i rest h]

/-! The invariant -/

/-- A field's stored value has at most the field's bits (10_state R26). -/
theorem Inv.fieldVal_lt {s : State} (hi : Inv s) (k : FieldKey) (f : Field) (h : fieldAt s.cfg k = some f) :
    (fieldVal s k).toNat < 2 ^ f.size := by
  unfold fieldVal
  cases hl : lookupField s.flds k with
  | none => simp
  | some v =>
    have := hi.fits _ (mem_of_lookupField _ _ _ hl)
    simpa [fieldFits, h] using this

end Sys2Proof.Machine
end

