-- ==== Sys2Proof/Laws/PerInstr.lean ====
section
/-! SUPPORT. The family of laws stated per operation: a well-formed operation's word fits the width of its format. -/

namespace Sys2Proof.Laws

/-- The width of a place's format (30_encoding R80, R83, R90, R94). -/
def formatWidth : View → Nat
  | .control => 43
  | .readPath _ => 43
  | .writePath _ => 43
  | .policy _ => 2
  | .hwChannel _ n => n + 1
  | .toggle => 8

/-- The encoder's word of a well-formed operation has no bit above its format's width. -/
def EncodingFits.Statement (i : Instr) : Prop := i.wf = true → (encode i).2 < 2 ^ formatWidth (encode i).1

theorem EncodingFits.idle (a : Addr) : EncodingFits.Statement (.idle a) := fun _ => Request.word_lt _

theorem EncodingFits.ifetch (a : Addr) : EncodingFits.Statement (.ifetch a) := fun _ => Request.word_lt _

theorem EncodingFits.dread (a : Addr) : EncodingFits.Statement (.dread a) := fun _ => Request.word_lt _

theorem EncodingFits.dwrite (a : Addr) (v : Byte) : EncodingFits.Statement (.dwrite a v) := fun _ => Request.word_lt _

theorem EncodingFits.memRd8 (a : Addr) : EncodingFits.Statement (.memRd8 a) := fun _ => Request.word_lt _

theorem EncodingFits.memRd32 (a : Addr) : EncodingFits.Statement (.memRd32 a) := fun _ => Request.word_lt _

theorem EncodingFits.regRd (a : Addr) : EncodingFits.Statement (.regRd a) := fun _ => Request.word_lt _

theorem EncodingFits.unmappedRd (a : Addr) : EncodingFits.Statement (.unmappedRd a) := fun _ => Request.word_lt _

theorem EncodingFits.memWr8 (a : Addr) (v : Byte) : EncodingFits.Statement (.memWr8 a v) := fun _ => Request.word_lt _

theorem EncodingFits.regWr (a : Addr) (v : Byte) : EncodingFits.Statement (.regWr a v) := fun _ => Request.word_lt _

theorem EncodingFits.unmappedWr (a : Addr) (v : Byte) : EncodingFits.Statement (.unmappedWr a v) := fun _ => Request.word_lt _

theorem EncodingFits.fldRw (c : FieldIn) : EncodingFits.Statement (.fldRw c) := fun _ => BitVec.isLt _

theorem EncodingFits.fldRo (c : FieldIn) : EncodingFits.Statement (.fldRo c) := fun _ => BitVec.isLt _

theorem EncodingFits.fldPulse (c : FieldIn) : EncodingFits.Statement (.fldPulse c) := fun _ => BitVec.isLt _

theorem EncodingFits.fldCow (c : FieldIn) : EncodingFits.Statement (.fldCow c) := fun _ => BitVec.isLt _

theorem EncodingFits.hwset (k : FieldKey) (n : Nat) (v : Byte) : EncodingFits.Statement (.hwset k n v) := fun h => by
  simp only [Instr.wf, Bool.and_eq_true, decide_eq_true_eq] at h
  change 2 ^ n + v.toNat < 2 ^ (n + 1)
  rw [pow_succ]
  omega

theorem EncodingFits.togSet (r : Bool) (d : Bool) (e : BitVec 4) : EncodingFits.Statement (.togSet r d e) := fun _ => BitVec.isLt _

theorem EncodingFits.togReset (d : Bool) (e : BitVec 4) : EncodingFits.Statement (.togReset d e) := fun _ => BitVec.isLt _

theorem EncodingFits.togHold (d : Bool) (e : BitVec 4) : EncodingFits.Statement (.togHold d e) := fun _ => BitVec.isLt _

end Sys2Proof.Laws
end

