-- ==== Sys2Proof/Tests/Slice0.lean ====
section
/-! SUPPORT. The model's own tests: the smoke of WellFormed and of the configuration checks, words written out from
30_encoding for every constructor, one-step tests whose expected values are those of 95_test_vectors, and for every
statement with hypotheses a state and operands that meet them. -/

namespace Sys2Proof.Tests

open Sys2Proof Sys2Proof.Machine

/-! Helpers -/

/-- A register of a byte with the given fields. -/
def reg (a : Addr) (n : String) (fs : List Field) : Register := { address := a, name := n, width := 8, fields := fs }

/-- A memory region without the main-RAM flag. -/
def memRegion (n : String) (base size : Addr) (wide writable : Bool) (image : List Byte) : Region :=
  { name := n, base := base, size := size, mainRam := false,
    resource := .mem { wide := wide, writable := writable, image := image } }

/-- `FLAGS` of TESTCFG (95_test_vectors section 0). -/
def flags : Register :=
  reg 0xE650#16 "FLAGS"
    [⟨"kick", 7, 1, .pulse, false, 0⟩, ⟨"ro", 4, 2, .readOnly, false, 2⟩, ⟨"evt", 0, 2, .clearOnWrite, false, 0⟩]

/-- Regions `scratch` and `rom` of TESTCFG. -/
def scratch : Region := memRegion "scratch" 0xE000#16 0x0200#16 false true []
def rom : Region := memRegion "rom" 0xE400#16 0x0080#16 false false [0xDE#8, 0xAD#8]

/-- TESTCFG (95_test_vectors section 0). -/
def testCfg : Cfg :=
  { refCfg [1#8, 2#8, 3#8, 4#8] with
    regions := [mainRegion [1#8, 2#8, 3#8, 4#8], csrRegion [csrE600, togctl, flags], scratch, rom] }

/-- The reset state of TESTCFG. -/
def s0 : State := initState testCfg

/-- A request word as a cycle's inputs, with hardware-set events. -/
def cyc (w : Nat) (hw : List HwEvent) : In := { req := .ofWord (BitVec.ofNat 43 w), hw := hw }

/-- `s` with cycles presented. -/
def feed (s : State) (l : List In) : State := s.withInputs l

/-- Whether an outcome is a next state with a property. -/
def after (o : Host.Outcome State Fault Refusal) (p : State → Bool) : Bool :=
  match o with
  | .next t => p t
  | _ => false

def keyVal : FieldKey := ⟨1, 0xE600#16, 0⟩
def keyKick : FieldKey := ⟨1, 0xE650#16, 7⟩
def keyRo : FieldKey := ⟨1, 0xE650#16, 4⟩
def keyEvt : FieldKey := ⟨1, 0xE650#16, 0⟩
def keyQ : FieldKey := ⟨1, 0xE683#16, 7⟩
def keySet : FieldKey := ⟨1, 0xE683#16, 6⟩

/-- `s0` with one field at a value. -/
def s0With (k : FieldKey) (v : Byte) : State := s0.withFlds (setField s0.flds k v)

theorem inv_feed (s : State) (h : Inv s) (l : List In) : Inv (feed s l) :=
  ⟨h.valid, h.finalized, h.memCanonical, h.memOwned, h.keys, h.fits, h.oneAck⟩

/-! WellFormed: each check refuses an ill-formed term (10_state R25, 30_encoding R80) -/

def badIn : FieldIn := { key := ⟨1, 0xE600#16, 8⟩, strobe := true, w := 0, hw := none }
def goodIn : FieldIn := { key := ⟨1, 0xE600#16, 7⟩, strobe := true, w := 0, hw := none }

theorem test_wf_field_offset :
    (Instr.fldRw badIn).wf = false ∧ (Instr.fldRo badIn).wf = false ∧ (Instr.fldPulse badIn).wf = false ∧
      (Instr.fldCow badIn).wf = false ∧ (Instr.fldRw goodIn).wf = true := by decide

theorem test_wf_hwset :
    (Instr.hwset ⟨1, 0xE600#16, 8⟩ 1 0).wf = false ∧ (Instr.hwset keyVal 0 0).wf = false ∧
      (Instr.hwset keyVal 9 0).wf = false ∧ (Instr.hwset keyKick 2 0).wf = false ∧
      (Instr.hwset keyRo 2 4#8).wf = false ∧ (Instr.hwset keyRo 2 3#8).wf = true ∧
      (Instr.hwset keyVal 8 0xFF#8).wf = true := by decide

/-! Configuration checks (95_test_vectors V-REG-5, V-CFG-1, V-MEM-7) -/

/-- Bank `csr` of REFCFG before FINALIZE. -/
def openCsr : Bank := { registers := [csrE600, togctl], finalized := false }

theorem test_add_register_names :
    addRegister openCsr 0xE600#16 (reg 0xE600#16 "X" []) = .error (.ce1DuplicateAddress 0xE600#16) ∧
      addRegister openCsr 0xE684#16 (reg 0xE684#16 "TOGCTL" []) = .error (.ce2DuplicateName "TOGCTL") ∧
      addRegister openCsr 0xE684#16 (reg 0xE684#16 "" []) = .error .ce3EmptyName ∧
      addRegister openCsr 0xE600#16 (reg 0xE600#16 "" []) = .error .ce3EmptyName ∧
      (addRegister openCsr 0xE684#16 (reg 0xE684#16 "X" [])).isOk = true := by decide

/-- ADD at a free address of a register with these fields, and the error it raises. -/
def addError (fs : List Field) : Option ConfigError :=
  match addRegister openCsr 0xE684#16 (reg 0xE684#16 "X" fs) with
  | .ok _ => none
  | .error e => some e

theorem test_add_register_fields :
    addError [⟨"a", 6, 3, .readWrite, false, 0⟩] = some (.ce5FieldRange "X" "a") ∧
      addError [⟨"a", 0, 0, .readWrite, false, 0⟩] = some (.ce5FieldRange "X" "a") ∧
      addError [⟨"a", 0, 4, .readWrite, false, 0⟩, ⟨"b", 3, 2, .readWrite, false, 0⟩] =
        some (.ce6FieldOverlap "X" "a" "b") ∧
      addError [⟨"a", 0, 4, .readWrite, false, 0⟩, ⟨"b", 4, 4, .readWrite, false, 0⟩] = none ∧
      addError [⟨"a", 0, 1, .readWrite, true, 0⟩] = some (.ce12FieldPolicy "X" "a") ∧
      addError [⟨"a", 0, 2, .readWrite, false, 4⟩] = some (.ce13ResetValue "X" "a") := by decide

theorem test_add_register_order :
    addRegister openCsr 0xE684#16 { reg 0xE684#16 "X" [] with width := 16 } = .error (.ce7MultiWord "X") ∧
      addRegister { openCsr with finalized := true } 0xE684#16 (reg 0xE684#16 "X" []) = .error .ce14Order := by decide

theorem test_get_register :
    getRegister openCsr (.byAddress 0xE683#16) = .ok togctl ∧ getRegister openCsr (.byName "TOGCTL") = .ok togctl ∧
      getRegister openCsr (.byAddress 0xE601#16) = .error (.le1 (.byAddress 0xE601#16)) ∧
      getRegister openCsr (.byName "nope") = .error (.le1 (.byName "nope")) := by decide

/-- ADD_REGION of a region to one that stands, and the error it raises. -/
def regionError (b0 s0 b1 s1 : Addr) : Option ConfigError :=
  match addRegions { blockSize := 64, handshake := .pipelined, regions := [], toggle := none }
      [memRegion "a" b0 s0 false true [], memRegion "b" b1 s1 false true []] with
  | .ok _ => none
  | .error e => some e

theorem test_add_region_overlap :
    regionError 0x0000#16 0x4000#16 0x3FC0#16 0x0040#16 = some (.ce4Overlap "b" "a") ∧
      regionError 0x0000#16 0x0064#16 0x0040#16 0x0040#16 = some (.ce4Overlap "b" "a") ∧
      regionError 0x0000#16 0x0050#16 0x0060#16 0x0020#16 = none ∧
      regionError 0x0000#16 0x0050#16 0x0050#16 0x0020#16 = none ∧
      regionError 0x0040#16 0x0080#16 0x0020#16 0x0020#16 = none ∧
      regionError 0x0000#16 0x0060#16 0x0060#16 0x0060#16 = none ∧
      regionError 0x0000#16 0x0040#16 0xFF00#16 0x0200#16 = some (.ce9BeyondSpace "b") ∧
      regionError 0x0000#16 0x0040#16 0xFF00#16 0x0100#16 = none := by decide

/-- Construction of a description and the error it raises. -/
def buildError (d : Cfg) : Option ConfigError :=
  match construct d with
  | .ok _ => none
  | .error e => some e

/-- A description with one main-RAM region. -/
def ramOnly (block : Nat) (base size : Addr) : Cfg :=
  { blockSize := block, handshake := .pipelined, toggle := none,
    regions := [{ memRegion "m" base size true true [] with mainRam := true }] }

theorem test_construct_main_ram :
    buildError (ramOnly 48 0x0000#16 0x4000#16) = some (.ce10BlockSize 48) ∧
      buildError (ramOnly 64 0x0100#16 0x4000#16) = some (.ce11MainRam "m") ∧
      buildError (ramOnly 64 0x0000#16 0x3000#16) = some (.ce11MainRam "m") ∧
      buildError (ramOnly 64 0x0000#16 0x0020#16) = some (.ce11MainRam "m") ∧
      buildError (ramOnly 64 0x0000#16 0x0040#16) = none := by decide

theorem test_construct_image_length :
    buildError { refCfg [] with regions := [memRegion "r" 0#16 0x2#16 true true [1#8, 2#8]], toggle := none } = none ∧
      buildError { refCfg [] with regions := [memRegion "r" 0#16 0x2#16 true true [1#8, 2#8, 3#8]], toggle := none } =
        some (.ce8ImageTooLong "r" 3) := by decide

theorem test_construct_toggle_binding :
    buildError { refCfg [] with toggle := some { togctlBinding with set := "go" } } =
        some (.ce15ToggleBinding 0xE683#16) ∧
      buildError { refCfg [] with toggle := some { togctlBinding with ctl := 0xE600#16 } } =
        some (.ce15ToggleBinding 0xE600#16) ∧
      buildError testCfg = none := by decide

theorem test_run_needs_finalized_banks :
    (match startRun { refCfg [] with regions := [{ csrRegion [] with resource := .bank ⟨[], false⟩ }] } with
      | .fault (.configError e) => decide (e = .ce14Order)
      | _ => false) = true := by decide

/-! Decoding: a word written out from the spec's encoding for every constructor. Request words are `c aaaa dd iiii`
(30_encoding R83), policy codes R90, control bytes `q s r d e e e e` R94, channels R80. -/

theorem test_decode_bus_operations :
    decode .control 0b0000000000000000000000000000000000000000010 = .ok (.idle 0x0002#16) ∧
      decode .control 0b0100000000000000000000000000000000000000010 = .ok (.idle 0x0002#16) ∧
      decode .control 0b0010000000000000000000000000011111111111110 = .ok (.ifetch 0x3FFE#16) ∧
      decode .control 0b0110000000000000000000000000011111111111110 = .ok (.ifetch 0x3FFE#16) ∧
      decode .control 0b1001110011001010000000000000000000000000000 = .ok (.dread 0xE650#16) ∧
      decode .control 0b1011110011001010000000000000000000000000000 = .ok (.dread 0xE650#16) ∧
      decode .control 0b1101110011001010000100000000000000000000000 = .ok (.dwrite 0xE650#16 0x80#8) ∧
      decode .control 0b1111110011001010000100000000000000000000001 = .ok (.dwrite 0xE650#16 0x80#8) := by decide

theorem test_decode_read_path :
    decode (.readPath .memNarrow) 0x4E401000000 = .ok (.memRd8 0xE401#16) ∧
      decode (.readPath .memWide) 0x10000000001 = .ok (.memRd32 0x0001#16) ∧
      decode (.readPath .bank) 0x4E683000000 = .ok (.regRd 0xE683#16) ∧
      decode (.readPath .unmapped) 0x10000004000 = .ok (.unmappedRd 0x4000#16) := by decide

theorem test_decode_write_path :
    decode (.writePath .memNarrow) 0x6E000770000 = .ok (.memWr8 0xE000#16 0x77#8) ∧
      decode (.writePath .memWide) 0x70001AA0000 = .ok (.memWr8 0x0001#16 0xAA#8) ∧
      decode (.writePath .bank) 0x6E683410000 = .ok (.regWr 0xE683#16 0x41#8) ∧
      decode (.writePath .unmapped) 0x68000990000 = .ok (.unmappedWr 0x8000#16 0x99#8) ∧
      decode (.writePath .bank) 0x4E683410000 = .error .notAWrite := by decide

theorem test_decode_policies :
    decode (.policy goodIn) 0b00 = .ok (.fldRw goodIn) ∧ decode (.policy goodIn) 0b01 = .ok (.fldRo goodIn) ∧
      decode (.policy goodIn) 0b10 = .ok (.fldPulse goodIn) ∧ decode (.policy goodIn) 0b11 = .ok (.fldCow goodIn) ∧
      decode (.policy goodIn) 0b100 = .error .bitsAbove ∧ decode (.policy badIn) 0b00 = .error .badField := by decide

theorem test_decode_channel :
    decode (.hwChannel keyRo 2) 0b101 = .ok (.hwset keyRo 2 0b01#8) ∧
      decode (.hwChannel keyEvt 2) 0b111 = .ok (.hwset keyEvt 2 0b11#8) ∧
      decode (.hwChannel keyRo 2) 0b001 = .error .noEvent ∧ decode (.hwChannel keyRo 2) 0b1001 = .error .bitsAbove ∧
      decode (.hwChannel keyKick 2) 0b101 = .error .badField := by decide

theorem test_decode_toggle :
    decode .toggle 0b01000001 = .ok (.togSet false false 1#4) ∧
      decode .toggle 0b11110001 = .ok (.togSet true true 1#4) ∧
      decode .toggle 0b00100001 = .ok (.togReset false 1#4) ∧
      decode .toggle 0b00010001 = .ok (.togHold true 1#4) ∧ decode .toggle 0x100 = .error .bitsAbove := by decide

theorem test_decode_table_words :
    decodeTableWord 43 0x68000990000 = some (.dwrite 0x8000#16 0x99#8) ∧
      decodeTableWord 48 0x10000000000 = some (.ifetch 0#16) ∧
      decodeTableWord 2 3 = some (.fldCow fetchFieldIn) ∧ decodeTableWord 8 1 = some (.fldRo fetchFieldIn) ∧
      decodeTableWord 8 0x40 = some (.togSet false false 0#4) ∧
      decodeTableWord 1 1 = some (.hwset fetchKey 8 0#8) ∧ decodeTableWord 1 0 = none ∧
      decodeTableWord 48 (2 ^ 43) = none := by decide

/-! A placed word is what the next step runs -/

theorem test_fetch_word_control :
    after (step (State.reset.withFetchWord 43 0x68000990000)) (fun t => t.ackD && decide (t.inputs = [])) = true ∧
      (State.reset.withFetchWord 43 0x68000990000).mem = [] := by decide

theorem test_fetch_word_micro :
    after (step (State.reset.withFetchWord 8 0x48)) (fun t => decide (t.tog = 0b1000000#7)) = true ∧
      after (step (State.reset.withFetchWord 9 0x1A5)) (fun t => decide (fieldVal t fetchKey = 0xA5#8)) = true := by
  decide

/-! One step of each bus operation (95_test_vectors) -/

/-- P1 line 0 and V-ARB-5. -/
theorem test_step_idle :
    after (step (feed s0 [cyc 0x00000000002 []]))
      (fun t => decide (t.resp = 0x00000403#32) && !t.ackD && !t.ackI) = true := by decide

/-- V-ARB-4: `d_we` without `d_req` writes nothing. -/
theorem test_step_idle_ignores_we :
    after (step (feed s0 [cyc 0x2E600FF0000 []]))
      (fun t => decide (t.resp = 0x04030201#32) && decide (fieldVal t keyVal = 0#8)) = true := by decide

/-- P1 line 0. -/
theorem test_step_ifetch :
    after (step (feed s0 [cyc 0x10000000000 []]))
      (fun t => decide (t.resp = 0x04030201#32) && t.ackI && !t.ackD) = true := by decide

/-- V-ARB-7: with `HANDSHAKE = classic` a held fetch is not accepted. -/
theorem test_step_ifetch_classic :
    after (step { feed s0 [cyc 0x10000000000 []] with cfg := { testCfg with handshake := .classic }, ackI := true })
      (fun t => !t.ackI) = true := by decide

/-- V-ARB-2: the data master wins, the fetch is dropped. -/
theorem test_step_dread_contention :
    after (step (feed s0 [cyc 0x5E600000000 []]))
      (fun t => decide (t.resp = 0#32) && t.ackD && !t.ackI) = true := by decide

/-- P2 line 0: the written byte lands, the response is the old one. -/
theorem test_step_dwrite_memory :
    after (step (feed s0 [cyc 0x70001AA0000 []]))
      (fun t => decide (t.resp = 0x00040302#32) && decide (t.mem.read 1 = 0xAA#8) && decide (t.mem.read 2 = 3#8)) =
      true := by decide

/-- P4 line 1: all ones written to FLAGS. -/
theorem test_step_dwrite_register :
    after (step (feed s0 [cyc 0x6E650FF0000 []]))
      (fun t => decide (t.resp = 0x20#32) && decide (fieldVal t keyKick = 1#8) && decide (fieldVal t keyRo = 2#8) &&
        decide (fieldVal t keyEvt = 0#8)) = true := by decide

/-! One micro-operation each -/

/-- V-MEM-4. -/
theorem test_memRd8 : after (exec (.memRd8 0xE400#16) s0) (fun t => decide (t.resp = 0xDE#32)) = true := by decide

/-- V-MEM-1. -/
theorem test_memRd32 : after (exec (.memRd32 0x0001#16) s0) (fun t => decide (t.resp = 0x00040302#32)) = true := by
  decide

/-- V-MEM-2: lanes past the end of the region read 0. -/
theorem test_memRd32_end :
    after (exec (.memRd32 0x3FFE#16) (s0.withMem [(0x3FFE, 0xAA#8), (0x3FFF, 0xBB#8)]))
      (fun t => decide (t.resp = 0x0000BBAA#32)) = true := by decide

/-- V-MEM-6: a region without write support ignores the write. -/
theorem test_memWr8 :
    after (exec (.memWr8 0xE000#16 0x77#8) s0) (fun t => decide (t.mem.read 0xE000 = 0x77#8)) = true ∧
      after (exec (.memWr8 0xE400#16 0x55#8) s0) (fun t => decide (t.mem.read 0xE400 = 0xDE#8)) = true := by decide

/-- V-DEC-4: an unaligned region; lane 3 wraps to local 0. -/
theorem test_memRd32_unaligned_region :
    let odd := memRegion "odd" 0x5020#16 0x0050#16 true true [0x10#8, 0x11#8, 0x12#8, 0x13#8]
    let s := initState { refCfg [] with regions := [odd], toggle := none }
    readValue s 0x4FFF#16 = 0#32 ∧ readValue s 0x5000#16 = 0#32 ∧ readValue s 0x501D#16 = 0x10000000#32 ∧
      readValue s 0x501F#16 = 0x12111000#32 ∧ readValue s 0x5020#16 = 0x13121110#32 ∧ readValue s 0x5040#16 = 0#32 := by
  decide

/-- V-REG-1. -/
theorem test_regRd :
    after (exec (.regRd 0xE650#16) ((s0With keyKick 1#8).withFlds
      (setField (s0With keyKick 1#8).flds keyEvt 3#8))) (fun t => decide (t.resp = 0xA3#32)) = true := by decide

/-- P3: the mirror field shows the selected toggle bit. -/
theorem test_regRd_mirror :
    after (exec (.regRd 0xE683#16) ((s0With ⟨1, 0xE683#16, 0⟩ 1#8).withTog 0b0000010#7))
      (fun t => decide (t.resp = 0x81#32)) = true := by decide

/-- V-REG-2 and V-REG-3: gaps and holes take nothing. -/
theorem test_regWr_gaps :
    after (exec (.regWr 0xE650#16 0x4C#8) s0) (fun t => decide (t.flds = s0.flds)) = true ∧
      after (exec (.regWr 0xE601#16 0xFF#8) s0) (fun t => decide (t.flds = s0.flds)) = true := by decide

theorem test_regWr_toggle_control :
    after (exec (.regWr 0xE683#16 0x71#8) s0)
      (fun t => decide (fieldVal t keySet = 1#8) && decide (fieldVal t ⟨1, 0xE683#16, 0⟩ = 1#8) &&
        decide (t.tog = 0#7)) = true := by decide

/-- V-ARB-3. -/
theorem test_unmapped :
    after (exec (.unmappedRd 0x4000#16) { s0 with resp := 5#32 }) (fun t => decide (t.resp = 0#32)) = true ∧
      after (exec (.unmappedWr 0x8000#16 0x99#8) s0) (fun t => decide (t = s0)) = true := by decide

/-- V-FLD-0. -/
theorem test_field_bits :
    fieldBits ⟨"f", 3, 2, .readWrite, false, 0⟩ 0x18#8 = 3#8 ∧ fieldBits ⟨"f", 4, 4, .readWrite, false, 0⟩ 0xA7#8 = 0xA#8 ∧
      fieldBits ⟨"f", 7, 1, .readWrite, false, 0⟩ 0x7F#8 = 0#8 ∧
      fieldBits ⟨"f", 0, 8, .readWrite, false, 0⟩ 0x5C#8 = 0x5C#8 ∧
      place ⟨"f", 3, 2, .readWrite, false, 0⟩ 3#8 = 0x18#8 ∧ place ⟨"f", 7, 1, .readWrite, false, 0⟩ 1#8 = 0x80#8 := by
  decide

/-- V-FLD-1. -/
theorem test_fldRw :
    after (exec (.fldRw ⟨keyVal, true, 0x18#8, none⟩) s0) (fun t => decide (fieldVal t keyVal = 0x18#8)) = true ∧
      after (exec (.fldRw ⟨keyVal, false, 0xFF#8, none⟩) s0) (fun t => decide (t = s0)) = true := by decide

/-- V-FLD-2. -/
theorem test_fldRo :
    after (exec (.fldRo ⟨keyRo, true, 0xFF#8, none⟩) s0) (fun t => decide (t = s0)) = true ∧
      after (exec (.fldRo ⟨keyRo, true, 0xFF#8, some 0#8⟩) s0) (fun t => decide (fieldVal t keyRo = 0#8)) = true := by
  decide

/-- V-FLD-4. -/
theorem test_fldPulse :
    after (exec (.fldPulse ⟨keyKick, true, 0x80#8, none⟩) s0) (fun t => decide (fieldVal t keyKick = 1#8)) = true ∧
      after (exec (.fldPulse ⟨keyKick, false, 0xFF#8, none⟩) (s0With keyKick 1#8)) (fun t => decide (t = s0)) = true := by
  decide

/-- V-FLD-3. -/
theorem test_fldCow :
    after (exec (.fldCow ⟨keyEvt, true, 0x01#8, none⟩) (s0With keyEvt 3#8)) (fun t => decide (fieldVal t keyEvt = 2#8)) =
        true ∧
      after (exec (.fldCow ⟨keyEvt, true, 0xFF#8, none⟩) s0) (fun t => decide (t = s0)) = true ∧
      after (exec (.fldCow ⟨keyEvt, true, 0x02#8, some 1#8⟩) (s0With keyEvt 2#8))
        (fun t => decide (fieldVal t keyEvt = 1#8)) = true := by decide

/-- P4 lines 2 and 4. -/
theorem test_hwset :
    after (exec (.hwset keyEvt 2 3#8) s0) (fun t => decide (fieldVal t keyEvt = 3#8)) = true ∧
      after (exec (.hwset keyVal 8 3#8) s0) (fun t => decide (t = s0)) = true ∧
      after (exec (.hwset keyQ 1 1#8) s0) (fun t => decide (t = s0)) = true := by decide

/-- V-TOG-6. -/
theorem test_togSet :
    after (exec (.togSet true false 2#4) (s0.withTog 0b0000010#7)) (fun t => decide (t.tog = 0b0001010#7)) = true ∧
      after (exec (.togSet false false 3#4) (s0.withTog 0b0000010#7)) (fun t => decide (t.tog = 0b0000010#7)) = true := by
  decide

/-- V-TOG-6. -/
theorem test_togReset :
    after (exec (.togReset false 1#4) (s0.withTog 0b0000010#7)) (fun t => decide (t.tog = 0#7)) = true ∧
      after (exec (.togReset true 1#4) (s0.withTog 0b0000010#7)) (fun t => decide (t.tog = 0b0000010#7)) = true := by
  decide

/-- V-TOG-6. -/
theorem test_togHold :
    after (exec (.togHold false 1#4) (s0.withTog 0b0000010#7)) (fun t => decide (t.tog = 0b0000010#7)) = true := by decide

/-- P3 line 4: the table acts on the stored selection while the fields take the written one. -/
theorem test_toggle_acts_on_stored_selection :
    after (step (feed (withToggleByte s0 0x71#8) [cyc 0x6E683210000 []]))
      (fun t => decide (t.tog = 0b0000100#7) && decide (fieldVal t keySet = 0#8)) = true := by decide

/-- V-RST-2: a pulse field with a reset value clears at the first tick. -/
theorem test_reset_values :
    fieldVal s0 keyRo = 2#8 ∧ readValue s0 0xE650#16 = 0x20#32 ∧ s0.mem.read 0xE401 = 0xAD#8 ∧
      after (step (feed (s0With keyKick 1#8) [cyc 0 []])) (fun t => decide (fieldVal t keyKick = 0#8)) = true := by decide

/-! Every statement with hypotheses has a state and operands that meet them together: `test_hyp_<statement>` -/

theorem inv_s0 : Inv s0 := by constructor <;> decide

/-- A request word as the inputs of the one cycle presented to `s0`. -/
def s1 (w : Nat) (hw : List HwEvent) : State := feed s0 [cyc w hw]

theorem inv_s1 (w : Nat) (hw : List HwEvent) : Inv (s1 w hw) := inv_feed s0 inv_s0 _

/-- TESTCFG without a toggle binding, and with `HANDSHAKE = classic`. -/
def unboundCfg : Cfg := { testCfg with toggle := none }
def classicCfg : Cfg := { testCfg with handshake := .classic }

def valField : Field := ⟨"val", 0, 8, .readWrite, false, 0⟩
def kickField : Field := ⟨"kick", 7, 1, .pulse, false, 0⟩
def roField : Field := ⟨"ro", 4, 2, .readOnly, false, 2⟩
def evtField : Field := ⟨"evt", 0, 2, .clearOnWrite, false, 0⟩
def qField : Field := ⟨"q", 7, 1, .readOnly, true, 0⟩
def csrBank : Bank := { registers := [csrE600, togctl, flags], finalized := true }
def mainOptions : MemOptions := { wide := true, writable := true, image := [1#8, 2#8, 3#8, 4#8] }
def romOptions : MemOptions := { wide := false, writable := false, image := [0xDE#8, 0xAD#8] }
def scratchOptions : MemOptions := { wide := false, writable := true, image := [] }
def mainR : Region := mainRegion [1#8, 2#8, 3#8, 4#8]

/-- A configuration with a region whose first block begins below its base (V-DEC-4). -/
def odd : Region := memRegion "odd" 0x5020#16 0x0050#16 true true []
def oddCfg : Cfg := { refCfg [] with regions := [odd], toggle := none }

theorem stored_fields :
    (keyVal, valField) ∈ storedFields testCfg ∧ (keyKick, kickField) ∈ storedFields testCfg ∧
      (keyRo, roField) ∈ storedFields testCfg ∧ (keyEvt, evtField) ∈ storedFields testCfg := by decide

theorem test_hyp_DecodeOfEncodeIsIdentity :
    (Instr.hwset keyKick 1 1#8).wf = true ∧ (Instr.hwset keyVal 8 0xFF#8).wf = true ∧
      (Instr.fldRw goodIn).wf = true ∧ (Instr.dwrite 0xFFFF#16 0xFF#8).wf = true := by decide

theorem test_hyp_DecodedOperationsAreWellFormed :
    decode (.hwChannel keyVal 8) 0x1FF = .ok (.hwset keyVal 8 0xFF#8) ∧
      decode (.policy goodIn) 3 = .ok (.fldCow goodIn) := by decide

theorem test_hyp_ControlTupleSelectsTheBusOperation :
    0x2E600FF0000#43 &&& 0x50000000000#43 = 0x00000000000#43 ∧
      0x10000003FFE#43 &&& 0x50000000000#43 = 0x10000000000#43 ∧
      0x50001003FFE#43 &&& 0x60000000000#43 = 0x40000000000#43 ∧
      0x7FFFFFFFFFF#43 &&& 0x60000000000#43 = 0x60000000000#43 := by decide

/-- Each clause at the first word it rejects. -/
theorem test_hyp_WordsAboveTheirWidthAreRejected :
    decode .control (2 ^ 43) = .error .bitsAbove ∧ decode (.readPath .bank) (2 ^ 43) = .error .bitsAbove ∧
      decode (.writePath .bank) (2 ^ 43) = .error .bitsAbove ∧
      decode (.writePath .bank) (2 ^ 42) = .error .notAWrite ∧ decode (.policy goodIn) 4 = .error .bitsAbove ∧
      decode (.policy badIn) 3 = .error .badField ∧ decode (.hwChannel keyRo 2) 8 = .error .bitsAbove ∧
      decode (.hwChannel keyKick 2) 7 = .error .badField ∧ decode (.hwChannel keyVal 9) 0 = .error .badField ∧
      decode (.hwChannel keyRo 2) 3 = .error .noEvent ∧ decode .toggle 256 = .error .bitsAbove := by decide

theorem test_hyp_StepRunsTheDecodedOperation :
    (s1 0x70001AA0000 []).inputs = [cyc 0x70001AA0000 []] ∧
      decode .control (cyc 0x70001AA0000 []).req.word.toNat = .ok (.dwrite 0x0001#16 0xAA#8) := by decide

theorem test_hyp_StepWithoutInputsIsRefused : State.reset.inputs = [] := rfl

theorem test_hyp_StepIsTheComposedCycle : (s1 0x5E600000000 []).inputs = [cyc 0x5E600000000 []] := rfl

/-- First and last byte of a region, an accepted write and a cycle without one. -/
theorem test_hyp_MemoryAfterACycle :
    (s1 0x63FFFAA0000 []).inputs = [cyc 0x63FFFAA0000 []] ∧ ValidCfg (s1 0x63FFFAA0000 []).cfg ∧
      (s1 0x63FFFAA0000 []).mem.wf ∧ testCfg.regions[0]? = some mainR ∧ mainR.resource = .mem mainOptions ∧
      (0#16 : Addr).toNat < mainR.size.toNat ∧ (0x3FFF#16 : Addr).toNat < mainR.size.toNat ∧
      writeStrobe (s1 0x63FFFAA0000 []) (cyc 0x63FFFAA0000 []).req = true ∧
      decodeAddr testCfg (busAdr (cyc 0x63FFFAA0000 []).req) = some (mainR, 0) := by decide

/-- A strobe of FLAGS with an event for `evt` at its greatest value; `ro` has none. -/
theorem test_hyp_FieldsAfterACycle :
    (s1 0x6E650FF0000 [⟨keyEvt, 3#8⟩]).inputs = [cyc 0x6E650FF0000 [⟨keyEvt, 3#8⟩]] ∧
      Inv (s1 0x6E650FF0000 [⟨keyEvt, 3#8⟩]) ∧ WiredEvents testCfg [⟨keyEvt, 3#8⟩] ∧
      (keyVal, valField) ∈ storedFields testCfg ∧ (keyKick, kickField) ∈ storedFields testCfg ∧
      (keyRo, roField) ∈ storedFields testCfg ∧ (keyEvt, evtField) ∈ storedFields testCfg ∧
      (⟨keyEvt, 3#8⟩ : HwEvent) ∈ [(⟨keyEvt, 3#8⟩ : HwEvent)] ∧
      ∀ v, (⟨keyRo, v⟩ : HwEvent) ∉ [(⟨keyEvt, 3#8⟩ : HwEvent)] := by
  refine ⟨rfl, inv_s1 _ _, ⟨by decide, ?_⟩, stored_fields.1, stored_fields.2.1, stored_fields.2.2.1, stored_fields.2.2.2,
    by decide, ?_⟩
  · have h : fieldAt testCfg keyEvt = some evtField := by decide
    intro e he f hf
    rw [List.mem_singleton] at he
    subst he
    rw [h, Option.some.injEq] at hf
    subst hf
    decide
  · intro v hv
    rw [List.mem_singleton] at hv
    exact absurd (congrArg HwEvent.key hv) (show keyRo ≠ keyEvt by decide)

theorem test_hyp_TogglesAfterACycle :
    Inv (feed (s0With keySet 1#8) [cyc 0 []]) ∧ (togKeys testCfg).isSome = true ∧
      Inv (feed (initState unboundCfg) [cyc 0 []]) ∧ togKeys unboundCfg = none :=
  ⟨inv_feed _ (by constructor <;> decide) _, by decide, inv_feed _ (by constructor <;> decide) _, by decide⟩

/-- Unmapped, narrow, wide (the region's last address), a register and a hole. -/
theorem test_hyp_ReadPathAfterACycle :
    decodeAddr testCfg (busAdr (cyc 0x10000004000 []).req) = none ∧
      decodeAddr testCfg (busAdr (cyc 0x4E47F000000 []).req) = some (rom, 3) ∧ rom.resource = .mem romOptions ∧
      decodeAddr testCfg (busAdr (cyc 0x10000003FFF []).req) = some (mainR, 0) ∧
      decodeAddr testCfg (busAdr (cyc 0x4E650000000 []).req) = some (csrRegion [csrE600, togctl, flags], 1) ∧
      registerAt csrBank (busAdr (cyc 0x4E650000000 []).req) = some flags ∧
      registerAt csrBank (busAdr (cyc 0x4E6FF000000 []).req) = none := by decide

theorem test_hyp_AcknowledgesFollowAcceptance : (s1 0x50001000000 []).inputs = [cyc 0x50001000000 []] := rfl

theorem test_hyp_StepKeepsTheInvariant :
    ∃ t, Inv (s1 0x6E650FF0000 []) ∧ step (s1 0x6E650FF0000 []) = .next t := ⟨_, inv_s1 _ _, rfl⟩

theorem test_hyp_MicroOperationsComposeToTheCycle :
    (s1 0x6E650030000 [⟨keyEvt, 1#8⟩]).inputs = [cyc 0x6E650030000 [⟨keyEvt, 1#8⟩]] ∧
      Inv (s1 0x6E650030000 [⟨keyEvt, 1#8⟩]) := ⟨rfl, inv_s1 _ _⟩

/-- The last byte of a writable region, a region without write support, a local address outside its region. -/
theorem test_hyp_DwriteToMemoryResultAndFrame :
    (resolve s0.cfg 0xE1FF#16 = .mem scratch scratchOptions ∧ s0.mem.wf ∧ NotHeld s0 s0.ackD) ∧
      (resolve s0.cfg 0xE47F#16 = .mem rom romOptions) ∧
      (resolve oddCfg 0x5000#16 = .mem odd { wide := true, writable := true, image := [] } ∧
        ¬ (0x5000#16 - odd.base).toNat < odd.size.toNat) := by
  refine ⟨⟨by decide, by decide, ?_⟩, by decide, by decide⟩
  rintro ⟨h, -⟩
  exact absurd h (by decide)

theorem test_hyp_DwriteToRegisterResultAndFrame :
    resolve s0.cfg 0xE650#16 = .bank 1 csrBank ∧ resolve s0.cfg 0xE6FF#16 = .bank 1 csrBank ∧ NotHeld s0 s0.ackD := by
  refine ⟨by decide, by decide, ?_⟩
  rintro ⟨h, -⟩
  exact absurd h (by decide)

theorem test_hyp_DwriteToUnmappedResultAndFrame :
    resolve s0.cfg 0x4000#16 = .unmapped ∧ resolve s0.cfg 0xE700#16 = .unmapped ∧ NotHeld s0 s0.ackD := by
  refine ⟨by decide, by decide, ?_⟩
  rintro ⟨h, -⟩
  exact absurd h (by decide)

theorem test_hyp_HeldDwriteIsNotAccepted :
    ({ initState classicCfg with ackD := true } : State).cfg.handshake = .classic ∧
      ({ initState classicCfg with ackD := true } : State).ackD = true := ⟨rfl, rfl⟩

theorem test_hyp_MemoryReadsLatchTheirBytes :
    resolve s0.cfg 0xE47F#16 = .mem rom romOptions ∧ romOptions.wide = false ∧
      resolve s0.cfg 0x3FFF#16 = .mem mainR mainOptions ∧ mainOptions.wide = true := by decide

theorem test_hyp_MemoryWriteStoresOneByte :
    resolve s0.cfg 0xE1FF#16 = .mem scratch scratchOptions ∧ s0.mem.wf ∧
      resolve s0.cfg 0xE400#16 = .mem rom romOptions := by decide

theorem test_hyp_UnmappedReadAndWriteComplete : resolve s0.cfg 0x8000#16 = .unmapped := by decide

theorem test_hyp_RegisterReadReturnsTheRegister :
    resolve s0.cfg 0xE650#16 = .bank 1 csrBank ∧ registerAt csrBank 0xE650#16 = some flags ∧
      resolve s0.cfg 0xE601#16 = .bank 1 csrBank ∧ registerAt csrBank 0xE601#16 = none := by decide

theorem test_hyp_RegisterValueConcatenatesFields :
    Inv s0 ∧ s0.cfg.regions[1]? = some (csrRegion [csrE600, togctl, flags]) ∧
      (csrRegion [csrE600, togctl, flags]).resource = .bank csrBank ∧ flags ∈ csrBank.registers ∧
      (kickField ∈ flags.fields ∧ 0 < kickField.size) ∧ (evtField ∈ flags.fields ∧ 1 < evtField.size) ∧
      ∀ f ∈ flags.fields, ¬ (f.offset ≤ 6 ∧ 6 < f.offset + f.size) :=
  ⟨inv_s0, by decide⟩

theorem test_hyp_FieldBitsAreTheSlice :
    valField.offset + valField.size ≤ 8 ∧ kickField.offset + kickField.size ≤ 8 := by decide

theorem test_hyp_RegisterWriteStrobesItsFields :
    resolve s0.cfg 0xE650#16 = .bank 1 csrBank ∧ fieldAt s0.cfg keyKick = some kickField ∧ kickField.mirror = false ∧
      lookupField s0.flds keyKick = some 0#8 ∧ fieldAt s0.cfg keyRo = some roField ∧
      lookupField s0.flds keyRo = some 2#8 ∧ fieldAt s0.cfg keyEvt = some evtField ∧
      lookupField s0.flds keyEvt = some 0#8 ∧ fieldAt s0.cfg keyVal = some valField ∧
      lookupField s0.flds keyVal = some 0#8 := by decide

theorem test_hyp_FieldPoliciesGiveTheNextValue :
    (fieldAt s0.cfg keyQ = some qField ∧ qField.access = .readOnly ∧ qField.mirror = true) ∧
      (fieldAt s0.cfg keyVal = some valField ∧ valField.access = .readWrite ∧ lookupField s0.flds keyVal = some 0#8) ∧
      (fieldAt s0.cfg keyRo = some roField ∧ roField.access = .readOnly ∧ roField.mirror = false ∧
        lookupField s0.flds keyRo = some 2#8) ∧
      (fieldAt s0.cfg keyKick = some kickField ∧ kickField.access = .pulse ∧
        lookupField s0.flds keyKick = some 0#8) ∧
      (fieldAt s0.cfg keyEvt = some evtField ∧ evtField.access = .clearOnWrite ∧
        lookupField s0.flds keyEvt = some 0#8) := by decide

theorem test_hyp_HwsetAssignsTheField :
    (fieldAt s0.cfg keyRo = some roField ∧ roField.mirror = false ∧ roField.access = .readOnly ∧ roField.size ≤ 8 ∧
      (3#8 : Byte).toNat < 2 ^ roField.size ∧ lookupField s0.flds keyRo = some 2#8) ∧
    (fieldAt s0.cfg keyEvt = some evtField ∧ evtField.mirror = false ∧ evtField.access = .clearOnWrite ∧
      evtField.size ≤ 8 ∧ (3#8 : Byte).toNat < 2 ^ evtField.size ∧ lookupField s0.flds keyEvt = some 0#8) := by decide

theorem test_hyp_ToggleOperationsActOnTheSelectedBit : (togKeys s0.cfg).isSome = true := by decide

theorem test_hyp_IndexOfIsInjectiveOnTheSevenBits :
    indexOf 8#4 true = some 6 ∧ indexOf 8#4 false = some 6 ∧ indexOf 1#4 true = some 2 ∧ indexOf 0#4 false = some 0 := by
  decide

theorem test_hyp_TogglePulseActsTwoTicksAfterTheWrite :
    let i := { req := dataRequest true 0xE683#16 0x61#8, hw := [] : In }
    let s := feed (initState (refCfg [1#8])) [i, cyc 0 []]
    Inv s ∧ s.cfg = refCfg [1#8] ∧ s.inputs = [i, cyc 0 []] :=
  ⟨inv_feed _ (by constructor <;> decide) _, rfl, rfl⟩

/-- Nothing to act on: another resource, another policy, a mirror field, another size, no binding. -/
theorem test_hyp_MicroOperationsDoNothingOffTheirSelection :
    resolve s0.cfg 0xE650#16 = .bank 1 csrBank ∧ resolve s0.cfg 0x3FFF#16 = .mem mainR mainOptions ∧
      mainOptions.wide = true ∧ resolve s0.cfg 0xE400#16 = .mem rom romOptions ∧ romOptions.wide = false ∧
      (resolve s0.cfg 0x3FFF#16 ≠ .unmapped ∧ resolve s0.cfg 0xE650#16 ≠ .unmapped) ∧
      (fieldAt s0.cfg keyRo = some roField ∧ roField.access ≠ .readWrite ∧ roField.access ≠ .pulse ∧
        roField.access ≠ .clearOnWrite ∧ roField.size ≠ 3) ∧
      (fieldAt s0.cfg keyVal = some valField ∧ valField.access ≠ .readOnly) ∧
      (fieldAt s0.cfg keyQ = some qField ∧ qField.mirror = true) ∧ fieldAt s0.cfg ⟨1, 0xE650#16, 5⟩ = none ∧
      togKeys (initState unboundCfg).cfg = none := by decide

theorem test_hyp_DecodeFindsTheContainingRegion : ValidCfg testCfg := by decide

theorem test_hyp_NoAddressReachesTwoRegions :
    ValidCfg testCfg ∧ testCfg.regions[0]? = some mainR ∧ hits testCfg 0x3FFF#16 mainR = true := by decide

theorem test_hyp_FastPathAgreesWithDecode :
    ValidCfg testCfg ∧ testCfg.regions[0]? = some mainR ∧ mainR.mainRam = true := by decide

theorem test_hyp_MaskTestIsTheSizeComparison :
    mainR.size = BitVec.twoPow 16 14 ∧ (memRegion "a" 0#16 1#16 true true []).size = BitVec.twoPow 16 0 ∧
      (memRegion "b" 0#16 0x8000#16 true true []).size = BitVec.twoPow 16 15 := by decide

theorem test_hyp_ConfigurationErrorLeavesNoState :
    ValidCfg testCfg ∧ ¬ ValidCfg (ramOnly 48 0x0000#16 0x4000#16) ∧
      (∃ r ∈ [{ csrRegion [] with resource := .bank openCsr }], ∃ b, r.resource = .bank b ∧ b.finalized = false) ∧
      allFinalized testCfg = true := by
  refine ⟨by decide, by decide, ⟨_, List.mem_singleton.2 rfl, openCsr, rfl, rfl⟩, by decide⟩

theorem test_hyp_AddRefusesEmptyAndDuplicateNames :
    openCsr.finalized = false ∧ (reg 0xE684#16 "" []).name = "" ∧ (∃ h ∈ openCsr.registers, h.address = 0xE600#16) ∧
      ((reg 0xE684#16 "TOGCTL" []).name ≠ "" ∧ (¬ ∃ h ∈ openCsr.registers, h.address = 0xE684#16) ∧
        ∃ h ∈ openCsr.registers, h.name = (reg 0xE684#16 "TOGCTL" []).name) := by decide

theorem test_hyp_InitialStateHoldsTheResetValues :
    ValidCfg testCfg ∧ (keyRo, roField) ∈ storedFields testCfg ∧ rom ∈ testCfg.regions ∧
      rom.resource = .mem romOptions ∧ (0x7F#16 : Addr).toNat < rom.size.toNat := by decide

theorem test_hyp_InitialStateMeetsTheInvariant : ValidCfg testCfg ∧ allFinalized testCfg = true := by decide

theorem test_hyp_OutputsShowTheSharedResponse :
    s0.resp = (s0.withTog 1#7).resp ∧ s0.ackD = (s0.withTog 1#7).ackD ∧ s0.ackI = (s0.withTog 1#7).ackI :=
  ⟨rfl, rfl, rfl⟩

theorem test_hyp_LosingFetchLeavesNoTrace : (cyc 0x70001AA0000 []).req.dReq = true := by decide

theorem test_hyp_ReadAddressReachesOnlyTheResponse :
    (cyc 0x4E650000000 []).hw = (cyc 0x40001000000 []).hw ∧
      (cyc 0x4E650000000 []).req.dReq = (cyc 0x40001000000 []).req.dReq ∧
      (cyc 0x4E650000000 []).req.iReq = (cyc 0x40001000000 []).req.iReq ∧
      writeStrobe s0 (cyc 0x4E650000000 []).req = false ∧ writeStrobe s0 (cyc 0x40001000000 []).req = false := by decide

theorem test_hyp_ReadOnlyFieldFollowsOnlyItsChannel :
    Inv (s1 0x6E650FF0000 []) ∧ (keyRo, roField) ∈ storedFields (s1 0x6E650FF0000 []).cfg ∧
      roField.access = .readOnly ∧ 1 ≤ (s1 0x6E650FF0000 []).inputs.length ∧
      ∀ i ∈ (s1 0x6E650FF0000 []).inputs.take 1, hwFor i.hw keyRo = none :=
  ⟨inv_s1 _ _, by decide⟩

theorem test_hyp_ClearOnWriteIsSetOnlyByItsChannel :
    Inv (s1 0x6E650020000 [⟨keyEvt, 1#8⟩]) ∧ (keyEvt, evtField) ∈ storedFields testCfg ∧
      evtField.access = .clearOnWrite ∧ hwFor [⟨keyEvt, 1#8⟩] keyEvt = some 1#8 ∧ hwFor [] keyEvt = none ∧
      1 < evtField.size :=
  ⟨inv_s1 _ _, by decide⟩

theorem test_hyp_PulseLastsOneCycle :
    let s := feed s0 [cyc 0x6E650800000 [], cyc 0x4E650000000 []]
    Inv s ∧ (keyKick, kickField) ∈ storedFields s.cfg ∧ kickField.access = .pulse ∧
      writeStrobe s (cyc 0x6E650800000 []).req = true ∧
      strobed s.cfg (busAdr (cyc 0x6E650800000 []).req) keyKick = true ∧
      ¬ ((cyc 0x4E650000000 []).req.dReq = true ∧ (cyc 0x4E650000000 []).req.dWe = true ∧
        (cyc 0x4E650000000 []).req.dAdr = keyKick.addr) :=
  ⟨inv_feed _ inv_s0 _, by decide⟩

theorem test_hyp_WriteThenReadReturnsTheByte :
    let s := feed s0 [cyc 0x63FFFAA0000 [], cyc 0x10000003FFF []]
    s.mem.wf ∧ writeStrobe s (cyc 0x63FFFAA0000 []).req = true ∧
      resolve s.cfg (cyc 0x63FFFAA0000 []).req.dAdr = .mem mainR mainOptions ∧ mainOptions.writable = true ∧
      ((cyc 0x63FFFAA0000 []).req.dAdr - mainR.base).toNat < mainR.size.toNat ∧
      busAdr (cyc 0x10000003FFF []).req = (cyc 0x63FFFAA0000 []).req.dAdr := by decide

theorem test_hyp_ReadWriteFieldReadsBack :
    let s := feed s0 [cyc 0x6E600180000 [], cyc 0x4E600000000 []]
    Inv s ∧ writeStrobe s (cyc 0x6E600180000 []).req = true ∧
      resolve s.cfg (cyc 0x6E600180000 []).req.dAdr = .bank 1 csrBank ∧
      registerAt csrBank (cyc 0x6E600180000 []).req.dAdr = some csrE600 ∧ valField ∈ csrE600.fields ∧
      valField.access = .readWrite ∧ busAdr (cyc 0x4E600000000 []).req = (cyc 0x6E600180000 []).req.dAdr ∧
      7 < valField.size :=
  ⟨inv_feed _ inv_s0 _, by decide⟩

theorem test_hyp_UnmappedCycleStoresNothing :
    (s1 0x68000990000 []).inputs = [cyc 0x68000990000 []] ∧
      resolve (s1 0x68000990000 []).cfg (busAdr (cyc 0x68000990000 []).req) = .unmapped := by decide

/-- Selected and 1, selected and 0, no bit selected. -/
theorem test_hyp_ToggleStatusReadsTheSelectedBit :
    let s := fun (ep : Byte) => (s0With ⟨1, 0xE683#16, 0⟩ ep).withTog 0b0000010#7
    let sel := fun (t : State) => indexOf ((fieldVal t ⟨1, 0xE683#16, 0⟩).setWidth 4)
      (decide (fieldVal t ⟨1, 0xE683#16, 4⟩ = 1#8))
    (Inv (s 1#8) ∧ Inv (s 2#8) ∧ Inv (s 3#8)) ∧
      togKeys testCfg = some ⟨⟨1, 0xE683#16, 0⟩, ⟨1, 0xE683#16, 4⟩, keySet, ⟨1, 0xE683#16, 5⟩, keyQ⟩ ∧
      fieldAt testCfg keyQ = some qField ∧ sel (s 1#8) = some 1 ∧ sel (s 2#8) = some 3 ∧ sel (s 3#8) = none :=
  ⟨⟨by constructor <;> decide, by constructor <;> decide, by constructor <;> decide⟩, by decide⟩

theorem test_hyp_EveryOperationCompletes : s0.mem.wf := by decide

/-- A closed bank; a free name and address with a wide register, a field of each error after a good one, two fields that
share bit 3, two that share none; a bank with a register of 9 bits. -/
theorem test_hyp_AddRaisesTheFirstFailingCheck :
    csrBank.finalized = true ∧
      (openCsr.finalized = false ∧ "X" ≠ "" ∧ ∀ h ∈ openCsr.registers, h.address ≠ 0xE684#16 ∧ h.name ≠ "X") ∧
      ({ reg 0xE684#16 "X" [] with width := 16 } : Register).width ≠ 8 ∧
      (FieldOk ⟨"g", 0, 2, .readWrite, false, 3⟩ ∧ 8 < 6 + 3 ∧ Access.readWrite ≠ .readOnly ∧ 2 ^ 2 ≤ 4) ∧
      (FieldOk ⟨"a", 0, 4, .readWrite, false, 0⟩ ∧ FieldOk ⟨"b", 3, 2, .readWrite, false, 0⟩ ∧ 3 < 0 + 4 ∧ 3 < 3 + 2) ∧
      (∃ g ∈ [{ reg 0#16 "W" [] with width := 9 }], 8 < g.width) ∧ (∀ g ∈ openCsr.registers, g.width ≤ 8) := by
  decide

/-- Each clause at a value where it begins to hold. -/
theorem test_hyp_ConstructionRaisesTheNamedError :
    (¬ ∃ k, k ≤ 16 ∧ 48 = 2 ^ k) ∧ (2 : Nat) < [1#8, 2#8, 3#8].length ∧ [1#8, 2#8].length ≤ (2 : Nat) ∧
      buildError (ramOnly 64 0xFF00#16 0x0101#16) = some (.ce9BeyondSpace "m") ∧
      buildError (ramOnly 64 0x0040#16 0x0040#16) = some (.ce11MainRam "m") ∧
      regionError 0x0000#16 0x0041#16 0x0040#16 0x0040#16 = some (.ce4Overlap "b" "a") ∧
      regionError 0x0000#16 0x0040#16 0x0040#16 0x0040#16 = none ∧
      (controlRegister (refCfg []) 0xE683#16).isSome = true ∧ controlRegister (refCfg []) 0xE684#16 = none := by decide

end Sys2Proof.Tests
end

/-! SUPPORT. The reset values of a configuration (10_state section 6): the state's fields, the stored fields' values and
the bytes of memory right after reset; with them obligation O45. -/

namespace Sys2Proof.Machine

/-! The reset state, field by field -/

@[simp] theorem initState_mem (c : Cfg) : (initState c).mem = initMem [] c.regions := rfl
@[simp] theorem initState_flds (c : Cfg) :
    (initState c).flds = (storedFields c).map fun p => (p.1, BitVec.ofNat 8 p.2.reset) := rfl
@[simp] theorem initState_tog (c : Cfg) : (initState c).tog = 0#7 := rfl

/-! Stored fields -/

/-- The reset state stores exactly the stored fields of its configuration. -/
theorem keys_initState (c : Cfg) : (initState c).flds.map Prod.fst = (storedFields c).map Prod.fst := by
  rw [initState_flds, List.map_map]
  rfl

/-- A stored field of a valid configuration holds its `reset` number, cut to a byte. -/
theorem lookupField_initState (c : Cfg) (hc : ValidCfg c) (k : FieldKey) (f : Field) (h : (k, f) ∈ storedFields c) :
    lookupField (initState c).flds k = some (BitVec.ofNat 8 f.reset) := by
  have hnodup : ((initState c).flds.map Prod.fst).Nodup := keys_initState c ▸ storedFields_nodup c hc
  exact lookupField_of_mem _ hnodup k _ (List.mem_map.2 ⟨(k, f), h, rfl⟩)

/-- CE5 and CE13 keep the `reset` number of an accepted field within a byte. -/
theorem FieldOk.reset_lt {f : Field} (h : FieldOk f) : f.reset < 2 ^ 8 := by
  obtain ⟨⟨-, hsize⟩, -, hreset, -⟩ := h
  have hpow : 2 ^ f.size ≤ 2 ^ 8 := Nat.pow_le_pow_right (by omega) (by omega)
  omega

/-- The reset value of a stored field, uncut (10_state section 6). -/
theorem fieldVal_initState (c : Cfg) (hc : ValidCfg c) (k : FieldKey) (f : Field) (h : (k, f) ∈ storedFields c) :
    (fieldVal (initState c) k).toNat = f.reset := by
  have hf : FieldOk f := fieldOk_of_fieldAt c hc k f (fieldAt_of_stored c hc k f h)
  rw [fieldVal, lookupField_initState c hc k f h, Option.getD_some, BitVec.toNat_ofNat]
  exact Nat.mod_eq_of_lt hf.reset_lt

/-! Memory -/

/-- The bytes a region brings into memory at reset: its image, and nothing for a bank. -/
def regionImage (r : Region) : List Byte :=
  match r.resource with
  | .mem o => o.image
  | .bank _ => []

theorem regionImage_of_mem {r : Region} {o : MemOptions} (h : r.resource = .mem o) : regionImage r = o.image := by
  simp only [regionImage, h]

@[simp] theorem initMem_nil (m : Memory) : initMem m [] = m := rfl

/-- The images are loaded one region after another. -/
@[simp] theorem initMem_cons (m : Memory) (r : Region) (rest : List Region) :
    initMem m (r :: rest) = initMem (m.load r.base.toNat (regionImage r)) rest := by
  rw [initMem, regionImage]
  cases r.resource <;> rfl

/-- CE8 does not apply: the image of an accepted region fits its size (60_exceptions R258). -/
theorem regionImage_length_le {r : Region} (h : resourceOk r = true) : (regionImage r).length ≤ r.size.toNat := by
  unfold resourceOk at h
  unfold regionImage
  cases hr : r.resource with
  | mem o => simpa [hr] using h
  | bank b => simp

/-- The byte range of a region, of either kind, in the numbering of `cellAddr`. -/
def RegionHolds (r : Region) (x : Nat) : Prop := r.base.toNat ≤ x ∧ x < r.base.toNat + r.size.toNat

theorem holds_cellAddr {r : Region} {l : Addr} (h : l.toNat < r.size.toNat) : RegionHolds r (cellAddr r l) := by
  unfold RegionHolds cellAddr
  omega

/-- Regions that CE4 keeps apart share no byte (40_decoder R117). -/
theorem BytesApart.not_holds {q r : Region} (h : BytesApart q r) {x : Nat} (hq : RegionHolds q x) :
    ¬ RegionHolds r x := by
  unfold RegionHolds at *
  omega

/-- Loading a region's image changes no byte outside the region. -/
theorem read_load_regionImage_of_not_holds {m : Memory} (hm : m.wf) {r : Region} (hr : resourceOk r = true) {x : Nat}
    (hx : ¬ RegionHolds r x) : (m.load r.base.toNat (regionImage r)).read x = m.read x := by
  have hlen := regionImage_length_le hr
  unfold RegionHolds at hx
  rw [Memory.read_load _ m hm, if_neg (by omega)]

/-- A byte of a region after its image is loaded, where it was 0 before: the zero-padded image (10_state R46). -/
theorem read_load_regionImage_of_holds {m : Memory} (hm : m.wf) {r : Region} {x : Nat} (hx : RegionHolds r x)
    (h0 : m.read x = unlisted) :
    (m.load r.base.toNat (regionImage r)).read x = (regionImage r).getD (x - r.base.toNat) unlisted := by
  unfold RegionHolds at hx
  rw [Memory.read_load _ m hm]
  split
  · rfl
  · next hpast =>
    rw [h0, List.getD_eq_default _ _ (by omega)]

/-- A byte of none of the regions is not changed by their images. -/
theorem read_initMem_of_not_holds (rs : List Region) (hok : ∀ r ∈ rs, resourceOk r = true) (x : Nat)
    (hx : ∀ r ∈ rs, ¬ RegionHolds r x) (m : Memory) (hm : m.wf) : (initMem m rs).read x = m.read x := by
  induction rs generalizing m with
  | nil => rfl
  | cons q rest ih =>
    rw [List.forall_mem_cons] at hok hx
    rw [initMem_cons, ih hok.2 hx.2 _ (Memory.load_wf _ m hm _)]
    exact read_load_regionImage_of_not_holds hm hok.1 hx.1

/-- A byte of one of the regions is that region's image byte, zero padded: no other image reaches it. -/
theorem read_initMem_of_holds (rs : List Region) (hok : ∀ r ∈ rs, resourceOk r = true) (hapart : rs.Pairwise BytesApart)
    (r : Region) (hr : r ∈ rs) (x : Nat) (hx : RegionHolds r x) (m : Memory) (hm : m.wf) (h0 : m.read x = unlisted) :
    (initMem m rs).read x = (regionImage r).getD (x - r.base.toNat) unlisted := by
  induction rs generalizing m with
  | nil => exact absurd hr List.not_mem_nil
  | cons q rest ih =>
    rw [List.forall_mem_cons] at hok
    obtain ⟨hq, hrest⟩ := List.pairwise_cons.1 hapart
    have hm' : (m.load q.base.toNat (regionImage q)).wf := Memory.load_wf _ m hm _
    rw [initMem_cons]
    rcases List.mem_cons.1 hr with rfl | hr
    · rw [read_initMem_of_not_holds rest hok.2 x (fun p hp => (hq p hp).not_holds hx) _ hm']
      exact read_load_regionImage_of_holds hm hx h0
    · have hxq : ¬ RegionHolds q x := fun h => (hq r hr).not_holds h hx
      exact ih hok.2 hrest hr _ hm' ((read_load_regionImage_of_not_holds hm hok.1 hxq).trans h0)

/-- The byte ranges of a valid configuration's regions do not meet. -/
theorem bytesApart_of_valid (c : Cfg) (hc : ValidCfg c) : c.regions.Pairwise BytesApart := by
  obtain ⟨-, -, ⟨-, hapart⟩, -⟩ := hc
  exact hapart.imp And.left

/-- Byte `l` of a MemoryRegion at reset is byte `l` of its image, 0 past its end (10_state R46). -/
theorem read_initState (c : Cfg) (hc : ValidCfg c) (r : Region) (hr : r ∈ c.regions) (o : MemOptions)
    (ho : r.resource = .mem o) (l : Addr) (hl : l.toNat < r.size.toNat) :
    (initState c).mem.read (cellAddr r l) = o.image.getD l.toNat 0x00#8 := by
  have hplace : cellAddr r l - r.base.toNat = l.toNat := Nat.add_sub_cancel_left _ _
  have hwf : Memory.wf [] := by simp [Memory.wf]
  have hapart := bytesApart_of_valid c hc
  obtain ⟨-, hok, -, -⟩ := hc
  rw [initState_mem, read_initMem_of_holds c.regions hok hapart r hr _ (holds_cellAddr hl) [] hwf rfl,
    regionImage_of_mem ho, hplace]

/-- Settles O45: the toggle table is 0 by definition; a stored field is found under its own key, since the keys of a
valid configuration are distinct; a region's bytes come from its own image, since byte ranges do not meet. -/
theorem initialStateHoldsTheResetValues : Obligations.InitialStateHoldsTheResetValues := by
  unfold Obligations.InitialStateHoldsTheResetValues
  intro c hc
  refine ⟨fun i _ => ?_, fieldVal_initState c hc, read_initState c hc⟩
  rw [initState_tog, BitVec.getLsbD_zero]

end Sys2Proof.Machine

/-! SUPPORT. The bits of a written byte and of an address (30_encoding R91, R103): a field's slice and the mask of a
power-of-two size; with them obligations O27 and O39. -/

namespace Sys2Proof.Machine

/-! The slice of a field -/

/-- Masking with `n` ones keeps the value modulo `2^n`. -/
theorem and_sizeMask_toNat (v : Byte) (n : Nat) (h : n ≤ 8) : (v &&& sizeMask n).toNat = v.toNat % 2 ^ n := by
  rw [BitVec.toNat_and, sizeMask_toNat n h, Nat.and_two_pow_sub_one_eq_mod]

/-- The field's bits as a number: the byte divided by `2^offset`, modulo `2^size` (30_encoding R91). -/
theorem fieldBits_toNat (f : Field) (w : Byte) (h : f.size ≤ 8) :
    (fieldBits f w).toNat = w.toNat / 2 ^ f.offset % 2 ^ f.size := by
  rw [fieldBits, and_sizeMask_toNat _ _ h, BitVec.toNat_ushiftRight, Nat.shiftRight_eq_div_pow]

/-- Settles O27: shifting down divides by `2^offset`, and the mask takes the quotient modulo `2^size`. -/
theorem fieldBitsAreTheSlice : Obligations.FieldBitsAreTheSlice := by
  unfold Obligations.FieldBitsAreTheSlice
  intro f w hfits
  have hsize : f.size ≤ 8 := by omega
  exact ⟨fieldBits_lt f w hsize, fieldBits_toNat f w hsize⟩

/-! The mask of a power-of-two size -/

/-- `2^k - 1` has ones exactly in the bits below `k`. -/
theorem getLsbD_twoPow_sub_one {k : Nat} (hk : k < 16) (i : Nat) :
    (BitVec.twoPow 16 k - 1#16).getLsbD i = decide (i < k) := by
  have hpow : 2 ^ k < 2 ^ 16 := Nat.pow_lt_pow_right (by decide) hk
  have hle : 1#16 ≤ BitVec.twoPow 16 k := by
    rw [BitVec.le_def, BitVec.toNat_twoPow_of_lt hk]
    exact Nat.one_le_two_pow
  rw [BitVec.getLsbD, BitVec.toNat_sub_of_le hle, BitVec.toNat_twoPow_of_lt hk]
  exact Nat.testBit_two_pow_sub_one k i

/-- The mask of R103 for the size `2^k`: ones in bits 15 down to `k`, zeros below. -/
theorem getLsbD_not_twoPow_sub_one {k : Nat} (hk : k < 16) {i : Nat} (hi : i < 16) :
    (~~~(BitVec.twoPow 16 k - 1#16)).getLsbD i = decide (k ≤ i) := by
  simp only [BitVec.getLsbD_not, getLsbD_twoPow_sub_one hk, hi, decide_true, Bool.true_and, ← decide_not, Nat.not_lt]

/-- An address is below `2^k` exactly if its bits from `k` up are 0. -/
theorem toNat_lt_two_pow_iff (a : Addr) (k : Nat) :
    a.toNat < 2 ^ k ↔ ∀ i, k ≤ i → a.getLsbD i = false := by
  constructor
  · intro h i hi
    exact Nat.testBit_lt_two_pow (h.trans_le (Nat.pow_le_pow_right (by decide) hi))
  · exact Nat.lt_pow_two_of_testBit a.toNat

/-- Masking leaves nothing of an address exactly if its bits from `k` up are 0. -/
theorem and_not_twoPow_sub_one_eq_zero_iff {k : Nat} (hk : k < 16) (a : Addr) :
    a &&& ~~~(BitVec.twoPow 16 k - 1#16) = 0#16 ↔ ∀ i, k ≤ i → a.getLsbD i = false := by
  have hbit : ∀ {i}, i < 16 →
      (a &&& ~~~(BitVec.twoPow 16 k - 1#16)).getLsbD i = (a.getLsbD i && decide (k ≤ i)) := fun hi => by
    rw [BitVec.getLsbD_and, getLsbD_not_twoPow_sub_one hk hi]
  constructor
  · intro hzero i hki
    rcases Nat.lt_or_ge i 16 with hi | hi
    · simpa [hzero, hki] using (hbit hi).symm
    · exact BitVec.getLsbD_of_ge a i hi
  · intro hclear
    refine BitVec.eq_of_getLsbD_eq fun i hi => ?_
    rw [hbit hi, BitVec.getLsbD_zero]
    by_cases hki : k ≤ i
    · rw [hclear i hki, Bool.false_and]
    · simp [hki]

/-- DECODE.FAST with a power-of-two size is the comparison with the size (30_encoding R103). -/
theorem decodeFast_iff_of_size_eq_twoPow (m : Region) {k : Nat} (hk : k < 16) (hsize : m.size = BitVec.twoPow 16 k)
    (a : Addr) : decodeFast m a = true ↔ a.toNat < m.size.toNat := by
  rw [decodeFast, decide_eq_true_iff, hsize, and_not_twoPow_sub_one_eq_zero_iff hk, BitVec.toNat_twoPow_of_lt hk,
    toNat_lt_two_pow_iff]

/-- Settles O39: the mask keeps exactly the bits from `k` up, and these are all 0 exactly below `2^k`. -/
theorem maskTestIsTheSizeComparison : Obligations.MaskTestIsTheSizeComparison := by
  unfold Obligations.MaskTestIsTheSizeComparison
  intro m k hk hsize
  refine ⟨fun i hi => ?_, decodeFast_iff_of_size_eq_twoPow m hk hsize⟩
  rw [hsize]
  exact getLsbD_not_twoPow_sub_one hk hi

end Sys2Proof.Machine

/-! SUPPORT. DECODE in full (40_decoder R112, R113): block arithmetic as division, at most one region for an address,
the answer as an equivalence, and REFCFG's map; with them obligation O36. -/

namespace Sys2Proof.Machine

/-! Block arithmetic -/

/-- With a block size CE10 accepts, shifting by `n = log2(B)` is dividing by `B` (00_scope R8). -/
theorem shiftRight_blockBits {c : Cfg} (hB : BlockSizeOk c) (x : Nat) : x >>> blockBits c = x / c.blockSize := by
  obtain ⟨hpow, -⟩ := hB
  rw [Nat.shiftRight_eq_div_pow, blockBits, hpow]

/-- The block-range test of R112 in terms of division by the block size. -/
theorem hits_iff_div {c : Cfg} (hB : BlockSizeOk c) (a : Addr) (r : Region) :
    hits c a r = true ↔ r.base.toNat / c.blockSize ≤ a.toNat / c.blockSize ∧
      a.toNat / c.blockSize < (r.base.toNat + r.size.toNat) / c.blockSize := by
  simp only [hits_iff, blockLo, blockOf, blockHi, shiftRight_blockBits hB]

/-! At most one region -/

/-- Regions that CE4 keeps apart share no block (40_decoder R117). -/
theorem BlocksApart.not_hits {c : Cfg} {q r : Region} (h : BlocksApart c q r) {a : Addr} (hq : hits c a q = true) :
    ¬ hits c a r = true := by
  rw [hits_iff] at *
  omega

/-- The block ranges of a valid configuration's regions do not meet. -/
theorem blocksApart_of_valid {c : Cfg} (hc : ValidCfg c) : c.regions.Pairwise (BlocksApart c) := by
  obtain ⟨-, -, ⟨-, hapart⟩, -⟩ := hc
  exact hapart.imp fun h => h.2.1

/-- A region in an earlier place and one in a later place do not both contain the address's block. -/
theorem not_hits_of_lt {c : Cfg} (hc : ValidCfg c) {i j : Nat} (hij : i < j) {q r : Region} {a : Addr}
    (hi : c.regions[i]? = some q) (hj : c.regions[j]? = some r) (hq : hits c a q = true) : ¬ hits c a r = true := by
  obtain ⟨hilt, rfl⟩ := List.getElem?_eq_some_iff.1 hi
  obtain ⟨hjlt, rfl⟩ := List.getElem?_eq_some_iff.1 hj
  exact (List.pairwise_iff_getElem.1 (blocksApart_of_valid hc) i j hilt hjlt hij).not_hits hq

/-- Two places whose regions contain the address's block are the same place (40_decoder R113). -/
theorem place_eq_of_hits {c : Cfg} (hc : ValidCfg c) {i j : Nat} {q r : Region} {a : Addr}
    (hi : c.regions[i]? = some q) (hj : c.regions[j]? = some r) (hq : hits c a q = true) (hr : hits c a r = true) :
    i = j := by
  rcases Nat.lt_trichotomy i j with hlt | heq | hgt
  · exact absurd hr (not_hits_of_lt hc hlt hi hj hq)
  · exact heq
  · exact absurd hq (not_hits_of_lt hc hgt hj hi hr)

/-! The answer of DECODE -/

/-- DECODE answers `None` exactly if no region's block range contains the address, in every configuration. -/
theorem decodeAddr_eq_none_iff (c : Cfg) (a : Addr) :
    decodeAddr c a = none ↔ ∀ r ∈ c.regions, ¬ hits c a r = true := by
  constructor
  · intro h r hr
    simp [decodeAddr_eq_none c a h r hr]
  · intro hmiss
    refine Option.eq_none_iff_forall_not_mem.2 fun ⟨r, k⟩ hsome => ?_
    obtain ⟨hk, hhit⟩ := decodeAddr_eq_some c a r k hsome
    exact hmiss r (List.mem_of_getElem? hk) hhit

/-- In a valid configuration DECODE answers place `k` exactly if the region there contains the address's block: the
search stops at some region, and no second one contains it. -/
theorem decodeAddr_eq_some_iff {c : Cfg} (hc : ValidCfg c) (a : Addr) (r : Region) (k : Nat) :
    decodeAddr c a = some (r, k) ↔ c.regions[k]? = some r ∧ hits c a r = true := by
  refine ⟨decodeAddr_eq_some c a r k, fun ⟨hk, hhit⟩ => ?_⟩
  cases hd : decodeAddr c a with
  | none => exact absurd hhit ((decodeAddr_eq_none_iff c a).1 hd r (List.mem_of_getElem? hk))
  | some p =>
    obtain ⟨q, i⟩ := p
    obtain ⟨hi, hq⟩ := decodeAddr_eq_some c a q i hd
    obtain rfl : i = k := place_eq_of_hits hc hi hk hq hhit
    obtain rfl : q = r := Option.some.inj (hi.symm.trans hk)
    rfl

/-! The map of REFCFG -/

theorem blockSizeOk_refCfg (image : List Byte) : BlockSizeOk (refCfg image) := by
  simp only [BlockSizeOk, refCfg]
  decide

/-- Main RAM of REFCFG holds the blocks of 0x0000 to 0x3FFF (20_memory R62). -/
theorem hits_mainRegion_iff (image : List Byte) (a : Addr) :
    hits (refCfg image) a (mainRegion image) = true ↔ a.toNat < 0x4000 := by
  rw [hits_iff_div (blockSizeOk_refCfg image)]
  simp only [refCfg, mainRegion, BitVec.toNat_ofNat]
  omega

/-- The register bank of REFCFG holds the blocks of 0xE600 to 0xE6FF (20_memory R62). -/
theorem hits_csrRegion_iff (image : List Byte) (a : Addr) (regs : List Register) :
    hits (refCfg image) a (csrRegion regs) = true ↔ 0xE600 ≤ a.toNat ∧ a.toNat < 0xE700 := by
  rw [hits_iff_div (blockSizeOk_refCfg image)]
  simp only [refCfg, csrRegion, BitVec.toNat_ofNat]
  omega

/-- DECODE in REFCFG, for every image of main RAM, one that is too long among them. -/
theorem decodeAddr_refCfg (image : List Byte) (a : Addr) :
    decodeAddr (refCfg image) a =
      if a.toNat < 0x4000 then some (mainRegion image, 0)
      else if 0xE600 ≤ a.toNat ∧ a.toNat < 0xE700 then some (csrRegion [csrE600, togctl], 1)
      else none := by
  have hregions : (refCfg image).regions.zipIdx = [(mainRegion image, 0), (csrRegion [csrE600, togctl], 1)] := rfl
  rw [decodeAddr, hregions, List.find?_cons, List.find?_cons, List.find?_nil]
  split
  · next hmain => rw [if_pos ((hits_mainRegion_iff image a).1 hmain)]
  · next hmain =>
    rw [if_neg (mt (hits_mainRegion_iff image a).2 (Bool.eq_false_iff.1 hmain))]
    split
    · next hcsr => rw [if_pos ((hits_csrRegion_iff image a _).1 hcsr)]
    · next hcsr => rw [if_neg (mt (hits_csrRegion_iff image a _).2 (Bool.eq_false_iff.1 hcsr))]

/-- Settles O36: DECODE answers exactly the regions that `hits` accepts, and `hits` is the block-range test written with
division; the two examples are read off REFCFG's map. -/
theorem decodeFindsTheContainingRegion : Obligations.DecodeFindsTheContainingRegion := by
  unfold Obligations.DecodeFindsTheContainingRegion
  refine ⟨fun c hc a => ?_, fun image => ⟨?_, ?_⟩⟩
  · have hB : BlockSizeOk c := hc.1
    simp only [decodeAddr_eq_some_iff hc, decodeAddr_eq_none_iff, hits_iff_div hB, implies_true, and_self]
  · rw [decodeAddr_refCfg, if_neg (by decide), if_pos (by decide)]
  · rw [decodeAddr_refCfg, if_neg (by decide), if_neg (by decide)]

end Sys2Proof.Machine

/-! SUPPORT. The cycle from the wires (41_arbiter R132 to R136, 45_cycle_step R230): every bus operation is the composed
step of its request, the acknowledges after it, and what a step sees of its inputs; with them obligations O13 and
O49. -/

namespace Sys2Proof.Machine

/-! The four bus operations as one composed step -/

section
variable (s : State) (a : Addr)

theorem exec_idle : exec (.idle a) s = .next (tick s a none false false) := rfl

theorem exec_ifetch : exec (.ifetch a) s = .next (tick s a none false (ungated s.cfg s.ackI)) := rfl

theorem exec_dread : exec (.dread a) s = .next (tick s a none (ungated s.cfg s.ackD) false) := rfl

theorem exec_dwrite (v : Byte) :
    exec (.dwrite a v) s =
      .next (tick s a (if ungated s.cfg s.ackD then some v else none) (ungated s.cfg s.ackD) false) :=
  rfl

end

/-- The bus operation of a request is the composed step of its wires: one case per row of 30_encoding R84. -/
theorem exec_busOperation (s : State) (q : Request) : exec (busOperation q) s = .next (composedStep s q) := by
  obtain ⟨dReq, dWe, iReq, dAdr, dDatW, iAdr⟩ := q
  simp only [composedStep, busAdr, writtenByte, writeStrobe, accD, accI]
  cases dReq with
  | false =>
    cases iReq with
    | false => exact exec_idle s iAdr
    | true => exact exec_ifetch s iAdr
  | true =>
    cases dWe with
    | false => simpa [busOperation] using exec_dread s dAdr
    | true => simpa [busOperation] using exec_dwrite s dAdr dDatW

/-- A step with inputs is the composed step of the first of them, which is then gone. -/
theorem step_eq_composedStep (s : State) (i : In) (rest : List In) (h : s.inputs = i :: rest) :
    step s = .next ((composedStep s i.req).withInputs rest) := by
  rw [step_of_inputs s i rest h, exec_busOperation]
  simp only [retire, composedStep, tick_inputs, h, List.tail_cons]

/-! Acceptance -/

/-- `acc_d` as 41_arbiter R133 writes it. -/
theorem accD_eq_true_iff (s : State) (q : Request) : accD s q = true ↔ q.dReq = true ∧ NotHeld s s.ackD := by
  rw [accD, Bool.and_eq_true, ungated_eq_true]

/-- `acc_i` as 41_arbiter R133 writes it. -/
theorem accI_eq_true_iff (s : State) (q : Request) :
    accI s q = true ↔ q.dReq = false ∧ q.iReq = true ∧ NotHeld s s.ackI := by
  rw [accI, Bool.and_eq_true, Bool.and_eq_true, Bool.not_eq_true', ungated_eq_true, and_assoc]

/-- While the data master requests, no fetch is accepted (41_arbiter R131). -/
theorem accI_of_dReq (s : State) {q : Request} (h : q.dReq = true) : accI s q = false := by
  rw [accI, h, Bool.not_true, Bool.false_and, Bool.false_and]

/-- At most one request is accepted (41_arbiter R133). -/
theorem not_accD_and_accI (s : State) (q : Request) : ¬ (accD s q = true ∧ accI s q = true) := by
  rintro ⟨hd, hi⟩
  obtain ⟨hreq, -⟩ := (accD_eq_true_iff s q).1 hd
  exact Bool.false_ne_true ((accI_of_dReq s hreq).symm.trans hi)

/-- Settles O13: the step is the composed step, whose acknowledges are the two acceptances. -/
theorem acknowledgesFollowAcceptance : Obligations.AcknowledgesFollowAcceptance := by
  unfold Obligations.AcknowledgesFollowAcceptance
  intro s i rest h
  exact ⟨_, step_eq_composedStep s i rest h, accD_eq_true_iff s i.req, accI_eq_true_iff s i.req,
    not_accD_and_accI s i.req⟩

/-! What a step sees of its inputs -/

section
variable (s : State) (l : List In) (a : Addr) (wr : Option Byte)

@[simp] theorem readValue_withInputs : readValue (s.withInputs l) a = readValue s a := rfl
@[simp] theorem nextMem_withInputs : nextMem (s.withInputs l) a wr = nextMem s a wr := rfl
@[simp] theorem nextFlds_withInputs (evs : List HwEvent) :
    nextFlds (s.withInputs l) a wr evs = nextFlds s a wr evs := rfl
@[simp] theorem nextTog_withInputs : nextTog (s.withInputs l) = nextTog s := rfl
@[simp] theorem accD_withInputs (q : Request) : accD (s.withInputs l) q = accD s q := rfl
@[simp] theorem accI_withInputs (q : Request) : accI (s.withInputs l) q = accI s q := rfl
@[simp] theorem writtenByte_withInputs (q : Request) : writtenByte (s.withInputs l) q = writtenByte s q := rfl
@[simp] theorem hwNow_withInputs_cons (i : In) : hwNow (s.withInputs (i :: l)) = i.hw := rfl

/-- Of the presented inputs a tick sees the hardware-set events of the cycle only. -/
theorem tick_withInputs_congr (d k : Bool) {i j : In} (hhw : i.hw = j.hw) (rest : List In) :
    (tick (s.withInputs (i :: rest)) a wr d k).withInputs rest =
      (tick (s.withInputs (j :: rest)) a wr d k).withInputs rest := by
  simp only [tick, readValue_withInputs, nextMem_withInputs, nextFlds_withInputs, nextTog_withInputs,
    hwNow_withInputs_cons, hhw]
  rfl

end

/-- A request reaches the next state through the bus address, the written byte and the acceptances only. -/
theorem step_withInputs_congr (s : State) {i j : In} (rest : List In) (hhw : i.hw = j.hw)
    (hadr : busAdr i.req = busAdr j.req) (hwr : writtenByte s i.req = writtenByte s j.req)
    (hd : accD s i.req = accD s j.req) (hi : accI s i.req = accI s j.req) :
    step (s.withInputs (i :: rest)) = step (s.withInputs (j :: rest)) := by
  rw [step_eq_composedStep _ i rest rfl, step_eq_composedStep _ j rest rfl]
  simp only [composedStep, writtenByte_withInputs, accD_withInputs, accI_withInputs, hadr, hwr, hd, hi]
  rw [tick_withInputs_congr s _ _ _ _ hhw rest]

/-! A fetch that loses -/

/-- While the data master requests, its address is the bus address (41_arbiter R132). -/
theorem busAdr_of_dReq {q : Request} (h : q.dReq = true) : busAdr q = q.dAdr := if_pos h

/-- Where the data master requests, two cycles with the same events and the same wires of the data master are the same
step, whatever the instruction master presents: its request is not forwarded (41_arbiter R135). -/
theorem step_eq_of_dReq (s : State) {i j : In} (rest : List In) (hi : i.req.dReq = true) (hj : j.req.dReq = true)
    (hwe : i.req.dWe = j.req.dWe) (hadr : i.req.dAdr = j.req.dAdr) (hdat : i.req.dDatW = j.req.dDatW)
    (hhw : i.hw = j.hw) : step (s.withInputs (i :: rest)) = step (s.withInputs (j :: rest)) := by
  have hbus : busAdr i.req = busAdr j.req := by rw [busAdr_of_dReq hi, busAdr_of_dReq hj, hadr]
  have haccD : accD s i.req = accD s j.req := by rw [accD, accD, hi, hj]
  have haccI : accI s i.req = accI s j.req := by rw [accI_of_dReq s hi, accI_of_dReq s hj]
  have hwr : writtenByte s i.req = writtenByte s j.req := by
    rw [writtenByte, writtenByte, writeStrobe, writeStrobe, haccD, hwe, hdat]
  exact step_withInputs_congr s rest hhw hbus hwr haccD haccI

/-- Settles O49: the two cycles differ on the instruction master's wires only, so they are the same step, and the data
master's request keeps its fetch from being accepted. -/
theorem losingFetchLeavesNoTrace : Obligations.LosingFetchLeavesNoTrace := by
  unfold Obligations.LosingFetchLeavesNoTrace
  intro s q a b hw rest hreq
  have hnext := step_eq_composedStep (s.withInputs ({ req := { q with iReq := true, iAdr := a }, hw := hw } :: rest))
    _ rest rfl
  have hsame := step_eq_of_dReq s (i := { req := { q with iReq := true, iAdr := a }, hw := hw })
    (j := { req := { q with iReq := false, iAdr := b }, hw := hw }) rest hreq hreq rfl rfl rfl rfl
  exact ⟨_, hnext, hsame.symm.trans hnext, accI_of_dReq _ hreq⟩

end Sys2Proof.Machine

/-! SUPPORT. The value of a register (43_register_bank R177 to R180): every field's value fits the field, a placed value
stands in its field's bits only, and no two fields share a bit; with them obligation O26. -/

namespace Sys2Proof.Machine

/-! A field's value fits the field -/

/-- The toggle status is one bit (44_toggle_table R219, R220). -/
theorem mirrorQ_lt (s : State) (t : TogKeys) : (mirrorQ s t).toNat < 2 ^ 1 := by
  unfold mirrorQ
  split
  · next i _ => cases s.tog.getLsbD i <;> decide
  · decide

/-- A mirror field shows at most its own bits: the toggle status is one bit, any other owner's value is cut. -/
theorem mirrorVal_lt (s : State) (k : FieldKey) {f : Field} (hf : FieldOk f) :
    (mirrorVal s k f).toNat < 2 ^ f.size := by
  obtain ⟨⟨hpos, hfits⟩, -, -⟩ := hf
  have hfree (v : Byte) : (v &&& sizeMask f.size).toNat < 2 ^ f.size := and_sizeMask_lt v f.size (by omega)
  unfold mirrorVal
  split
  · split
    · exact (mirrorQ_lt s _).trans_le (Nat.pow_le_pow_right (by decide) hpos)
    · exact hfree _
  · exact hfree _

theorem fieldValue_of_not_mirror (s : State) (k : FieldKey) {f : Field} (hm : f.mirror = false) :
    fieldValue s k f = fieldVal s k := by
  simp only [fieldValue, hm, Bool.false_eq_true, if_false]

theorem fieldValue_of_mirror (s : State) (k : FieldKey) {f : Field} (hm : f.mirror = true) :
    fieldValue s k f = mirrorVal s k f := if_pos hm

theorem registerOk_of_bankAt {c : Cfg} (hc : ValidCfg c) {k : Nat} {b : Bank} (hb : bankAt c k = some b) {g : Register}
    (hg : g ∈ b.registers) : RegisterOk g := by
  obtain ⟨r, hr, hres⟩ := bankAt_eq_some c k b hb
  obtain ⟨hregs, -⟩ := bankOk_of_valid c hc r (List.mem_of_getElem? hr) b hres
  exact hregs g hg

/-- The key of a field without `mirror` is one that the configuration stores. -/
theorem stored_of_bankAt {c : Cfg} {k : Nat} {b : Bank} (hb : bankAt c k = some b) {g : Register}
    (hg : g ∈ b.registers) {f : Field} (hf : f ∈ g.fields) (hm : f.mirror = false) :
    (⟨k, g.address, f.offset⟩, f) ∈ storedFields c := by
  obtain ⟨r, hr, hres⟩ := bankAt_eq_some c k b hb
  exact (mem_storedFields c _ f).2 ⟨r, b, g, hr, hres, hg, hf, hm, rfl, rfl⟩

/-- In a state with the invariant every field of every register, stored or mirror, has a value of its own width. -/
theorem Inv.fieldValue_lt {s : State} (hi : Inv s) {k : Nat} {b : Bank} (hb : bankAt s.cfg k = some b) {g : Register}
    (hg : g ∈ b.registers) {f : Field} (hf : f ∈ g.fields) :
    (fieldValue s ⟨k, g.address, f.offset⟩ f).toNat < 2 ^ f.size := by
  cases hm : f.mirror with
  | true =>
    obtain ⟨-, -, hfields, -⟩ := registerOk_of_bankAt hi.valid hb hg
    rw [fieldValue_of_mirror s _ hm]
    exact mirrorVal_lt s _ (hfields f hf)
  | false =>
    rw [fieldValue_of_not_mirror s _ hm]
    exact hi.fieldVal_lt _ f (fieldAt_of_stored s.cfg hi.valid _ f (stored_of_bankAt hb hg hf hm))

/-! The bits of a placed value -/

/-- Bit `j` of a register belongs to the field. -/
def FieldCovers (f : Field) (j : Nat) : Prop := f.offset ≤ j ∧ j < f.offset + f.size

/-- Two fields that cover one bit of a register are the same field (CE6). -/
theorem eq_of_fieldCovers {g : Register} (hg : RegisterOk g) {f h : Field} (hf : f ∈ g.fields) (hh : h ∈ g.fields)
    {j : Nat} (hfj : FieldCovers f j) (hhj : FieldCovers h j) : f = h := by
  obtain ⟨-, -, -, hapart⟩ := hg
  unfold FieldCovers at hfj hhj
  by_contra hne
  have := pairwise_of_mem fieldsApart_symm hapart hf hh hne
  omega

/-- A placed value has the value's bit `n` at the field's offset plus `n` (30_encoding R92). -/
theorem getLsbD_place_offset_add {f : Field} (hf : FieldOk f) (v : Byte) {n : Nat} (hn : n < f.size) :
    (place f v).getLsbD (f.offset + n) = v.getLsbD n := by
  obtain ⟨⟨-, hfits⟩, -, -⟩ := hf
  have hlt : f.offset + n < 8 := by omega
  have hge : ¬ f.offset + n < f.offset := by omega
  rw [place, BitVec.getLsbD_shiftLeft, Nat.add_sub_cancel_left]
  simp only [hlt, hge, decide_true, decide_false, Bool.not_false, Bool.true_and]

/-- A value that fits its field is 0 in every bit the field does not cover, once placed (30_encoding R92). -/
theorem getLsbD_place_of_not_covers {f : Field} {v : Byte} (hv : v.toNat < 2 ^ f.size) {j : Nat}
    (hj : ¬ FieldCovers f j) : (place f v).getLsbD j = false := by
  rw [place, BitVec.getLsbD_shiftLeft]
  by_cases hlow : j < f.offset
  · simp [hlow]
  · have hsize : f.size ≤ j - f.offset := by
      unfold FieldCovers at hj
      omega
    have hhigh : v.getLsbD (j - f.offset) = false :=
      Nat.testBit_lt_two_pow (hv.trans_le (Nat.pow_le_pow_right (by decide) hsize))
    rw [hhigh, Bool.and_false]

/-! The bits of a register's value -/

/-- A bit of the or of a list of words is set exactly if it is set in one of them. -/
theorem getLsbD_foldr_or {α : Type} {w : Nat} (l : List α) (word : α → BitVec w) (j : Nat) :
    (l.foldr (fun x acc => word x ||| acc) 0#w).getLsbD j = l.any fun x => (word x).getLsbD j := by
  induction l with
  | nil => simp
  | cons x rest ih => rw [List.foldr_cons, BitVec.getLsbD_or, ih, List.any_cons]

/-- A bit of a register's value is set exactly if some field's placed value has it set (43_register_bank R178). -/
theorem getLsbD_regValue (s : State) (k : Nat) (g : Register) (j : Nat) :
    (regValue s k g).getLsbD j =
      g.fields.any fun f => (place f (fieldValue s ⟨k, g.address, f.offset⟩ f)).getLsbD j :=
  getLsbD_foldr_or g.fields _ j

section
variable {s : State} {k : Nat} {b : Bank} {g : Register} {f : Field}

/-- Only a field that covers the bit can set it. -/
theorem Inv.fieldCovers_of_place {j : Nat} (hi : Inv s) (hb : bankAt s.cfg k = some b) (hg : g ∈ b.registers)
    (hf : f ∈ g.fields) (hbit : (place f (fieldValue s ⟨k, g.address, f.offset⟩ f)).getLsbD j = true) :
    FieldCovers f j := by
  by_contra hj
  exact Bool.false_ne_true ((getLsbD_place_of_not_covers (hi.fieldValue_lt hb hg hf) hj).symm.trans hbit)

/-- In a covered bit the register's value is the covering field's placed value: no other field reaches it. -/
theorem Inv.getLsbD_regValue_of_covers {j : Nat} (hi : Inv s) (hb : bankAt s.cfg k = some b) (hg : g ∈ b.registers)
    (hf : f ∈ g.fields) (hj : FieldCovers f j) :
    (regValue s k g).getLsbD j = (place f (fieldValue s ⟨k, g.address, f.offset⟩ f)).getLsbD j := by
  rw [getLsbD_regValue, Bool.eq_iff_iff, List.any_eq_true]
  constructor
  · rintro ⟨h, hh, hbit⟩
    obtain rfl : h = f :=
      eq_of_fieldCovers (registerOk_of_bankAt hi.valid hb hg) hh hf (hi.fieldCovers_of_place hb hg hh hbit) hj
    exact hbit
  · exact fun hbit => ⟨f, hf, hbit⟩

/-- Bit `offset + n` of a register's value is bit `n` of the field's value (43_register_bank R178). -/
theorem Inv.getLsbD_regValue_offset_add {n : Nat} (hi : Inv s) (hb : bankAt s.cfg k = some b) (hg : g ∈ b.registers)
    (hf : f ∈ g.fields) (hn : n < f.size) :
    (regValue s k g).getLsbD (f.offset + n) = (fieldValue s ⟨k, g.address, f.offset⟩ f).getLsbD n := by
  have hcovers : FieldCovers f (f.offset + n) := ⟨by omega, by omega⟩
  obtain ⟨-, -, hfields, -⟩ := registerOk_of_bankAt hi.valid hb hg
  rw [hi.getLsbD_regValue_of_covers hb hg hf hcovers, getLsbD_place_offset_add (hfields f hf) _ hn]

/-- The gaps of a register's value are 0 (43_register_bank R178). -/
theorem Inv.getLsbD_regValue_of_gap {j : Nat} (hi : Inv s) (hb : bankAt s.cfg k = some b) (hg : g ∈ b.registers)
    (hgap : ∀ h ∈ g.fields, ¬ FieldCovers h j) : (regValue s k g).getLsbD j = false := by
  rw [getLsbD_regValue, List.any_eq_false]
  exact fun h hh hbit => hgap h hh (hi.fieldCovers_of_place hb hg hh hbit)

end

/-- Settles O26: the value is the or of the placed field values, each inside its own field's bits, and no two fields
share a bit. -/
theorem registerValueConcatenatesFields : Obligations.RegisterValueConcatenatesFields := by
  unfold Obligations.RegisterValueConcatenatesFields
  intro s k r b g hi hr hres hg
  have hb : bankAt s.cfg k = some b := bankAt_of_getElem s.cfg k r b hr hres
  refine ⟨fun f hf n hn => hi.getLsbD_regValue_offset_add hb hg hf hn, fun f hf hm n hn => ?_,
    fun j hgap => hi.getLsbD_regValue_of_gap hb hg hgap⟩
  rw [hi.getLsbD_regValue_offset_add hb hg hf hn, fieldValue_of_not_mirror s _ hm]

end Sys2Proof.Machine

/-! SUPPORT. The toggle table over one cycle (44_toggle_table R212, R213, R222): INDEX_OF has an inverse on its indices,
and a one-bit field is 1 exactly if its stored byte is 1; with them obligations O11 and O33. -/

namespace Sys2Proof.Machine

/-! INDEX_OF and its inverse -/

/-- Endpoint 1 has one index for each direction (44_toggle_table R212). -/
theorem indexOf_one (d : Bool) : indexOf 1#4 d = some (1 + d.toNat) := rfl

/-- The direction reaches INDEX_OF at endpoint 1 only (44_toggle_table R213). -/
theorem indexOf_congr_of_ne_one {e : BitVec 4} (he : e ≠ 1#4) (d d' : Bool) : indexOf e d = indexOf e d' := by
  simp only [indexOf, if_neg he]

/-- The endpoint of an index below 7: 0 at 0, 1 at 1 and 2, then the even endpoints 2, 4, 6 and 8. -/
def endpointOfIndex (i : Nat) : BitVec 4 :=
  match i with
  | 0 => 0#4
  | 1 => 1#4
  | 2 => 1#4
  | n + 3 => BitVec.ofNat 4 (2 * n + 2)

/-- The index determines the endpoint: one case per clause of INDEX_OF. -/
theorem endpointOfIndex_of_indexOf {e : BitVec 4} {d : Bool} {i : Nat} (h : indexOf e d = some i) :
    endpointOfIndex i = e := by
  unfold indexOf at h
  split at h
  · next he =>
    obtain rfl := Option.some.inj h
    exact he.symm
  split at h
  · next he =>
    obtain rfl := Option.some.inj h
    cases d <;> exact he.symm
  split at h
  · next he =>
    obtain rfl := Option.some.inj h
    rcases he with rfl | rfl | rfl | rfl <;> rfl
  · cases h

/-- At endpoint 1 the index determines the direction as well. -/
theorem direction_eq_of_indexOf_one {d d' : Bool} {i : Nat} (h : indexOf 1#4 d = some i)
    (h' : indexOf 1#4 d' = some i) : d = d' := by
  rw [indexOf_one, Option.some.injEq] at h h'
  have hnat : d.toNat = d'.toNat := by omega
  rw [← Bool.ofNat_toNat d, hnat, Bool.ofNat_toNat]

/-- Each of the seven indices is that of its endpoint, direction IN for index 2. -/
theorem indexOf_endpointOfIndex : ∀ i, i < 7 → indexOf (endpointOfIndex i) (decide (i = 2)) = some i := by decide

/-- Settles O33: an index determines its endpoint, and the direction at endpoint 1; every index has its endpoint; no
other endpoint looks at the direction. -/
theorem indexOfIsInjectiveOnTheSevenBits : Obligations.IndexOfIsInjectiveOnTheSevenBits := by
  unfold Obligations.IndexOfIsInjectiveOnTheSevenBits
  refine ⟨fun e e' d d' i h h' => ?_, fun i hi => ⟨_, _, indexOf_endpointOfIndex i hi⟩,
    fun e he => indexOf_congr_of_ne_one he false true⟩
  obtain rfl : e = e' := (endpointOfIndex_of_indexOf h).symm.trans (endpointOfIndex_of_indexOf h')
  refine ⟨rfl, ?_⟩
  rintro rfl
  exact direction_eq_of_indexOf_one h h'

/-! The stored pulses -/

/-- A byte that is at most 1 is 1 exactly if its lowest bit is set. -/
theorem getLsbD_zero_eq_true_iff {v : Byte} (hv : v.toNat < 2 ^ 1) : v.getLsbD 0 = true ↔ v = 1#8 := by
  have hmod : v.getLsbD 0 = decide (v.toNat % 2 = 1) := Nat.testBit_zero v.toNat
  have hlow : v.toNat % 2 = v.toNat := Nat.mod_eq_of_lt hv
  rw [hmod, hlow, decide_eq_true_iff, ← BitVec.toNat_inj, BitVec.toNat_ofNat]

/-- In a state with the invariant the bit of a one-bit field is its stored value (10_state R26). -/
theorem Inv.fieldBit_eq_true_iff {s : State} (hi : Inv s) {k : FieldKey} {f : Field} (hf : fieldAt s.cfg k = some f)
    (hsize : f.size = 1) : fieldBit s k = true ↔ fieldVal s k = 1#8 :=
  getLsbD_zero_eq_true_iff (hsize ▸ hi.fieldVal_lt k f hf)

/-- The `set` pulse of the toggle table is one bit (44_toggle_table R214). -/
theorem Inv.fieldBit_set_iff {s : State} (hi : Inv s) {b : TogKeys} (hb : togKeys s.cfg = some b) :
    fieldBit s b.set = true ↔ fieldVal s b.set = 1#8 := by
  obtain ⟨-, -, ⟨f, hf, -, hsize, -⟩, -, -⟩ := togKeys_fields s.cfg hi.valid b hb
  exact hi.fieldBit_eq_true_iff hf hsize

/-- The `reset` pulse of the toggle table is one bit (44_toggle_table R214). -/
theorem Inv.fieldBit_reset_iff {s : State} (hi : Inv s) {b : TogKeys} (hb : togKeys s.cfg = some b) :
    fieldBit s b.reset = true ↔ fieldVal s b.reset = 1#8 := by
  obtain ⟨-, -, -, ⟨f, hf, -, hsize, -⟩, -⟩ := togKeys_fields s.cfg hi.valid b hb
  exact hi.fieldBit_eq_true_iff hf hsize

/-! The table after a cycle -/

/-- Without a binding the table keeps its value (45_cycle_step R236). -/
theorem nextTog_of_unbound {s : State} (h : togKeys s.cfg = none) : nextTog s = s.tog := by
  simp only [nextTog, h]

/-- With a binding the table is acted on by the stored pulses at the stored selection (44_toggle_table R216 to R218). -/
theorem nextTog_of_bound {s : State} {b : TogKeys} (h : togKeys s.cfg = some b) :
    nextTog s = togAct (fieldBit s b.set) (fieldBit s b.reset) (togSel s b) s.tog := by
  simp only [nextTog, h]

/-- Every bit of the next table, from the stored pulses as values (44_toggle_table R222). -/
theorem Inv.getLsbD_nextTog {s : State} (hi : Inv s) {b : TogKeys} (hb : togKeys s.cfg = some b) {j : Nat}
    (hj : j < 7) :
    (nextTog s).getLsbD j =
      if togSel s b = some j ∧ fieldVal s b.set = 1#8 then true
      else if togSel s b = some j ∧ fieldVal s b.reset = 1#8 then false
      else s.tog.getLsbD j := by
  rw [nextTog_of_bound hb, getLsbD_togAct _ _ _ _ j hj]
  simp only [hi.fieldBit_set_iff hb, hi.fieldBit_reset_iff hb]

/-- Settles O11: the step is the composed step, whose toggle table is the next table of the state before it. -/
theorem togglesAfterACycle : Obligations.TogglesAfterACycle := by
  unfold Obligations.TogglesAfterACycle
  intro s i rest h hi
  exact ⟨_, step_eq_composedStep s i rest h, nextTog_of_unbound, fun _ hb _ hj => hi.getLsbD_nextTog hb hj⟩

end Sys2Proof.Machine

/-! SUPPORT. Memory over one cycle (45_cycle_step R234): the byte ranges of two places do not meet, so the one byte of
an accepted write is read back in the addressed region and nowhere else; with it obligation O9. -/

namespace Sys2Proof.Machine

/-! Whose byte a cell is -/

/-- A region in an earlier place and one in a later place do not both hold a byte. -/
theorem not_holds_of_lt {c : Cfg} (hc : ValidCfg c) {i j : Nat} (hij : i < j) {q r : Region} {x : Nat}
    (hi : c.regions[i]? = some q) (hj : c.regions[j]? = some r) (hq : RegionHolds q x) : ¬ RegionHolds r x := by
  obtain ⟨hilt, rfl⟩ := List.getElem?_eq_some_iff.1 hi
  obtain ⟨hjlt, rfl⟩ := List.getElem?_eq_some_iff.1 hj
  exact (List.pairwise_iff_getElem.1 (bytesApart_of_valid c hc) i j hilt hjlt hij).not_holds hq

/-- Two places whose regions hold one byte are the same place (40_decoder R117). -/
theorem place_eq_of_holds {c : Cfg} (hc : ValidCfg c) {i j : Nat} {q r : Region} {x : Nat}
    (hi : c.regions[i]? = some q) (hj : c.regions[j]? = some r) (hq : RegionHolds q x) (hr : RegionHolds r x) :
    i = j := by
  rcases Nat.lt_trichotomy i j with hlt | heq | hgt
  · exact absurd hr (not_holds_of_lt hc hlt hi hj hq)
  · exact heq
  · exact absurd hq (not_holds_of_lt hc hgt hj hi hr)

/-- Within one region a local address determines its cell, and the cell the local address. -/
theorem cellAddr_inj {r : Region} {l m : Addr} : cellAddr r l = cellAddr r m ↔ l = m := by
  rw [cellAddr, cellAddr, Nat.add_left_cancel_iff, BitVec.toNat_inj]

/-! The byte of an accepted write -/

section
variable {s : State} {a : Addr} {r : Region} {k : Nat} {o : MemOptions} {j : Addr}

/-- The addressed region takes the written byte at the local address, if it has write support; an address below the base
in the region's first block has a local address past the size, which is no byte of the region. -/
theorem read_nextMem_of_decoded (hm : s.mem.wf) (hd : decodeAddr s.cfg a = some (r, k)) (ho : r.resource = .mem o)
    (hj : j.toNat < r.size.toNat) (v : Byte) :
    (nextMem s a (some v)).read (cellAddr r j) =
      if o.writable = true ∧ j = localAddr r a then v else s.mem.read (cellAddr r j) := by
  have hres : resolve s.cfg a = .mem r o := (resolve_eq_mem s.cfg a r o).2 ⟨k, hd, ho⟩
  rw [nextMem_mem s a v r o hres, read_writeByte s.mem hm]
  refine if_congr ⟨?_, ?_⟩ rfl rfl
  · rintro ⟨⟨hw, -⟩, hcell⟩
    exact ⟨hw, cellAddr_inj.1 hcell⟩
  · rintro ⟨hw, rfl⟩
    exact ⟨⟨hw, hj⟩, rfl⟩

/-- A region in another place than the addressed one keeps its bytes. -/
theorem read_nextMem_of_not_decoded (hc : ValidCfg s.cfg) (hm : s.mem.wf) (hk : s.cfg.regions[k]? = some r)
    (hd : decodeAddr s.cfg a ≠ some (r, k)) (hj : j.toNat < r.size.toNat) (v : Byte) :
    (nextMem s a (some v)).read (cellAddr r j) = s.mem.read (cellAddr r j) := by
  by_cases hmem : ∃ q p, resolve s.cfg a = .mem q p
  · obtain ⟨q, p, hres⟩ := hmem
    obtain ⟨i, hq, -⟩ := (resolve_eq_mem s.cfg a q p).1 hres
    obtain ⟨hi, -⟩ := decodeAddr_eq_some s.cfg a q i hq
    rw [nextMem_mem s a v q p hres, read_writeByte s.mem hm]
    refine if_neg ?_
    rintro ⟨⟨-, hl⟩, hcell⟩
    obtain rfl : i = k := place_eq_of_holds hc hi hk (hcell ▸ holds_cellAddr hl) (holds_cellAddr hj)
    obtain rfl : q = r := Option.some.inj (hi.symm.trans hk)
    exact hd hq
  · exact congrArg (Memory.read · _) (nextMem_other s a _ fun q p hres => hmem ⟨q, p, hres⟩)

/-- Every byte of a MemoryRegion after an accepted write (45_cycle_step R234). -/
theorem read_nextMem_some (hc : ValidCfg s.cfg) (hm : s.mem.wf) (hk : s.cfg.regions[k]? = some r)
    (ho : r.resource = .mem o) (hj : j.toNat < r.size.toNat) (v : Byte) :
    (nextMem s a (some v)).read (cellAddr r j) =
      if decodeAddr s.cfg a = some (r, k) ∧ o.writable = true ∧ j = localAddr r a then v
      else s.mem.read (cellAddr r j) := by
  by_cases hd : decodeAddr s.cfg a = some (r, k)
  · simp only [read_nextMem_of_decoded hm hd ho hj, hd, true_and]
  · simp only [read_nextMem_of_not_decoded hc hm hk hd hj, hd, false_and, if_false]

end

theorem writtenByte_of_write {s : State} {q : Request} (h : writeStrobe s q = true) :
    writtenByte s q = some q.dDatW := if_pos h

theorem writtenByte_of_not_write {s : State} {q : Request} (h : ¬ writeStrobe s q = true) :
    writtenByte s q = none := if_neg h

/-- Settles O9: without an accepted write memory is kept; with one, its byte lands in the region it decodes to, whose
bytes are no other region's. -/
theorem memoryAfterACycle : Obligations.MemoryAfterACycle := by
  unfold Obligations.MemoryAfterACycle
  intro s i rest h hc hm
  refine ⟨_, step_eq_composedStep s i rest h, fun k r o hk ho j hj => ?_⟩
  rw [State.withInputs_mem, composedStep, tick_mem]
  by_cases hwr : writeStrobe s i.req = true
  · rw [writtenByte_of_write hwr, read_nextMem_some hc hm hk ho hj]
    exact if_congr (and_iff_right hwr).symm rfl rfl
  · rw [writtenByte_of_not_write hwr, nextMem_none, if_neg fun hland => hwr hland.1]

end Sys2Proof.Machine

/-! SUPPORT. The stored fields over one cycle (45_cycle_step R235): each takes the next value of its own policy, from
the strobe, the written byte and the event its wires carry; with it obligation O10. -/

namespace Sys2Proof.Machine

/-! The four policies, on a field with storage -/

section
variable {f : Field} {c : FieldIn} (hm : f.mirror = false) (cur : Byte)
include hm

/-- FLD.RW (43_register_bank R171). -/
theorem nextField_of_readWrite (ha : f.access = .readWrite) :
    nextField f cur c = if c.strobe then fieldBits f c.w else cur := by
  simp only [nextField, hm, ha, Bool.false_eq_true, if_false, policyReadWrite]

/-- FLD.PULSE (43_register_bank R174). -/
theorem nextField_of_pulse (ha : f.access = .pulse) :
    nextField f cur c = if c.strobe then fieldBits f c.w else 0x00#8 := by
  simp only [nextField, hm, ha, Bool.false_eq_true, if_false, policyPulse]

/-- FLD.RO with `hw_we = 1` (43_register_bank R172). -/
theorem nextField_of_readOnly_event (ha : f.access = .readOnly) {v : Byte} (hw : c.hw = some v) :
    nextField f cur c = hwBits f v := by
  simp only [nextField, hm, ha, hw, Bool.false_eq_true, if_false, policyReadOnly]

/-- FLD.RO with `hw_we = 0` (43_register_bank R172). -/
theorem nextField_of_readOnly_quiet (ha : f.access = .readOnly) (hw : c.hw = none) : nextField f cur c = cur := by
  simp only [nextField, hm, ha, hw, Bool.false_eq_true, if_false, policyReadOnly]

/-- FLD.COW with `hw_we = 1`: the event wins over a strobe (43_register_bank R176). -/
theorem nextField_of_clearOnWrite_event (ha : f.access = .clearOnWrite) {v : Byte} (hw : c.hw = some v) :
    nextField f cur c = hwBits f v := by
  simp only [nextField, hm, ha, hw, Bool.false_eq_true, if_false, policyClearOnWrite]

/-- FLD.COW with `hw_we = 0` (43_register_bank R173). -/
theorem nextField_of_clearOnWrite_quiet (ha : f.access = .clearOnWrite) (hw : c.hw = none) :
    nextField f cur c = if c.strobe then cur &&& ~~~(fieldBits f c.w) else cur := by
  simp only [nextField, hm, ha, hw, Bool.false_eq_true, if_false, policyClearOnWrite]

end

/-! What a field sees in a cycle -/

/-- A field looks at the written byte under its strobe only, where it is the request's (45_cycle_step R231). -/
theorem ite_strobe_fieldIn (s : State) (q : Request) (evs : List HwEvent) (k : FieldKey) (g : Byte → Byte)
    (y : Byte) :
    (if (fieldIn s.cfg (busAdr q) (writtenByte s q) evs k).strobe then
        g (fieldIn s.cfg (busAdr q) (writtenByte s q) evs k).w
      else y) =
      if writeStrobe s q && strobed s.cfg (busAdr q) k then g q.dDatW else y := by
  by_cases hwr : writeStrobe s q = true
  · simp only [fieldIn, writtenByte_of_write hwr, hwr, Option.isSome_some, Option.getD_some]
  · simp only [fieldIn, writtenByte_of_not_write hwr, hwr, Option.isSome_none, Bool.false_and, Bool.false_eq_true,
      if_false]

/-- The hardware-set events of a cycle are those of its input. -/
theorem hwNow_of_inputs {s : State} {i : In} {rest : List In} (h : s.inputs = i :: rest) : hwNow s = i.hw := by
  simp only [hwNow, h]

/-- A value that the wires carry for a field is not cut (30_encoding R80). -/
theorem WiredEvents.hwBits_eq {c : Cfg} {evs : List HwEvent} (hev : WiredEvents c evs) {k : FieldKey} {v : Byte}
    (hmem : (⟨k, v⟩ : HwEvent) ∈ evs) {f : Field} (hf : fieldAt c k = some f) (hsize : f.size ≤ 8) :
    hwBits f v = v := by
  obtain ⟨-, hfit⟩ := hev
  exact and_sizeMask_eq v f.size hsize (hfit _ hmem f hf)

/-! The value of a stored field after a cycle -/

/-- A field of the configuration that is not a mirror has a stored value. -/
theorem Inv.lookupField_eq_fieldVal {s : State} (hi : Inv s) {k : FieldKey} {f : Field}
    (hk : (k, f) ∈ storedFields s.cfg) : lookupField s.flds k = some (fieldVal s k) := by
  have hkey : k ∈ s.flds.map Prod.fst := hi.keys ▸ List.mem_map_of_mem (f := Prod.fst) hk
  obtain ⟨v, hv⟩ := Option.isSome_iff_exists.1 ((lookupField_isSome s.flds k).2 hkey)
  rw [fieldVal, hv, Option.getD_some]

theorem not_mirror_of_stored {c : Cfg} {k : FieldKey} {f : Field} (hk : (k, f) ∈ storedFields c) :
    f.mirror = false := by
  obtain ⟨-, -, -, -, -, -, -, hm, -, -⟩ := (mem_storedFields c k f).1 hk
  exact hm

/-- The tick gives a stored field the next value of its policy, from what the field sees in the cycle. -/
theorem Inv.fieldVal_tick {s : State} (hi : Inv s) {k : FieldKey} {f : Field} (hk : (k, f) ∈ storedFields s.cfg)
    (a : Addr) (wr : Option Byte) (d e : Bool) :
    fieldVal (tick s a wr d e) k = nextField f (fieldVal s k) (fieldIn s.cfg a wr (hwNow s) k) := by
  have hf := fieldAt_of_stored s.cfg hi.valid k f hk
  rw [fieldVal, tick_flds, lookup_nextFlds, hi.lookupField_eq_fieldVal hk, Option.map_some, Option.getD_some]
  simp only [nextAt, hf]

/-- Settles O10: a stored field takes its policy's next value, one case per policy; an event the wires can carry is the
only one of its field and is not cut. -/
theorem fieldsAfterACycle : Obligations.FieldsAfterACycle := by
  unfold Obligations.FieldsAfterACycle
  intro s i rest h hi hev
  refine ⟨_, step_eq_composedStep s i rest h, fun k f hk => ?_⟩
  have hm := not_mirror_of_stored hk
  have hf := fieldAt_of_stored s.cfg hi.valid k f hk
  have hnext : fieldVal ((composedStep s i.req).withInputs rest) k =
      nextField f (fieldVal s k) (fieldIn s.cfg (busAdr i.req) (writtenByte s i.req) i.hw k) := by
    rw [← hwNow_of_inputs h]
    exact hi.fieldVal_tick hk _ _ (accD s i.req) (accI s i.req)
  have hcarried (v : Byte) (hv : (⟨k, v⟩ : HwEvent) ∈ i.hw) : hwFor i.hw k = some v ∧ hwBits f v = v :=
    ⟨hwFor_of_mem i.hw hev.1 k v hv, hev.hwBits_eq hv hf (size_le_of_fieldAt s.cfg hi.valid k f hf)⟩
  simp only [hnext]
  refine ⟨fun ha => ?readWrite, fun ha => ⟨fun v hv => ?roEvent, fun hno => ?roQuiet⟩,
    fun ha => ⟨fun v hv => ?cowEvent, fun hno => ?cowQuiet⟩, fun ha => ?pulse⟩
  case readWrite =>
    rw [nextField_of_readWrite hm _ ha]
    exact ite_strobe_fieldIn s i.req i.hw k (fieldBits f) _
  case roEvent =>
    obtain ⟨hfor, hbits⟩ := hcarried v hv
    exact (nextField_of_readOnly_event hm _ ha hfor).trans hbits
  case roQuiet => exact nextField_of_readOnly_quiet hm _ ha (hwFor_none i.hw k hno)
  case cowEvent =>
    obtain ⟨hfor, hbits⟩ := hcarried v hv
    exact (nextField_of_clearOnWrite_event hm _ ha hfor).trans hbits
  case cowQuiet =>
    rw [nextField_of_clearOnWrite_quiet hm _ ha (hwFor_none i.hw k hno)]
    exact ite_strobe_fieldIn s i.req i.hw k (fun w => fieldVal s k &&& ~~~(fieldBits f w)) _
  case pulse =>
    rw [nextField_of_pulse hm _ ha]
    exact ite_strobe_fieldIn s i.req i.hw k (fieldBits f) _

end Sys2Proof.Machine

/-! SUPPORT. The decoders against the encoder (30_encoding R80 to R94): what each place answers on the encoder's words
and on every number; with them obligations O1 to O5. -/

namespace Sys2Proof

/-! The decoder of each place on an encoded word -/

/-- The read path's decoder on a request's word (30_encoding R85). -/
theorem decode_readPath_word (t : Target) (q : Request) :
    decode (.readPath t) q.word.toNat = .ok (readInstr t (busAdr q)) := by
  simp only [decode, if_pos q.word_lt, Request.ofWord_toNat]

/-- The write path's decoder on the word of a DWRITE (30_encoding R85). -/
theorem decode_writePath_word (t : Target) {q : Request} (hreq : q.dReq = true) (hwe : q.dWe = true) :
    decode (.writePath t) q.word.toNat = .ok (writeInstr t q.dAdr q.dDatW) := by
  simp only [decode, if_neg (not_not.2 q.word_lt), Request.ofWord_toNat, hreq, hwe, Bool.and_self, if_true]

@[simp] theorem policyOfCode_codeOfPolicy (a : Access) : policyOfCode (codeOfPolicy a) = a := by cases a <;> rfl

/-- A field's decoder on a policy's code (30_encoding R90). -/
theorem decode_policy_code (a : Access) {c : FieldIn} (hc : c.key.wf = true) :
    decode (.policy c) (codeOfPolicy a).toNat = .ok (fieldInstr a c) := by
  simp only [decode, if_neg (not_not.2 (codeOfPolicy a).isLt), hc, if_true, BitVec.ofNat_toNat, BitVec.setWidth_eq,
    policyOfCode_codeOfPolicy]

/-- The channel's decoder on `hw_we = 1` above a value of the channel's width (30_encoding R80). -/
theorem decode_hwChannel_event {k : FieldKey} {n : Nat} {v : Byte} (h : (Instr.hwset k n v).wf = true) :
    decode (.hwChannel k n) (2 ^ n + v.toNat) = .ok (.hwset k n v) := by
  have hfits : 2 ^ n + v.toNat < 2 ^ (n + 1) := Laws.EncodingFits.hwset k n v h
  rw [Instr.wf, Bool.and_eq_true, decide_eq_true_eq] at h
  obtain ⟨hfield, hv⟩ := h
  have hbit : (2 ^ n + v.toNat).testBit n = true := by
    rw [Nat.testBit_two_pow_add_eq, Nat.testBit_lt_two_pow hv, Bool.not_false]
  have hval : (2 ^ n + v.toNat) % 2 ^ n = v.toNat := by rw [Nat.add_mod_left, Nat.mod_eq_of_lt hv]
  simp only [decode, if_neg (not_not.2 hfits), hfield, not_true_eq_false, if_false, hbit, if_true, hval,
    BitVec.ofNat_toNat, BitVec.setWidth_eq]

/-- The toggle control byte holds its four operands in their places (30_encoding R94). -/
theorem toggleByte_fields : ∀ (set reset dir : Bool) (ep : BitVec 4),
    (toggleByte set reset dir ep).getLsbD 6 = set ∧ (toggleByte set reset dir ep).getLsbD 5 = reset ∧
      (toggleByte set reset dir ep).getLsbD 4 = dir ∧ (toggleByte set reset dir ep).extractLsb' 0 4 = ep := by
  decide

/-- The toggle decoder on a control byte (30_encoding R94). -/
theorem decode_toggle_byte (set reset dir : Bool) (ep : BitVec 4) :
    decode .toggle (toggleByte set reset dir ep).toNat = .ok (toggleInstr set reset dir ep) := by
  obtain ⟨hset, hreset, hdir, hep⟩ := toggleByte_fields set reset dir ep
  simp only [decode, if_pos (toggleByte set reset dir ep).isLt, BitVec.ofNat_toNat, BitVec.setWidth_eq, hset, hreset,
    hdir, hep]

/-- Settles O1: one case per row; the rows that share a format share its place's lemma. -/
theorem decodeOfEncodeIsIdentity : Obligations.DecodeOfEncodeIsIdentity := by
  unfold Obligations.DecodeOfEncodeIsIdentity
  intro i hi
  cases i with
  | idle a => exact decode_control_word (readRequest false a)
  | ifetch a => exact decode_control_word (readRequest true a)
  | dread a => exact decode_control_word (dataRequest false a 0)
  | dwrite a v => exact decode_control_word (dataRequest true a v)
  | memRd8 a => exact decode_readPath_word .memNarrow (readRequest false a)
  | memRd32 a => exact decode_readPath_word .memWide (readRequest false a)
  | regRd a => exact decode_readPath_word .bank (readRequest false a)
  | unmappedRd a => exact decode_readPath_word .unmapped (readRequest false a)
  | memWr8 a v => exact decode_writePath_word (q := dataRequest true a v) .memNarrow rfl rfl
  | regWr a v => exact decode_writePath_word (q := dataRequest true a v) .bank rfl rfl
  | unmappedWr a v => exact decode_writePath_word (q := dataRequest true a v) .unmapped rfl rfl
  | fldRw c => exact decode_policy_code .readWrite hi
  | fldRo c => exact decode_policy_code .readOnly hi
  | fldPulse c => exact decode_policy_code .pulse hi
  | fldCow c => exact decode_policy_code .clearOnWrite hi
  | hwset k n v => exact decode_hwChannel_event hi
  | togSet r d e => exact decode_toggle_byte true r d e
  | togReset d e => exact decode_toggle_byte false true d e
  | togHold d e => exact decode_toggle_byte false false d e

/-! Whatever is decoded is well formed -/

theorem wf_busOperation (q : Request) : (busOperation q).wf = true := by
  unfold busOperation
  split <;> rfl

theorem wf_readInstr (t : Target) (a : Addr) : (readInstr t a).wf = true := by cases t <;> rfl

theorem wf_writeInstr (t : Target) (a : Addr) (v : Byte) : (writeInstr t a v).wf = true := by cases t <;> rfl

theorem wf_fieldInstr (a : Access) (c : FieldIn) : (fieldInstr a c).wf = c.key.wf := by cases a <;> rfl

theorem wf_toggleInstr (set reset dir : Bool) (ep : BitVec 4) : (toggleInstr set reset dir ep).wf = true := by
  unfold toggleInstr
  split
  · rfl
  · split <;> rfl

/-- The value bits below `hw_we` fit the channel. -/
theorem toNat_ofNat_mod_two_pow_lt (w n : Nat) : (BitVec.ofNat 8 (w % 2 ^ n)).toNat < 2 ^ n := by
  rw [BitVec.toNat_ofNat]
  exact (Nat.mod_le _ _).trans_lt (Nat.mod_lt _ (Nat.two_pow_pos n))

/-- Settles O2: one case per place; a place that can answer an operation with an ill-formed field rejects the field
first. -/
theorem decodedOperationsAreWellFormed : Obligations.DecodedOperationsAreWellFormed := by
  unfold Obligations.DecodedOperationsAreWellFormed
  intro v w i h
  cases v with
  | control =>
    simp only [decode] at h
    split at h
    · exact Except.ok.inj h ▸ wf_busOperation _
    · cases h
  | readPath t =>
    simp only [decode] at h
    split at h
    · exact Except.ok.inj h ▸ wf_readInstr t _
    · cases h
  | writePath t =>
    simp only [decode] at h
    split at h
    · cases h
    split at h
    · exact Except.ok.inj h ▸ wf_writeInstr t _ _
    · cases h
  | policy c =>
    simp only [decode] at h
    split at h
    · cases h
    split at h
    · next hc => exact Except.ok.inj h ▸ (wf_fieldInstr _ c).trans hc
    · cases h
  | hwChannel k n =>
    simp only [decode] at h
    split at h
    · cases h
    split at h
    · cases h
    split at h
    · next hfield _ =>
      rw [not_not] at hfield
      rw [← Except.ok.inj h, Instr.wf, hfield, Bool.true_and, decide_eq_true_eq]
      exact toNat_ofNat_mod_two_pow_lt w n
    · cases h
  | toggle =>
    simp only [decode] at h
    split at h
    · exact Except.ok.inj h ▸ wf_toggleInstr _ _ _ _
    · cases h

/-! The control tuple by match and mask -/

/-- The arbiter's decoder on any 43-bit word answers the bus operation of its wires. -/
theorem decode_control_toNat (w : BitVec 43) : decode .control w.toNat = .ok (busOperation (.ofWord w)) := by
  simp only [decode, if_pos w.isLt, BitVec.ofNat_toNat, BitVec.setWidth_eq]

/-- A word meets a match under a mask of two bits exactly if it agrees with the match in these bits. -/
theorem and_eq_iff_of_two_bits {n i j : Nat} {w m v : BitVec n} (hi : i < n) (hj : j < n)
    (hm : m = BitVec.twoPow n i ||| BitVec.twoPow n j) (hv : v &&& m = v) :
    w &&& m = v ↔ w.getLsbD i = v.getLsbD i ∧ w.getLsbD j = v.getLsbD j := by
  have hmask (l : Nat) (hl : l < n) : m.getLsbD l = (decide (l = i) || decide (l = j)) := by
    rw [hm, BitVec.getLsbD_or, BitVec.getLsbD_twoPow, BitVec.getLsbD_twoPow]
    simp only [hi, hj, decide_true, Bool.true_and, eq_comm]
  constructor
  · rintro rfl
    simp [hmask i hi, hmask j hj]
  · rintro ⟨hbi, hbj⟩
    rw [← hv]
    refine BitVec.eq_of_getLsbD_eq fun l hl => ?_
    rw [BitVec.getLsbD_and, BitVec.getLsbD_and, hmask l hl]
    by_cases hli : l = i
    · rw [hli, hbi]
    · by_cases hlj : l = j
      · rw [hlj, hbj]
      · simp [hli, hlj]

section
variable (w : BitVec 43)

/-- IDLE's match and mask: `d_req = 0`, `i_req = 0` (30_encoding R84). -/
theorem idle_match_iff :
    w &&& 0x50000000000#43 = 0x00000000000#43 ↔ w.getLsbD 42 = false ∧ w.getLsbD 40 = false :=
  and_eq_iff_of_two_bits (by decide) (by decide) (by decide) (by decide)

/-- IFETCH's match and mask: `d_req = 0`, `i_req = 1` (30_encoding R84). -/
theorem ifetch_match_iff :
    w &&& 0x50000000000#43 = 0x10000000000#43 ↔ w.getLsbD 42 = false ∧ w.getLsbD 40 = true :=
  and_eq_iff_of_two_bits (by decide) (by decide) (by decide) (by decide)

/-- DREAD's match and mask: `d_req = 1`, `d_we = 0` (30_encoding R84). -/
theorem dread_match_iff :
    w &&& 0x60000000000#43 = 0x40000000000#43 ↔ w.getLsbD 42 = true ∧ w.getLsbD 41 = false :=
  and_eq_iff_of_two_bits (by decide) (by decide) (by decide) (by decide)

/-- DWRITE's match and mask: `d_req = 1`, `d_we = 1` (30_encoding R84). -/
theorem dwrite_match_iff :
    w &&& 0x60000000000#43 = 0x60000000000#43 ↔ w.getLsbD 42 = true ∧ w.getLsbD 41 = true :=
  and_eq_iff_of_two_bits (by decide) (by decide) (by decide) (by decide)

end

/-! The bus operation of each control tuple -/

section
variable {q : Request}

theorem busOperation_idle (hd : q.dReq = false) (hi : q.iReq = false) : busOperation q = .idle q.iAdr := by
  simp only [busOperation, hd, hi]

theorem busOperation_ifetch (hd : q.dReq = false) (hi : q.iReq = true) : busOperation q = .ifetch q.iAdr := by
  simp only [busOperation, hd, hi]

theorem busOperation_dread (hd : q.dReq = true) (hw : q.dWe = false) : busOperation q = .dread q.dAdr := by
  simp only [busOperation, hd, hw]

theorem busOperation_dwrite (hd : q.dReq = true) (hw : q.dWe = true) : busOperation q = .dwrite q.dAdr q.dDatW := by
  simp only [busOperation, hd, hw]

end

/-- Settles O3: each match and mask fixes the two wires its row tests, and each control tuple has them so for a row. -/
theorem controlTupleSelectsTheBusOperation : Obligations.ControlTupleSelectsTheBusOperation := by
  unfold Obligations.ControlTupleSelectsTheBusOperation
  intro w
  simp only [decode_control_toNat, Except.ok.injEq, idle_match_iff, ifetch_match_iff, dread_match_iff,
    dwrite_match_iff]
  refine ⟨fun ⟨hd, hi⟩ => busOperation_idle hd hi, fun ⟨hd, hi⟩ => busOperation_ifetch hd hi,
    fun ⟨hd, hw⟩ => busOperation_dread hd hw, fun ⟨hd, hw⟩ => busOperation_dwrite hd hw, ?_⟩
  cases w.getLsbD 42 with
  | false => cases w.getLsbD 40 <;> simp
  | true => cases w.getLsbD 41 <;> simp

/-- Settles O4: each word lies below its format's width, and its fields evaluate to the operands. -/
theorem writtenOutWordsDecode : Obligations.WrittenOutWordsDecode := by
  unfold Obligations.WrittenOutWordsDecode
  decide

/-! When a word is rejected -/

/-- A single check rejects exactly where it fails. -/
theorem ite_ok_error_eq_iff {ε α : Type} (p : Prop) [Decidable p] (x : α) (e : ε) :
    (if p then Except.ok x else .error e) = .error e ↔ ¬ p := by
  split
  · next h => simp [h]
  · next h => simp [h]

theorem decode_control_bitsAbove_iff (w : Nat) : decode .control w = .error .bitsAbove ↔ 2 ^ 43 ≤ w := by
  simp only [decode, ite_ok_error_eq_iff, not_lt]

theorem decode_readPath_bitsAbove_iff (t : Target) (w : Nat) :
    decode (.readPath t) w = .error .bitsAbove ↔ 2 ^ 43 ≤ w := by
  simp only [decode, ite_ok_error_eq_iff, not_lt]

theorem decode_toggle_bitsAbove_iff (w : Nat) : decode .toggle w = .error .bitsAbove ↔ 2 ^ 8 ≤ w := by
  simp only [decode, ite_ok_error_eq_iff, not_lt]

theorem decode_writePath_bitsAbove_iff (t : Target) (w : Nat) :
    decode (.writePath t) w = .error .bitsAbove ↔ 2 ^ 43 ≤ w := by
  simp only [decode]
  split
  · next h => simpa using h
  · next h =>
    rw [not_not] at h
    split <;> simpa using h

/-- The two wires that make a number's request a DWRITE are its bits 42 and 41 (30_encoding R83). -/
theorem dReq_and_dWe_ofNat (w : Nat) :
    ((Request.ofWord (BitVec.ofNat 43 w)).dReq && (Request.ofWord (BitVec.ofNat 43 w)).dWe) = true ↔
      w.testBit 42 = true ∧ w.testBit 41 = true := by
  simp only [Request.ofWord, Bool.and_eq_true, BitVec.getLsbD_ofNat, Nat.reduceLT, decide_true, Bool.true_and]

theorem decode_writePath_notAWrite_iff (t : Target) (w : Nat) :
    decode (.writePath t) w = .error .notAWrite ↔ w < 2 ^ 43 ∧ ¬ (w.testBit 42 = true ∧ w.testBit 41 = true) := by
  simp only [decode, dReq_and_dWe_ofNat]
  split
  · next h => simp only [Except.error.injEq, reduceCtorEq, h, false_and]
  · next h =>
    rw [not_not] at h
    split
    · next hw => simp [hw]
    · next hw => simp only [h, hw, not_false_eq_true, and_self]

theorem decode_policy_bitsAbove_iff (c : FieldIn) (w : Nat) :
    decode (.policy c) w = .error .bitsAbove ↔ 2 ^ 2 ≤ w := by
  simp only [decode]
  split
  · next h => simpa using h
  · next h =>
    rw [not_not] at h
    split <;> simpa using h

theorem decode_policy_badField_iff (c : FieldIn) (w : Nat) :
    decode (.policy c) w = .error .badField ↔ w < 2 ^ 2 ∧ 7 < c.key.offset := by
  simp only [decode, FieldKey.wf, decide_eq_true_eq]
  split
  · next h => simp only [Except.error.injEq, reduceCtorEq, h, false_and]
  · next h =>
    rw [not_not] at h
    split
    · next hk =>
      simp only [reduceCtorEq, false_iff]
      omega
    · next hk =>
      simp only [true_iff]
      omega

/-- The test of a channel's field and size as a proposition (10_state R25). -/
theorem channelFits_iff (k : FieldKey) (n : Nat) :
    (k.wf && decide (1 ≤ n) && decide (k.offset + n ≤ 8)) = true ↔ k.offset ≤ 7 ∧ 1 ≤ n ∧ k.offset + n ≤ 8 := by
  simp only [FieldKey.wf, Bool.and_eq_true, decide_eq_true_eq, and_assoc]

theorem decode_hwChannel_bitsAbove_iff (k : FieldKey) (n w : Nat) :
    decode (.hwChannel k n) w = .error .bitsAbove ↔ 2 ^ (n + 1) ≤ w := by
  simp only [decode]
  split
  · next h => simpa using h
  · next h =>
    rw [not_not] at h
    split
    · simpa using h
    · split <;> simpa using h

theorem decode_hwChannel_badField_iff (k : FieldKey) (n w : Nat) :
    decode (.hwChannel k n) w = .error .badField ↔
      w < 2 ^ (n + 1) ∧ ¬ (k.offset ≤ 7 ∧ 1 ≤ n ∧ k.offset + n ≤ 8) := by
  simp only [decode, channelFits_iff]
  split
  · next h => simp [h]
  · next h =>
    rw [not_not] at h
    split
    · next hk => simp only [h, hk, not_false_eq_true, and_self]
    · next hk =>
      rw [not_not] at hk
      split <;> simp [hk]

/-- Below `2^(n+1)`, bit `n` is 0 exactly below `2^n`. -/
theorem testBit_eq_true_iff_le {n w : Nat} (hw : w < 2 ^ (n + 1)) : w.testBit n = true ↔ 2 ^ n ≤ w :=
  ⟨Nat.ge_two_pow_of_testBit, fun h => Nat.testBit_of_two_pow_le_and_two_pow_add_one_gt h hw⟩

theorem decode_hwChannel_noEvent_iff (k : FieldKey) (n w : Nat) :
    decode (.hwChannel k n) w = .error .noEvent ↔ w < 2 ^ n ∧ k.offset ≤ 7 ∧ 1 ≤ n ∧ k.offset + n ≤ 8 := by
  simp only [decode, channelFits_iff]
  split
  · next h =>
    rw [pow_succ] at h
    simp only [Except.error.injEq, reduceCtorEq, false_iff]
    omega
  · next h =>
    rw [not_not] at h
    split
    · next hk => simp [hk]
    · next hk =>
      rw [not_not] at hk
      split
      · next hbit =>
        rw [testBit_eq_true_iff_le h] at hbit
        simp [hbit]
      · next hbit =>
        rw [testBit_eq_true_iff_le h, not_le] at hbit
        simp [hbit, hk]

/-- Settles O5: one lemma per place and name of rejection. -/
theorem wordsAboveTheirWidthAreRejected : Obligations.WordsAboveTheirWidthAreRejected := by
  unfold Obligations.WordsAboveTheirWidthAreRejected
  exact fun w => ⟨decode_control_bitsAbove_iff w, (decode_readPath_bitsAbove_iff · w),
    (decode_writePath_bitsAbove_iff · w), (decode_writePath_notAWrite_iff · w), (decode_policy_bitsAbove_iff · w),
    (decode_policy_badField_iff · w), (decode_hwChannel_bitsAbove_iff · · w), (decode_hwChannel_badField_iff · · w),
    (decode_hwChannel_noEvent_iff · · w), decode_toggle_bitsAbove_iff w⟩

end Sys2Proof

/-! SUPPORT. The step said once, and the invariant of the block (10_state sections 1 and 5): every cycle keeps it and
every reset state has it; with them obligations O6 to O8, O14, O15 and O46 to O48. -/

namespace Sys2Proof.Machine

/-! What a step can do -/

theorem step_of_no_inputs {s : State} (h : s.inputs = []) : step s = .refused .noInput := by
  simp only [step, fetch, h, List.head?_nil]

/-- A step that answers a next state is the composed step of the first of its inputs. -/
theorem step_eq_next {s t : State} (h : step s = .next t) :
    ∃ i rest, s.inputs = i :: rest ∧ t = (composedStep s i.req).withInputs rest := by
  cases hin : s.inputs with
  | nil =>
    rw [step_of_no_inputs hin] at h
    cases h
  | cons i rest =>
    rw [step_eq_composedStep s i rest hin] at h
    exact ⟨i, rest, rfl, (Host.Outcome.next.inj h).symm⟩

/-- Settles O6: the word of the cycle decodes to its bus operation, which is the composed step; the tick keeps the
configuration and the inputs. -/
theorem stepRunsTheDecodedOperation : Obligations.StepRunsTheDecodedOperation := by
  unfold Obligations.StepRunsTheDecodedOperation
  intro s i rest op h hop
  rw [decode_control_word] at hop
  obtain rfl := Except.ok.inj hop
  exact ⟨_, exec_busOperation s i.req, step_eq_composedStep s i rest h, h, rfl⟩

/-- Settles O7: nothing is fetched. -/
theorem stepWithoutInputsIsRefused : Obligations.StepWithoutInputsIsRefused := by
  unfold Obligations.StepWithoutInputsIsRefused
  exact fun s => step_of_no_inputs

/-- Settles O8: the bus operation of every control tuple is the composed step of its wires. -/
theorem stepIsTheComposedCycle : Obligations.StepIsTheComposedCycle := by
  unfold Obligations.StepIsTheComposedCycle
  exact step_eq_composedStep

/-! The bytes of memory stay inside the MemoryRegions -/

/-- A byte of a MemoryRegion is a cell that the configuration owns. -/
theorem ownedCell_of_holds {c : Cfg} {r : Region} (hr : r ∈ c.regions) {o : MemOptions} (ho : r.resource = .mem o)
    {x : Nat} (hx : RegionHolds r x) : ownedCell c x = true := by
  obtain ⟨hlow, hhigh⟩ := hx
  refine List.any_eq_true.2 ⟨r, hr, ?_⟩
  simp only [isMem, ho, hlow, hhigh, decide_true, Bool.and_self]

/-- The byte write of a region of the configuration lists owned cells only. -/
theorem ownedCell_of_mem_writeByte {c : Cfg} {m : Memory} (hm : ∀ p ∈ m, ownedCell c p.1 = true) {r : Region}
    (hr : r ∈ c.regions) {o : MemOptions} (ho : r.resource = .mem o) (l : Addr) (v : Byte) :
    ∀ p ∈ writeByte m r o l v, ownedCell c p.1 = true := by
  intro p hp
  unfold writeByte at hp
  split at hp
  · next hw =>
    rw [Bool.and_eq_true, decide_eq_true_eq] at hw
    obtain ⟨-, hl⟩ := hw
    rcases Memory.mem_write m _ v p hp with hold | ⟨rfl, -⟩
    · exact hm p hold
    · exact ownedCell_of_holds hr ho (holds_cellAddr hl)
  · exact hm p hp

/-- A MemoryRegion that an address reaches is one of the configuration's. -/
theorem region_of_resolve_mem {c : Cfg} {a : Addr} {r : Region} {o : MemOptions} (h : resolve c a = .mem r o) :
    r ∈ c.regions ∧ r.resource = .mem o := by
  obtain ⟨k, hd, ho⟩ := (resolve_eq_mem c a r o).1 h
  obtain ⟨hk, -⟩ := decodeAddr_eq_some c a r k hd
  exact ⟨List.mem_of_getElem? hk, ho⟩

theorem Inv.ownedCell_nextMem {s : State} (hi : Inv s) (a : Addr) (wr : Option Byte) :
    ∀ p ∈ nextMem s a wr, ownedCell s.cfg p.1 = true := by
  unfold nextMem
  split
  · next r o hres =>
    obtain ⟨hr, ho⟩ := region_of_resolve_mem hres
    exact ownedCell_of_mem_writeByte hi.memOwned hr ho _ _
  · exact hi.memOwned

/-! The stored fields stay within their bits -/

/-- What `fieldFits` says of a field that the configuration describes. -/
theorem fieldFits_iff (c : Cfg) (k : FieldKey) (v : Byte) :
    fieldFits c (k, v) = true ↔ ∀ f, fieldAt c k = some f → v.toNat < 2 ^ f.size := by
  unfold fieldFits
  cases h : fieldAt c k with
  | none => simp
  | some f => simp

theorem Inv.fieldFits_nextFlds {s : State} (hi : Inv s) (a : Addr) (wr : Option Byte) (evs : List HwEvent) :
    ∀ p ∈ nextFlds s a wr evs, fieldFits s.cfg p = true := by
  rw [nextFlds_eq_map, List.forall_mem_map]
  intro ⟨k, v⟩ hp
  refine (fieldFits_iff s.cfg k _).2 fun f hf => ?_
  have hold : v.toNat < 2 ^ f.size := (fieldFits_iff s.cfg k v).1 (hi.fits _ hp) f hf
  simp only [nextAt, hf]
  exact nextField_lt f v _ (size_le_of_fieldAt s.cfg hi.valid k f hf) hold

/-! Every step keeps the invariant -/

/-- One tick keeps the invariant, where not both masters are acknowledged. -/
theorem Inv.after_tick {s : State} (hi : Inv s) (a : Addr) (wr : Option Byte) {d e : Bool}
    (hack : ¬ (d = true ∧ e = true)) : Inv (tick s a wr d e) where
  valid := hi.valid
  finalized := hi.finalized
  memCanonical := nextMem_wf s hi.memCanonical a wr
  memOwned := hi.ownedCell_nextMem a wr
  keys := (keys_nextFlds s a wr (hwNow s)).trans hi.keys
  fits := hi.fieldFits_nextFlds a wr (hwNow s)
  oneAck := hack

/-- The invariant does not look at the inputs. -/
theorem Inv.withInputs {s : State} (hi : Inv s) (l : List In) : Inv (s.withInputs l) :=
  ⟨hi.valid, hi.finalized, hi.memCanonical, hi.memOwned, hi.keys, hi.fits, hi.oneAck⟩

theorem Inv.after_composedStep {s : State} (hi : Inv s) (q : Request) : Inv (composedStep s q) :=
  hi.after_tick _ _ (not_accD_and_accI s q)

/-- Settles O14: the next state is the composed step's, which is one tick with at most one acceptance. -/
theorem stepKeepsTheInvariant : Obligations.StepKeepsTheInvariant := by
  unfold Obligations.StepKeepsTheInvariant
  intro s t hi h
  obtain ⟨i, rest, -, rfl⟩ := step_eq_next h
  exact (hi.after_composedStep i.req).withInputs rest

/-! Every reset state has the invariant -/

theorem initMem_wf (rs : List Region) (m : Memory) (hm : m.wf) : (initMem m rs).wf := by
  induction rs generalizing m with
  | nil => exact hm
  | cons r rest ih =>
    rw [initMem_cons]
    exact ih _ (Memory.load_wf _ m hm _)

/-- A cell after bytes are loaded is an old one or lies among the loaded ones. -/
theorem Memory.mem_load (bytes : List Byte) (m : Memory) (a : Nat) (p : Host.Cell) (hp : p ∈ m.load a bytes) :
    p ∈ m ∨ (a ≤ p.1 ∧ p.1 < a + bytes.length) := by
  induction bytes generalizing m a with
  | nil => exact .inl hp
  | cons b rest ih =>
    rw [List.length_cons]
    rcases ih _ _ hp with h | ⟨hlow, hhigh⟩
    · rcases Memory.mem_write m a b p h with hold | ⟨rfl, -⟩
      · exact .inl hold
      · exact .inr ⟨le_refl a, by omega⟩
    · exact .inr ⟨by omega, by omega⟩

/-- The images of accepted regions list owned cells only. -/
theorem ownedCell_initMem (c : Cfg) (rs : List Region) (hsub : ∀ r ∈ rs, r ∈ c.regions)
    (hok : ∀ r ∈ rs, resourceOk r = true) (m : Memory) (hm : ∀ p ∈ m, ownedCell c p.1 = true) :
    ∀ p ∈ initMem m rs, ownedCell c p.1 = true := by
  induction rs generalizing m with
  | nil => exact hm
  | cons r rest ih =>
    rw [List.forall_mem_cons] at hsub hok
    rw [initMem_cons]
    refine ih hsub.2 hok.2 _ fun p hp => ?_
    rcases Memory.mem_load _ m _ p hp with hold | ⟨hlow, hhigh⟩
    · exact hm p hold
    · have hlen := regionImage_length_le hok.1
      cases hres : r.resource with
      | mem o => exact ownedCell_of_holds hsub.1 hres ⟨hlow, by omega⟩
      | bank b =>
        simp only [regionImage, hres, List.length_nil] at hhigh
        omega

/-- A stored field's reset value fits it (CE13). -/
theorem fieldFits_initState {c : Cfg} (hc : ValidCfg c) : ∀ p ∈ (initState c).flds, fieldFits c p = true := by
  rw [initState_flds, List.forall_mem_map]
  intro ⟨k, f⟩ hk
  refine (fieldFits_iff c k _).2 fun g hg => ?_
  obtain rfl : f = g := Option.some.inj ((fieldAt_of_stored c hc k f hk).symm.trans hg)
  obtain ⟨-, -, hreset, -⟩ := fieldOk_of_fieldAt c hc k f hg
  rw [BitVec.toNat_ofNat]
  exact (Nat.mod_le _ _).trans_lt hreset

theorem inv_initState {c : Cfg} (hc : ValidCfg c) (hfin : allFinalized c = true) : Inv (initState c) where
  valid := hc
  finalized := hfin
  memCanonical := initMem_wf _ _ (by simp [Memory.wf])
  memOwned := by
    obtain ⟨-, hok, -, -⟩ := hc
    exact ownedCell_initMem c c.regions (fun _ h => h) hok [] (by simp)
  keys := keys_initState c
  fits := fieldFits_initState hc
  oneAck := by simp [initState]

/-- Settles O46: images lie inside their regions, and reset values inside their fields. -/
theorem initialStateMeetsTheInvariant : Obligations.InitialStateMeetsTheInvariant := by
  unfold Obligations.InitialStateMeetsTheInvariant
  exact fun c => inv_initState

/-! The reset state of the reference configuration -/

theorem validCfg_refCfg : ValidCfg (refCfg []) := by decide

/-- The model's reset is the reset state of REFCFG without an image (log 1, log 3). -/
theorem initState_refCfg : initState (refCfg []) = State.reset := by decide

/-- Settles O15: the reset state is that of the reference configuration, which is valid and finalized. -/
theorem resetMeetsTheInvariant : Obligations.ResetMeetsTheInvariant := by
  unfold Obligations.ResetMeetsTheInvariant
  exact initState_refCfg ▸ inv_initState validCfg_refCfg (by decide)

theorem powerOn_refCfg : powerOn (refCfg []) = .next State.reset := by
  have hbuilt : construct (refCfg []) = .ok (refCfg []) := by decide
  have hfin : allFinalized (refCfg []) = true := by decide
  simp only [powerOn, hbuilt, startRun, hfin, if_true, initState_refCfg]

/-- Settles O47: the read path of a reset state is 0 by definition, and the reference configuration constructs. -/
theorem resetIsTheReferenceStart : Obligations.ResetIsTheReferenceStart := by
  unfold Obligations.ResetIsTheReferenceStart
  exact ⟨fun c => ⟨rfl, rfl, rfl, rfl⟩, powerOn_refCfg, rfl⟩

/-- Settles O48: the outputs are read off the response word and the acknowledges. -/
theorem outputsShowTheSharedResponse : Obligations.OutputsShowTheSharedResponse := by
  unfold Obligations.OutputsShowTheSharedResponse
  refine ⟨fun s => ⟨rfl, ?_, rfl, rfl, rfl, rfl⟩, fun s t hresp hd hi => ?_⟩
  · simp only [outputs, BitVec.extractLsb'_toNat, Nat.shiftRight_zero, Nat.reducePow]
  · simp only [outputs, hresp, hd, hi]

end Sys2Proof.Machine

/-! SUPPORT. The response word by the resource it is read from, and the frame of a tick by what its write reaches
(41_arbiter section 3, 45_cycle_step R233 to R237); with them obligations O12, O17 to O21 and O56. -/

namespace Sys2Proof.Machine

/-! The read value of each resource -/

section
variable {s : State} {a : Addr}

theorem readValue_of_unmapped (h : resolve s.cfg a = .unmapped) : readValue s a = 0#32 := by
  simp only [readValue, h]

theorem readValue_of_narrow {r : Region} {o : MemOptions} (h : resolve s.cfg a = .mem r o) (hw : o.wide = false) :
    readValue s a = readNarrow s.mem r (localAddr r a) := by
  simp only [readValue, h, hw, Bool.false_eq_true, if_false]

theorem readValue_of_wide {r : Region} {o : MemOptions} (h : resolve s.cfg a = .mem r o) (hw : o.wide = true) :
    readValue s a = readWide s.mem r (localAddr r a) := by
  simp only [readValue, h, hw, if_true]

theorem readValue_of_bank {k : Nat} {b : Bank} (h : resolve s.cfg a = .bank k b) :
    readValue s a = bankValue s k b a := by
  simp only [readValue, h]

end

/-- A zero-extended byte is the byte as a number. -/
theorem toNat_setWidth_byte (v : Byte) : (v.setWidth 32).toNat = v.toNat :=
  BitVec.toNat_setWidth_of_le (by decide)

theorem readNarrow_toNat (m : Memory) (r : Region) (l : Addr) : (readNarrow m r l).toNat = (regionByte m r l).toNat :=
  toNat_setWidth_byte _

/-- Lane `n` of four concatenated bytes, the first of them the highest. -/
theorem extractLsb'_lanes (b₃ b₂ b₁ b₀ : Byte) :
    (b₃ ++ b₂ ++ b₁ ++ b₀).extractLsb' 0 8 = b₀ ∧ (b₃ ++ b₂ ++ b₁ ++ b₀).extractLsb' 8 8 = b₁ ∧
      (b₃ ++ b₂ ++ b₁ ++ b₀).extractLsb' 16 8 = b₂ ∧ (b₃ ++ b₂ ++ b₁ ++ b₀).extractLsb' 24 8 = b₃ := by
  refine ⟨?_, ?_, ?_, ?_⟩ <;>
  · refine BitVec.eq_of_getLsbD_eq fun i hi => ?_
    simp only [BitVec.getLsbD_extractLsb', BitVec.getLsbD_append, hi, decide_true, Bool.true_and]
    grind

/-- Bits `8n+7` to `8n` of a wide read are the byte of lane `n` (42_memory_region R152). -/
theorem extractLsb'_readWide (m : Memory) (r : Region) (l : Addr) {n : Nat} (hn : n < 4) :
    (readWide m r l).extractLsb' (8 * n) 8 = regionByte m r (laneAddr l n) := by
  obtain ⟨h0, h1, h2, h3⟩ := extractLsb'_lanes (regionByte m r (laneAddr l 3)) (regionByte m r (laneAddr l 2))
    (regionByte m r (laneAddr l 1)) (regionByte m r (laneAddr l 0))
  match n, hn with
  | 0, _ => exact h0
  | 1, _ => exact h1
  | 2, _ => exact h2
  | 3, _ => exact h3

theorem bankValue_of_register {s : State} {k : Nat} {b : Bank} {a : Addr} {g : Register}
    (h : registerAt b a = some g) : (bankValue s k b a).toNat = (regValue s k g).toNat := by
  simp only [bankValue, h]
  exact toNat_setWidth_byte _

theorem bankValue_of_hole {s : State} {k : Nat} {b : Bank} {a : Addr} (h : registerAt b a = none) :
    bankValue s k b a = 0#32 := by
  simp only [bankValue, h]

/-- Settles O12: the step is the composed step, whose response word is the read value of the bus address, one case per
resource. -/
theorem readPathAfterACycle : Obligations.ReadPathAfterACycle := by
  unfold Obligations.ReadPathAfterACycle
  intro s i rest h
  refine ⟨_, step_eq_composedStep s i rest h, fun hnone => ?unmapped, fun r k o hd ho hw => ?narrow,
    fun r k o hd ho hw n hn => ?wide, fun r k b hd hb => ?bank⟩
  case unmapped => exact readValue_of_unmapped ((resolve_eq_unmapped s.cfg _).2 hnone)
  case narrow =>
    have hres := (resolve_eq_mem s.cfg _ r o).2 ⟨k, hd, ho⟩
    exact (congrArg BitVec.toNat (readValue_of_narrow hres hw)).trans (readNarrow_toNat s.mem r _)
  case wide =>
    have hres := (resolve_eq_mem s.cfg _ r o).2 ⟨k, hd, ho⟩
    exact (congrArg (·.extractLsb' (8 * n) 8) (readValue_of_wide hres hw)).trans (extractLsb'_readWide s.mem r _ hn)
  case bank =>
    have hread := readValue_of_bank ((resolve_eq_bank s.cfg _ k b).2 ⟨r, hd, hb⟩)
    exact ⟨fun g hg => (congrArg BitVec.toNat hread).trans (bankValue_of_register hg),
      fun hhole => hread.trans (bankValue_of_hole hhole)⟩

/-! The frame of a tick -/

section
variable (s : State) (a : Addr) (wr : Option Byte) (d i : Bool)

theorem tick_environmentKept : EnvironmentKept s (tick s a wr d i) := ⟨rfl, rfl⟩

variable {s a wr}

/-- A tick whose write reaches no MemoryRegion, or that has none, keeps every byte. -/
theorem tick_memoryKept (h : nextMem s a wr = s.mem) : MemoryKept s (tick s a wr d i) := fun x => by
  rw [tick_mem, h]

/-- A tick whose write reaches no bank, or that has none, strobes no field. -/
theorem tick_fieldsAdvance_quiet (h : ∀ k, (wr.isSome && strobed s.cfg a k) = false) :
    FieldsAdvance s (tick s a wr d i) (fun _ => false) 0 := by
  refine (tick_fieldsAdvance s a wr d i).congr (funext h) ?_
  rintro ⟨k, hk⟩
  exact absurd ((h k).symm.trans hk) Bool.false_ne_true

end

/-- Outside the banks nothing is strobed. -/
theorem strobed_eq_false {c : Cfg} {a : Addr} (h : ∀ n b, resolve c a ≠ .bank n b) (k : FieldKey) :
    strobed c a k = false := by
  rw [Bool.eq_false_iff]
  intro hk
  obtain ⟨b, hb, -⟩ := (strobed_eq_true c a k).1 hk
  exact h _ b hb

/-- A tick without a write: no byte of memory and no field is written (41_arbiter R143 to R145). -/
theorem tick_quiet (s : State) (a : Addr) (d i : Bool) :
    MemoryKept s (tick s a none d i) ∧ EnvironmentKept s (tick s a none d i) ∧
      FieldsAdvance s (tick s a none d i) (fun _ => false) 0 ∧ TogglesAdvance s (tick s a none d i) :=
  ⟨tick_memoryKept d i rfl, tick_environmentKept s a none d i, tick_fieldsAdvance_quiet d i fun _ => rfl,
    tick_togglesAdvance s a none d i⟩

/-- Settles O17: each reading operation is a tick without a write. -/
theorem readingOperationsResultAndFrame : Obligations.ReadingOperationsResultAndFrame := by
  unfold Obligations.ReadingOperationsResultAndFrame
  exact fun s a => ⟨⟨_, exec_idle s a, rfl, rfl, rfl, tick_quiet s a _ _⟩,
    ⟨_, exec_ifetch s a, rfl, rfl, ungated_eq_true s s.ackI, tick_quiet s a _ _⟩,
    ⟨_, exec_dread s a, rfl, ungated_eq_true s s.ackD, rfl, tick_quiet s a _ _⟩⟩

/-- A DWRITE that is not held is accepted (41_arbiter R146). -/
theorem exec_dwrite_accepted {s : State} (h : NotHeld s s.ackD) (a : Addr) (v : Byte) :
    exec (.dwrite a v) s = .next (tick s a (some v) true false) := by
  rw [exec_dwrite, (ungated_eq_true s s.ackD).2 h, if_pos rfl]

/-- A DWRITE held through its own acknowledge is not accepted (41_arbiter R134). -/
theorem exec_dwrite_held {s : State} (hc : s.cfg.handshake = .classic) (hack : s.ackD = true) (a : Addr) (v : Byte) :
    exec (.dwrite a v) s = .next (tick s a none false false) := by
  rw [exec_dwrite, (ungated_eq_false s s.ackD).2 ⟨hc, hack⟩, if_neg Bool.false_ne_true]

/-- Settles O18: the accepted byte lands by the region's byte write, and no bank is addressed. -/
theorem dwriteToMemoryResultAndFrame : Obligations.DwriteToMemoryResultAndFrame := by
  unfold Obligations.DwriteToMemoryResultAndFrame
  intro s a v r o hres hm hheld
  have hquiet (k : FieldKey) : ((some v).isSome && strobed s.cfg a k) = false :=
    strobed_eq_false (fun n b hb => by cases hres.symm.trans hb) k
  refine ⟨_, exec_dwrite_accepted hheld a v, rfl, rfl, rfl, tick_environmentKept s a _ _ _,
    tick_fieldsAdvance_quiet _ _ hquiet, tick_togglesAdvance s a _ _ _, fun x => ?_⟩
  rw [tick_mem, nextMem_mem s a v r o hres, read_writeByte s.mem hm]
  exact if_congr and_assoc rfl rfl

/-- Settles O19: the strobes of the tick are those of the fields of the register at the address, and no MemoryRegion is
addressed. -/
theorem dwriteToRegisterResultAndFrame : Obligations.DwriteToRegisterResultAndFrame := by
  unfold Obligations.DwriteToRegisterResultAndFrame
  intro s a v k b hres hheld
  have hmem : nextMem s a (some v) = s.mem := nextMem_other s a _ fun r o hr => by cases hres.symm.trans hr
  have hstrobe : (fun key : FieldKey => (some v).isSome && strobed s.cfg a key) =
      fun key => decide (key.bank = k) && decide (key.addr = a) := by
    simp only [strobed, hres, Option.isSome_some, Bool.true_and]
  exact ⟨_, exec_dwrite_accepted hheld a v, rfl, rfl, rfl, tick_memoryKept _ _ hmem, tick_environmentKept s a _ _ _,
    tick_togglesAdvance s a _ _ _, (tick_fieldsAdvance s a _ _ _).congr hstrobe fun _ => rfl⟩

/-- On an unmapped address a tick answers 0 and writes nothing, whatever its write (the spec's decision D3). -/
theorem tick_unmapped {s : State} {a : Addr} (h : resolve s.cfg a = .unmapped) (wr : Option Byte) (d i : Bool) :
    (tick s a wr d i).resp = 0#32 ∧ MemoryKept s (tick s a wr d i) ∧
      FieldsAdvance s (tick s a wr d i) (fun _ => false) 0 := by
  have hmem : nextMem s a wr = s.mem := nextMem_other s a wr fun r o hr => by cases h.symm.trans hr
  have hquiet (k : FieldKey) : (wr.isSome && strobed s.cfg a k) = false := by
    rw [strobed_eq_false (fun n b hb => by cases h.symm.trans hb) k, Bool.and_false]
  exact ⟨readValue_of_unmapped h, tick_memoryKept d i hmem, tick_fieldsAdvance_quiet d i hquiet⟩

/-- Settles O20: the accepted write reaches nothing. -/
theorem dwriteToUnmappedResultAndFrame : Obligations.DwriteToUnmappedResultAndFrame := by
  unfold Obligations.DwriteToUnmappedResultAndFrame
  intro s a v hres hheld
  obtain ⟨hresp, hmem, hflds⟩ := tick_unmapped hres (some v) true false
  exact ⟨_, exec_dwrite_accepted hheld a v, hresp, rfl, rfl, hmem, tick_environmentKept s a _ _ _, hflds,
    tick_togglesAdvance s a _ _ _⟩

/-- Settles O21: a write that is not accepted is a tick without one. -/
theorem heldDwriteIsNotAccepted : Obligations.HeldDwriteIsNotAccepted := by
  unfold Obligations.HeldDwriteIsNotAccepted
  exact fun s a v hc hack => ⟨_, exec_dwrite_held hc hack a v, rfl, rfl, rfl, tick_quiet s a _ _⟩

/-- Settles O56: the step is the composed step, a tick on an unmapped address. -/
theorem unmappedCycleStoresNothing : Obligations.UnmappedCycleStoresNothing := by
  unfold Obligations.UnmappedCycleStoresNothing
  intro s i rest h hres
  obtain ⟨hresp, hmem, hflds⟩ := tick_unmapped hres (writtenByte s i.req) (accD s i.req) (accI s i.req)
  exact ⟨_, step_eq_composedStep s i rest h, hresp, rfl, rfl, hmem, hflds⟩

end Sys2Proof.Machine

/-! SUPPORT. The micro-operations taken alone (log 5, log 6): what each assigns where its row's resource, field or
binding is there, and that it assigns nothing where it is not; with them obligations O22 to O25, O28 to O31, O35 and
O58. -/

namespace Sys2Proof.Machine

/-! The arms of `exec` -/

section
variable (s : State) (a : Addr) (v : Byte) (c : FieldIn)

theorem exec_memRd8 : exec (.memRd8 a) s = execMemRd8 a s := rfl
theorem exec_memRd32 : exec (.memRd32 a) s = execMemRd32 a s := rfl
theorem exec_regRd : exec (.regRd a) s = execRegRd a s := rfl
theorem exec_unmappedRd : exec (.unmappedRd a) s = execUnmappedRd a s := rfl
theorem exec_memWr8 : exec (.memWr8 a v) s = execMemWr8 a v s := rfl
theorem exec_regWr : exec (.regWr a v) s = execRegWr a v s := rfl
theorem exec_unmappedWr : exec (.unmappedWr a v) s = .next s := rfl
theorem exec_fldRw : exec (.fldRw c) s = onField .readWrite (fun f cur => policyReadWrite f cur c) c.key s := rfl
theorem exec_fldRo : exec (.fldRo c) s = onField .readOnly (fun f cur => policyReadOnly f cur c) c.key s := rfl
theorem exec_fldPulse : exec (.fldPulse c) s = onField .pulse (fun f _ => policyPulse f c) c.key s := rfl
theorem exec_fldCow :
    exec (.fldCow c) s = onField .clearOnWrite (fun f cur => policyClearOnWrite f cur c) c.key s := rfl
theorem exec_togHold (d : Bool) (e : BitVec 4) : exec (.togHold d e) s = onToggle false false d e s := rfl

end

/-! Reads and writes by resource -/

section
variable {s : State} {a : Addr}

theorem exec_memRd8_of_narrow {r : Region} {o : MemOptions} (h : resolve s.cfg a = .mem r o) (hw : o.wide = false) :
    exec (.memRd8 a) s = .next (s.withResp (readNarrow s.mem r (localAddr r a))) := by
  simp only [exec_memRd8, execMemRd8, h, hw, Bool.false_eq_true, if_false]

theorem exec_memRd32_of_wide {r : Region} {o : MemOptions} (h : resolve s.cfg a = .mem r o) (hw : o.wide = true) :
    exec (.memRd32 a) s = .next (s.withResp (readWide s.mem r (localAddr r a))) := by
  simp only [exec_memRd32, execMemRd32, h, hw, if_true]

theorem exec_regRd_of_bank {k : Nat} {b : Bank} (h : resolve s.cfg a = .bank k b) :
    exec (.regRd a) s = .next (s.withResp (bankValue s k b a)) := by
  simp only [exec_regRd, execRegRd, h]

theorem exec_unmappedRd_of_unmapped (h : resolve s.cfg a = .unmapped) :
    exec (.unmappedRd a) s = .next (s.withResp 0#32) := by
  simp only [exec_unmappedRd, execUnmappedRd, h]

theorem exec_memWr8_of_mem {r : Region} {o : MemOptions} (h : resolve s.cfg a = .mem r o) (v : Byte) :
    exec (.memWr8 a v) s = .next (s.withMem (writeByte s.mem r o (localAddr r a) v)) := by
  simp only [exec_memWr8, execMemWr8, h]

theorem exec_regWr_of_bank {k : Nat} {b : Bank} (h : resolve s.cfg a = .bank k b) (v : Byte) :
    exec (.regWr a v) s = .next (s.withFlds (strobeFlds s a v)) := by
  simp only [exec_regWr, execRegWr, h]

end

/-- Settles O22: the narrow read is the byte of lane 0, the wide one the four lanes. -/
theorem memoryReadsLatchTheirBytes : Obligations.MemoryReadsLatchTheirBytes := by
  unfold Obligations.MemoryReadsLatchTheirBytes
  intro s a r o h byte
  have hbyte (n : Nat) : regionByte s.mem r (laneAddr (localAddr r a) n) = byte n := rfl
  refine ⟨fun hw => ⟨_, exec_memRd8_of_narrow h hw, rfl, ?_⟩,
    fun hw => ⟨_, exec_memRd32_of_wide h hw, rfl, fun n hn => ?_⟩⟩
  · rw [← hbyte 0, laneAddr, BitVec.add_zero]
    exact readNarrow_toNat s.mem r _
  · exact (extractLsb'_readWide s.mem r _ hn).trans (hbyte n)

/-- Settles O23: the region's byte write keeps the canonical form and every other byte. -/
theorem memoryWriteStoresOneByte : Obligations.MemoryWriteStoresOneByte := by
  unfold Obligations.MemoryWriteStoresOneByte
  intro s a v r o h hm
  refine ⟨_, exec_memWr8_of_mem h v, rfl, writeByte_wf s.mem hm r o _ v, fun x => ?_⟩
  rw [State.withMem_mem, read_writeByte s.mem hm]
  exact if_congr and_assoc rfl rfl

/-- Settles O24: the read loads 0, and the write assigns nothing anywhere. -/
theorem unmappedReadAndWriteComplete : Obligations.UnmappedReadAndWriteComplete := by
  unfold Obligations.UnmappedReadAndWriteComplete
  exact fun s a v h => ⟨exec_unmappedRd_of_unmapped h, exec_unmappedWr s a v⟩

/-- Settles O25: the bank's value is its register's, 0 at a hole. -/
theorem registerReadReturnsTheRegister : Obligations.RegisterReadReturnsTheRegister := by
  unfold Obligations.RegisterReadReturnsTheRegister
  exact fun s a k b h => ⟨_, exec_regRd_of_bank h, rfl, fun g hg => bankValue_of_register hg,
    fun hhole => bankValue_of_hole hhole⟩

/-! REG.WR -/

/-- REG.WR stores the same fields. -/
theorem keys_strobeFlds (s : State) (a : Addr) (v : Byte) :
    (strobeFlds s a v).map Prod.fst = s.flds.map Prod.fst := by
  rw [strobeFlds_eq_map, List.map_map]
  exact List.map_congr_left fun _ _ => rfl

/-- In a bank the strobed fields are those of the register at the address. -/
theorem strobed_of_bank {c : Cfg} {a : Addr} {k : Nat} {b : Bank} (h : resolve c a = .bank k b) (key : FieldKey) :
    strobed c a key = true ↔ key.bank = k ∧ key.addr = a := by
  simp only [strobed, h, Bool.and_eq_true, decide_eq_true_eq]

/-- Settles O28: a field of the register takes its policy's value without an event, any other keeps its own. -/
theorem registerWriteStrobesItsFields : Obligations.RegisterWriteStrobesItsFields := by
  unfold Obligations.RegisterWriteStrobesItsFields
  intro s a v k b h
  refine ⟨_, exec_regWr_of_bank h v, rfl, keys_strobeFlds s a v, fun key f cur hf hm hl => ?_⟩
  rw [State.withFlds_flds, lookup_strobeFlds, hl, Option.map_some]
  simp only [strobeAt, hf, strobed_of_bank h]
  by_cases hk : key.bank = k ∧ key.addr = a
  · rw [if_pos hk, if_pos hk]
    cases ha : f.access with
    | readWrite => rw [nextField_of_readWrite hm cur ha, if_pos rfl]
    | readOnly => rw [nextField_of_readOnly_quiet hm cur ha rfl]
    | pulse => rw [nextField_of_pulse hm cur ha, if_pos rfl]
    | clearOnWrite => rw [nextField_of_clearOnWrite_quiet hm cur ha rfl, if_pos rfl]
  · rw [if_neg hk, if_neg hk]

/-! The field policies and HWSET -/

section
variable {s : State} {k : FieldKey} {f : Field}

/-- A stored field of the operation's policy is assigned. -/
theorem onField_of_stored {acc : Access} (next : Field → Byte → Byte) (hf : fieldAt s.cfg k = some f)
    (ha : f.access = acc) (hm : f.mirror = false) :
    onField acc next k s = .next (s.withFlds (setField s.flds k (next f (fieldVal s k)))) := by
  simp only [onField, hf, ha, hm, and_self, if_true]

/-- A mirror field is assigned nothing (43_register_bank R177). -/
theorem onField_of_mirror (acc : Access) (next : Field → Byte → Byte) (hf : fieldAt s.cfg k = some f)
    (hm : f.mirror = true) : onField acc next k s = .next s := by
  simp only [onField, hf, hm, Bool.true_eq_false, and_false, if_false]

/-- A field with a channel is assigned by HWSET of its size. -/
theorem execHwset_of_channel (hf : fieldAt s.cfg k = some f) (hc : hasChannel f = true) (v : Byte) :
    execHwset k f.size v s = .next (s.withFlds (setField s.flds k (hwBits f v))) := by
  simp only [execHwset, hf, hc, decide_true, Bool.and_self, if_true]

theorem fieldVal_of_lookup {cur : Byte} (h : lookupField s.flds k = some cur) : fieldVal s k = cur := by
  rw [fieldVal, h, Option.getD_some]

end

theorem lookup_setField_same {l : List (FieldKey × Byte)} {k : FieldKey} {cur : Byte} (h : lookupField l k = some cur)
    (v : Byte) : lookupField (setField l k v) k = some v := by
  rw [lookup_setField, h, Option.map_some, if_pos rfl]

theorem lookup_setField_ne (l : List (FieldKey × Byte)) {k j : FieldKey} (h : j ≠ k) (v : Byte) :
    lookupField (setField l k v) j = lookupField l j := by
  simp only [lookup_setField, h, if_false, Option.map_id']

/-- What HWSET can act on: a stored ReadOnly or ClearOnWrite field (43_register_bank R175). -/
theorem hasChannel_iff (f : Field) :
    hasChannel f = true ↔ f.mirror = false ∧ (f.access = .readOnly ∨ f.access = .clearOnWrite) := by
  unfold hasChannel
  cases f.access <;> simp

/-- Settles O29: each policy's operation assigns its field the policy's value, of the value it holds. -/
theorem fieldPoliciesGiveTheNextValue : Obligations.FieldPoliciesGiveTheNextValue := by
  unfold Obligations.FieldPoliciesGiveTheNextValue
  intro s c f hf
  refine ⟨fun _ hm => (exec_fldRo s c).trans (onField_of_mirror .readOnly _ hf hm), ?_⟩
  intro cur hm hl fb gives
  have assigns {i : Instr} {acc : Access} (next : Field → Byte → Byte) (hi : exec i s = onField acc next c.key s)
      (ha : f.access = acc) : gives i (next f cur) :=
    ⟨_, hi.trans (onField_of_stored next hf ha hm), rfl,
      fieldVal_of_lookup hl ▸ lookup_setField_same hl _, fun j hj => lookup_setField_ne s.flds hj _⟩
  exact ⟨assigns _ (exec_fldRw s c), assigns _ (exec_fldRo s c), assigns _ (exec_fldPulse s c),
    assigns _ (exec_fldCow s c)⟩

/-- Settles O30: the field has a channel of its size, and a value within its bits is not cut. -/
theorem hwsetAssignsTheField : Obligations.HwsetAssignsTheField := by
  unfold Obligations.HwsetAssignsTheField
  intro s k f cur v hf hm ha hsize hv hl
  have hassign := execHwset_of_channel hf ((hasChannel_iff f).2 ⟨hm, ha⟩) v
  rw [hwBits, and_sizeMask_eq v f.size hsize hv] at hassign
  exact ⟨_, hassign, rfl, lookup_setField_same hl v, fun j hj => lookup_setField_ne s.flds hj v⟩

/-! The toggle operations -/

theorem onToggle_of_bound {s : State} (h : (togKeys s.cfg).isSome = true) (set reset dir : Bool) (ep : BitVec 4) :
    onToggle set reset dir ep s = .next (s.withTog (togAct set reset (indexOf ep dir) s.tog)) := by
  obtain ⟨b, hb⟩ := Option.isSome_iff_exists.1 h
  simp only [onToggle, hb]

theorem onToggle_of_unbound {s : State} (h : togKeys s.cfg = none) (set reset dir : Bool) (ep : BitVec 4) :
    onToggle set reset dir ep s = .next s := by
  simp only [onToggle, h]

/-- Without a pulse the table keeps its value (44_toggle_table R222). -/
theorem togAct_hold (sel : Option Nat) (t : BitVec 7) : togAct false false sel t = t := by cases sel <;> rfl

/-- Settles O31: the bits of the table after the three actions; holding leaves the table, and so the state, as it is. -/
theorem toggleOperationsActOnTheSelectedBit : Obligations.ToggleOperationsActOnTheSelectedBit := by
  unfold Obligations.ToggleOperationsActOnTheSelectedBit
  intro s r d e hb
  refine ⟨⟨_, onToggle_of_bound hb true r d e, rfl, fun j hj => ?set⟩,
    ⟨_, onToggle_of_bound hb false true d e, rfl, fun j hj => ?reset⟩, ?hold⟩
  case set =>
    rw [State.withTog_tog, getLsbD_togAct _ _ _ _ j hj]
    by_cases h : indexOf e d = some j <;> simp [h]
  case reset =>
    rw [State.withTog_tog, getLsbD_togAct _ _ _ _ j hj]
    by_cases h : indexOf e d = some j <;> simp [h]
  case hold =>
    rw [exec_togHold, onToggle_of_bound hb, togAct_hold]
    rfl

/-! Where there is nothing to act on -/

/-- A field operation without a stored field of its policy assigns nothing (log 6). -/
theorem onField_of_not_stored {acc : Access} {k : FieldKey} {s : State}
    (h : ¬ ∃ f, fieldAt s.cfg k = some f ∧ f.access = acc ∧ f.mirror = false) (next : Field → Byte → Byte) :
    onField acc next k s = .next s :=
  ((onField_cases acc next k s).resolve_left fun ⟨f, hf, ha, hm, _⟩ => h ⟨f, hf, ha, hm⟩).2

/-- HWSET without a channel of its size assigns nothing (log 6). -/
theorem execHwset_of_not_channel {k : FieldKey} {n : Nat} {s : State}
    (h : ¬ ∃ f, fieldAt s.cfg k = some f ∧ f.mirror = false ∧
      (f.access = .readOnly ∨ f.access = .clearOnWrite) ∧ f.size = n) (v : Byte) : execHwset k n v s = .next s := by
  refine ((execHwset_cases k n v s).resolve_left fun ⟨f, hf, hc, hn, _⟩ => ?_).2
  obtain ⟨hm, ha⟩ := (hasChannel_iff f).1 hc
  exact h ⟨f, hf, hm, ha, hn⟩

/-- Settles O35: each operation's inversion lemma leaves only the case that assigns nothing. -/
theorem microOperationsDoNothingOffTheirSelection : Obligations.MicroOperationsDoNothingOffTheirSelection := by
  unfold Obligations.MicroOperationsDoNothingOffTheirSelection
  intro s a v c k n r d e
  refine ⟨fun h => ?memRd8, fun h => ?memRd32, fun h => ?regRd, fun h => ?unmappedRd, fun h => ?memWr8, fun h => ?regWr,
    fun _ => exec_unmappedWr s a v, fun h => (exec_fldRw s c).trans (onField_of_not_stored h _),
    fun h => (exec_fldRo s c).trans (onField_of_not_stored h _),
    fun h => (exec_fldPulse s c).trans (onField_of_not_stored h _),
    fun h => (exec_fldCow s c).trans (onField_of_not_stored h _), fun h => execHwset_of_not_channel h v,
    fun h => ⟨onToggle_of_unbound h _ _ _ _, onToggle_of_unbound h _ _ _ _, onToggle_of_unbound h _ _ _ _⟩⟩
  case memRd8 => exact ((execMemRd8_cases a s).resolve_left fun ⟨q, o, hq, hw, _⟩ => h ⟨q, o, hq, hw⟩).2
  case memRd32 => exact ((execMemRd32_cases a s).resolve_left fun ⟨q, o, hq, hw, _⟩ => h ⟨q, o, hq, hw⟩).2
  case regRd => exact ((execRegRd_cases a s).resolve_left fun ⟨i, b, hb, _⟩ => h ⟨i, b, hb⟩).2
  case unmappedRd => exact ((execUnmappedRd_cases a s).resolve_left fun hsel => h hsel.1).2
  case memWr8 => exact ((execMemWr8_cases a v s).resolve_left fun ⟨q, o, hq, _⟩ => h ⟨q, o, hq⟩).2
  case regWr => exact ((execRegWr_cases a v s).resolve_left fun ⟨i, b, hb, _⟩ => h ⟨i, b, hb⟩).2

/-! Every operation completes -/

/-- An outcome is a next state with the same configuration, inputs and stored fields, its memory canonical if it was:
what no operation breaks (30_encoding R98, 60_exceptions R271). -/
def Completes (s : State) (o : Host.Outcome State Fault Refusal) : Prop :=
  ∃ t, o = .next t ∧ EnvironmentKept s t ∧ (s.mem.wf → t.mem.wf) ∧ t.flds.map Prod.fst = s.flds.map Prod.fst

theorem Completes.of_eq {s : State} {o o' : Host.Outcome State Fault Refusal} (h : o = o') (hc : Completes s o') :
    Completes s o :=
  h ▸ hc

section
variable (s : State)

theorem completes_self : Completes s (.next s) := ⟨s, rfl, ⟨rfl, rfl⟩, id, rfl⟩

theorem completes_withResp (w : Word32) : Completes s (.next (s.withResp w)) := ⟨_, rfl, ⟨rfl, rfl⟩, id, rfl⟩

theorem completes_withTog (t : BitVec 7) : Completes s (.next (s.withTog t)) := ⟨_, rfl, ⟨rfl, rfl⟩, id, rfl⟩

theorem completes_withMem {m : Memory} (h : s.mem.wf → m.wf) : Completes s (.next (s.withMem m)) :=
  ⟨_, rfl, ⟨rfl, rfl⟩, h, rfl⟩

theorem completes_withFlds {l : List (FieldKey × Byte)} (h : l.map Prod.fst = s.flds.map Prod.fst) :
    Completes s (.next (s.withFlds l)) :=
  ⟨_, rfl, ⟨rfl, rfl⟩, id, h⟩

theorem completes_tick (a : Addr) (wr : Option Byte) (d i : Bool) : Completes s (.next (tick s a wr d i)) :=
  ⟨_, rfl, ⟨rfl, rfl⟩, fun hm => nextMem_wf s hm a wr, keys_nextFlds s a wr (hwNow s)⟩

theorem completes_onField (acc : Access) (next : Field → Byte → Byte) (k : FieldKey) :
    Completes s (onField acc next k s) := by
  rcases onField_cases acc next k s with ⟨f, -, -, -, h⟩ | ⟨-, h⟩
  · exact .of_eq h (completes_withFlds s (keys_setField _ _ _))
  · exact .of_eq h (completes_self s)

theorem completes_onToggle (set reset dir : Bool) (ep : BitVec 4) : Completes s (onToggle set reset dir ep s) := by
  rcases onToggle_cases set reset dir ep s with ⟨-, h⟩ | ⟨-, h⟩
  · exact .of_eq h (completes_withTog s _)
  · exact .of_eq h (completes_self s)

/-- Every operation of the opcode table completes: one case per row, each by what the row can do. -/
theorem completes_exec (i : Instr) : Completes s (exec i s) := by
  cases i with
  | idle a => exact completes_tick s a _ _ _
  | ifetch a => exact completes_tick s a _ _ _
  | dread a => exact completes_tick s a _ _ _
  | dwrite a v => exact completes_tick s a _ _ _
  | memRd8 a =>
    rcases execMemRd8_cases a s with ⟨_, _, -, -, h⟩ | ⟨-, h⟩
    · exact .of_eq h (completes_withResp s _)
    · exact .of_eq h (completes_self s)
  | memRd32 a =>
    rcases execMemRd32_cases a s with ⟨_, _, -, -, h⟩ | ⟨-, h⟩
    · exact .of_eq h (completes_withResp s _)
    · exact .of_eq h (completes_self s)
  | regRd a =>
    rcases execRegRd_cases a s with ⟨_, _, -, h⟩ | ⟨-, h⟩
    · exact .of_eq h (completes_withResp s _)
    · exact .of_eq h (completes_self s)
  | unmappedRd a =>
    rcases execUnmappedRd_cases a s with ⟨-, h⟩ | ⟨-, h⟩
    · exact .of_eq h (completes_withResp s _)
    · exact .of_eq h (completes_self s)
  | memWr8 a v =>
    rcases execMemWr8_cases a v s with ⟨r, o, -, h⟩ | ⟨-, h⟩
    · exact .of_eq h (completes_withMem s fun hm => writeByte_wf s.mem hm r o _ v)
    · exact .of_eq h (completes_self s)
  | regWr a v =>
    rcases execRegWr_cases a v s with ⟨_, _, -, h⟩ | ⟨-, h⟩
    · exact .of_eq h (completes_withFlds s (keys_strobeFlds s a v))
    · exact .of_eq h (completes_self s)
  | unmappedWr a v => exact completes_self s
  | fldRw c => exact .of_eq (exec_fldRw s c) (completes_onField s _ _ _)
  | fldRo c => exact .of_eq (exec_fldRo s c) (completes_onField s _ _ _)
  | fldPulse c => exact .of_eq (exec_fldPulse s c) (completes_onField s _ _ _)
  | fldCow c => exact .of_eq (exec_fldCow s c) (completes_onField s _ _ _)
  | hwset k n v =>
    rcases execHwset_cases k n v s with ⟨_, -, -, -, h⟩ | ⟨-, h⟩
    · exact .of_eq h (completes_withFlds s (keys_setField _ _ _))
    · exact .of_eq h (completes_self s)
  | togSet r d e => exact completes_onToggle s _ _ _ _
  | togReset d e => exact completes_onToggle s _ _ _ _
  | togHold d e => exact completes_onToggle s _ _ _ _

end

/-- Settles O58: what `Completes` says, of every operation in every state. -/
theorem everyOperationCompletes : Obligations.EveryOperationCompletes := by
  unfold Obligations.EveryOperationCompletes
  exact fun i s => completes_exec s i

end Sys2Proof.Machine

/-! SUPPORT. A cycle as its micro-operations one after another (30_encoding R85, 45_cycle_step R239): each group acts on
its own part of the state, and a policy or an event applied after the strobe of the same cycle gives the value it gives
alone; with them obligation O16. -/

namespace Sys2Proof.Machine

/-! Running operations one after another -/

theorem runOps_cons {i : Instr} {s t : State} (h : exec i s = .next t) (l : List Instr) :
    runOps (i :: l) s = runOps l t := by
  simp only [runOps, h]

theorem runOps_singleton {i : Instr} {s t : State} (h : exec i s = .next t) : runOps [i] s = .next t := runOps_cons h []

theorem runOps_append {l : List Instr} {s t : State} (h : runOps l s = .next t) (l' : List Instr) :
    runOps (l ++ l') s = runOps l' t := by
  induction l generalizing s with
  | nil =>
    obtain rfl := Host.Outcome.next.inj h
    rfl
  | cons i rest ih =>
    obtain ⟨u, hu, -⟩ := completes_exec s i
    rw [runOps_cons hu] at h
    rw [List.cons_append, runOps_cons hu, ih h]

/-! Field storage with every value replaced -/

/-- Every stored value replaced by a function of its key and itself. -/
def mapFlds (g : FieldKey → Byte → Byte) (l : List (FieldKey × Byte)) : List (FieldKey × Byte) :=
  l.map fun p => (p.1, g p.1 p.2)

theorem keys_mapFlds (g : FieldKey → Byte → Byte) (l : List (FieldKey × Byte)) :
    (mapFlds g l).map Prod.fst = l.map Prod.fst := by
  rw [mapFlds, List.map_map]
  rfl

theorem mapFlds_mapFlds (g h : FieldKey → Byte → Byte) (l : List (FieldKey × Byte)) :
    mapFlds g (mapFlds h l) = mapFlds (fun k v => g k (h k v)) l := by
  rw [mapFlds, mapFlds, List.map_map]
  rfl

theorem mapFlds_congr {g h : FieldKey → Byte → Byte} {l : List (FieldKey × Byte)}
    (heq : ∀ k v, (k, v) ∈ l → g k v = h k v) : mapFlds g l = mapFlds h l :=
  List.map_congr_left fun ⟨k, v⟩ hp => congrArg (Prod.mk k) (heq k v hp)

theorem mapFlds_id (l : List (FieldKey × Byte)) : mapFlds (fun _ v => v) l = l := List.map_id' l

/-- The value of one field replaced. -/
def updateAt (k : FieldKey) (g : Byte → Byte) (j : FieldKey) (v : Byte) : Byte := if j = k then g v else v

/-- Assigning a field a function of its value replaces that value, where the keys are distinct. -/
theorem setField_eq_mapFlds {s : State} (hnodup : (s.flds.map Prod.fst).Nodup) (k : FieldKey) (g : Byte → Byte) :
    setField s.flds k (g (fieldVal s k)) = mapFlds (updateAt k g) s.flds := by
  refine (setField_eq_map s.flds k _).trans
    (mapFlds_congr (g := fun j v => if j = k then g (fieldVal s k) else v) fun j v hp => ?_)
  unfold updateAt
  split
  · next hj =>
    subst hj
    rw [fieldVal_of_lookup (lookupField_of_mem s.flds hnodup j v hp)]
  · rfl

/-- Operations that each replace the value of their own field replace the values of all their fields. -/
theorem runOps_flatMap_fields {c : Cfg} {op : FieldKey → List Instr} {g : FieldKey → Byte → Byte}
    (hop : ∀ k (u : State), u.cfg = c → (u.flds.map Prod.fst).Nodup →
      runOps (op k) u = .next (u.withFlds (mapFlds (updateAt k (g k)) u.flds)))
    {ks : List FieldKey} (hks : ks.Nodup) {u : State} (hu : u.cfg = c) (hnodup : (u.flds.map Prod.fst).Nodup) :
    runOps (ks.flatMap op) u = .next (u.withFlds (mapFlds (fun k v => if k ∈ ks then g k v else v) u.flds)) := by
  induction ks generalizing u with
  | nil =>
    simp only [List.flatMap_nil, List.not_mem_nil, if_false, mapFlds_id]
    rfl
  | cons k rest ih =>
    obtain ⟨hk, hrest⟩ := List.nodup_cons.1 hks
    rw [List.flatMap_cons, runOps_append (hop k u hu hnodup),
      ih hrest (u := u.withFlds (mapFlds (updateAt k (g k)) u.flds)) hu (by rwa [State.withFlds_flds, keys_mapFlds]),
      State.withFlds_flds, mapFlds_mapFlds]
    refine congrArg (fun l => Host.Outcome.next (u.withFlds l)) (mapFlds_congr fun j v _ => ?_)
    unfold updateAt
    by_cases hj : j = k
    · subst hj
      simp only [hk, if_true, if_false, List.mem_cons_self]
    · simp only [hj, if_false, List.mem_cons, false_or]

/-! The read, the toggle action and the write -/

/-- The read micro-operation of the addressed resource latches the read value (30_encoding R85). -/
theorem exec_readInstr_target (s : State) (a : Addr) :
    exec (readInstr (target s.cfg a) a) s = .next (s.withResp (readValue s a)) := by
  cases hres : resolve s.cfg a with
  | unmapped =>
    simp only [target, hres, readInstr]
    rw [readValue_of_unmapped hres, exec_unmappedRd_of_unmapped hres]
  | mem r o =>
    cases hw : o.wide with
    | false =>
      simp only [target, hres, hw, Bool.false_eq_true, if_false, readInstr]
      rw [readValue_of_narrow hres hw, exec_memRd8_of_narrow hres hw]
    | true =>
      simp only [target, hres, hw, if_true, readInstr]
      rw [readValue_of_wide hres hw, exec_memRd32_of_wide hres hw]
  | bank k b =>
    simp only [target, hres, readInstr]
    rw [readValue_of_bank hres, exec_regRd_of_bank hres]

/-- The operation a control byte arms acts with the byte's pulses (44_toggle_table R216 to R218). -/
theorem exec_toggleInstr (set reset dir : Bool) (ep : BitVec 4) (s : State) :
    exec (toggleInstr set reset dir ep) s = onToggle set reset dir ep s := by
  cases set with
  | true => rfl
  | false => cases reset <;> rfl

/-- The toggle micro-operation of a cycle gives the table its next value. -/
theorem runOps_toggleOp {s u : State} (hcfg : u.cfg = s.cfg) (htog : u.tog = s.tog) :
    runOps (toggleOp s) u = .next (u.withTog (nextTog s)) := by
  cases hb : togKeys s.cfg with
  | none =>
    simp only [toggleOp, hb, nextTog_of_unbound hb, ← htog]
    rfl
  | some b =>
    have hbound : (togKeys u.cfg).isSome = true := by rw [hcfg, hb, Option.isSome_some]
    simp only [toggleOp, hb]
    refine runOps_singleton ?_
    rw [exec_toggleInstr, onToggle_of_bound hbound, nextTog_of_bound hb, htog]
    rfl

/-- What the strobe of a cycle's accepted write, if there is one, makes of a field. -/
def strobeWr (c : Cfg) (a : Addr) (wr : Option Byte) (k : FieldKey) (cur : Byte) : Byte :=
  match wr with
  | some v => strobeAt c a v k cur
  | none => cur

theorem strobeWr_none (c : Cfg) (a : Addr) : strobeWr c a none = fun _ cur => cur := rfl

theorem strobeWr_some (c : Cfg) (a : Addr) (v : Byte) : strobeWr c a (some v) = strobeAt c a v := rfl

/-- Where nothing is strobed, a field keeps its value. -/
theorem strobeAt_of_not_strobed {c : Cfg} {a : Addr} {k : FieldKey} (h : strobed c a k = false) (v cur : Byte) :
    strobeAt c a v k cur = cur := by
  simp only [strobeAt, h, Bool.false_eq_true, if_false]
  split <;> rfl

/-- Outside the banks a write leaves every field its value. -/
theorem mapFlds_strobeAt_of_not_bank {c : Cfg} {a : Addr} (h : ∀ n b, resolve c a ≠ .bank n b) (v : Byte)
    (l : List (FieldKey × Byte)) : mapFlds (strobeAt c a v) l = l := by
  refine (mapFlds_congr fun k w _ => ?_).trans (mapFlds_id l)
  exact strobeAt_of_not_strobed (strobed_eq_false h k) v w

/-- The write micro-operation of the addressed resource makes the write's assignments to memory and fields
(30_encoding R85). -/
theorem exec_writeInstr_target (s : State) (a : Addr) (v : Byte) :
    exec (writeInstr (target s.cfg a) a v) s =
      .next ((s.withMem (nextMem s a (some v))).withFlds (mapFlds (strobeAt s.cfg a v) s.flds)) := by
  cases hres : resolve s.cfg a with
  | unmapped =>
    simp only [target, hres, writeInstr]
    rw [nextMem_other s a _ (fun r o hr => by cases hres.symm.trans hr),
      mapFlds_strobeAt_of_not_bank fun n b hb => by cases hres.symm.trans hb]
    rfl
  | mem r o =>
    have hwide : writeInstr (target s.cfg a) a v = .memWr8 a v := by
      cases hw : o.wide <;> simp only [target, hres, hw, writeInstr, if_true, Bool.false_eq_true, if_false]
    rw [hwide, exec_memWr8_of_mem hres, nextMem_mem s a v r o hres,
      mapFlds_strobeAt_of_not_bank fun n b hb => by cases hres.symm.trans hb]
    rfl
  | bank k b =>
    simp only [target, hres, writeInstr]
    rw [exec_regWr_of_bank hres, nextMem_other s a _ (fun r o hr => by cases hres.symm.trans hr), strobeFlds_eq_map]
    rfl

/-- The write micro-operation of a cycle, if an accepted DWRITE is in it. -/
theorem runOps_writeOp {s u : State} (hcfg : u.cfg = s.cfg) (q : Request) :
    runOps (writeOp s q) u =
      .next ((u.withMem (nextMem u (busAdr q) (writtenByte s q))).withFlds
        (mapFlds (strobeWr s.cfg (busAdr q) (writtenByte s q)) u.flds)) := by
  unfold writeOp
  cases writtenByte s q with
  | none =>
    rw [strobeWr_none, mapFlds_id, nextMem_none]
    rfl
  | some v =>
    rw [strobeWr_some, ← hcfg]
    exact runOps_singleton (exec_writeInstr_target u (busAdr q) v)

/-! The policies and the events -/

theorem nextField_of_mirror {f : Field} (hm : f.mirror = true) (cur : Byte) (c : FieldIn) : nextField f cur c = cur :=
  if_pos hm

/-- The micro-operation of a stored field's policy assigns the policy's next value. -/
theorem exec_fieldInstr_of_stored {u : State} {c : FieldIn} {f : Field} (hf : fieldAt u.cfg c.key = some f)
    (hm : f.mirror = false) :
    exec (fieldInstr f.access c) u = .next (u.withFlds (setField u.flds c.key (nextField f (fieldVal u c.key) c))) := by
  rw [nextField, if_neg (Bool.eq_false_iff.1 hm)]
  cases ha : f.access with
  | readWrite => exact (exec_fldRw u c).trans (onField_of_stored _ hf ha hm)
  | readOnly => exact (exec_fldRo u c).trans (onField_of_stored _ hf ha hm)
  | pulse => exact (exec_fldPulse u c).trans (onField_of_stored _ hf ha hm)
  | clearOnWrite => exact (exec_fldCow u c).trans (onField_of_stored _ hf ha hm)

/-- The micro-operation of a mirror field's policy assigns nothing, whatever the policy. -/
theorem exec_fieldInstr_of_mirror {u : State} {c : FieldIn} {f : Field} (hf : fieldAt u.cfg c.key = some f)
    (hm : f.mirror = true) : exec (fieldInstr f.access c) u = .next u := by
  cases f.access with
  | readWrite => exact (exec_fldRw u c).trans (onField_of_mirror _ _ hf hm)
  | readOnly => exact (exec_fldRo u c).trans (onField_of_mirror _ _ hf hm)
  | pulse => exact (exec_fldPulse u c).trans (onField_of_mirror _ _ hf hm)
  | clearOnWrite => exact (exec_fldCow u c).trans (onField_of_mirror _ _ hf hm)

/-- A field replaced by itself leaves field storage as it is. -/
theorem mapFlds_updateAt_self {k : FieldKey} {g : Byte → Byte} (h : ∀ v, g v = v) (l : List (FieldKey × Byte)) :
    mapFlds (updateAt k g) l = l := by
  refine (mapFlds_congr fun j v _ => ?_).trans (mapFlds_id l)
  simp only [updateAt, h, ite_self]

/-- The policy micro-operation of one field in a cycle, if the field is described. -/
def fieldOp (s : State) (q : Request) (k : FieldKey) : List Instr :=
  match fieldAt s.cfg k with
  | some f => [fieldInstr f.access (fieldIn s.cfg (busAdr q) (writtenByte s q) (hwNow s) k)]
  | none => []

theorem fieldOps_eq (s : State) (q : Request) : fieldOps s q = (s.flds.map Prod.fst).flatMap (fieldOp s q) := by
  rw [List.flatMap_map]
  rfl

/-- A field's policy micro-operation replaces its value by the next one of the cycle. -/
theorem runOps_fieldOp (s : State) (q : Request) (k : FieldKey) {u : State} (hcfg : u.cfg = s.cfg)
    (hnodup : (u.flds.map Prod.fst).Nodup) :
    runOps (fieldOp s q k) u =
      .next (u.withFlds
        (mapFlds (updateAt k (nextAt s.cfg (busAdr q) (writtenByte s q) (hwNow s) k)) u.flds)) := by
  cases hf : fieldAt s.cfg k with
  | none =>
    rw [mapFlds_updateAt_self fun v => by simp only [nextAt, hf]]
    simp only [fieldOp, hf]
    rfl
  | some f =>
    have hfu : fieldAt u.cfg (fieldIn s.cfg (busAdr q) (writtenByte s q) (hwNow s) k).key = some f := hcfg ▸ hf
    simp only [fieldOp, hf]
    refine runOps_singleton ?_
    cases hm : f.mirror with
    | true =>
      rw [exec_fieldInstr_of_mirror hfu hm, mapFlds_updateAt_self fun v => by
        simp only [nextAt, hf, nextField_of_mirror hm]]
      rfl
    | false =>
      rw [exec_fieldInstr_of_stored hfu hm, ← setField_eq_mapFlds hnodup]
      simp only [nextAt, hf]
      rfl

/-- What the hardware-set events of a cycle make of a field. -/
def hwAt (c : Cfg) (evs : List HwEvent) (k : FieldKey) (cur : Byte) : Byte :=
  match fieldAt c k, hwFor evs k with
  | some f, some v => if hasChannel f then hwBits f (hwBits f v) else cur
  | _, _ => cur

/-- The hardware-set micro-operation of one field in a cycle, if it has a channel and an event. -/
def hwsetOp (s : State) (k : FieldKey) : List Instr :=
  match fieldAt s.cfg k, hwFor (hwNow s) k with
  | some f, some v => if hasChannel f then [.hwset k f.size (hwBits f v)] else []
  | _, _ => []

theorem hwsetOps_eq (s : State) : hwsetOps s = (s.flds.map Prod.fst).flatMap (hwsetOp s) := by
  rw [List.flatMap_map]
  rfl

/-- A field's hardware-set micro-operation replaces its value by the event's, if there is one. -/
theorem runOps_hwsetOp (s : State) (k : FieldKey) {u : State} (hcfg : u.cfg = s.cfg)
    (hnodup : (u.flds.map Prod.fst).Nodup) :
    runOps (hwsetOp s k) u = .next (u.withFlds (mapFlds (updateAt k (hwAt s.cfg (hwNow s) k)) u.flds)) := by
  have quiet (hop : hwsetOp s k = []) (hkeep : ∀ v, hwAt s.cfg (hwNow s) k v = v) :
      runOps (hwsetOp s k) u = .next (u.withFlds (mapFlds (updateAt k (hwAt s.cfg (hwNow s) k)) u.flds)) := by
    rw [hop, mapFlds_updateAt_self hkeep]
    rfl
  cases hf : fieldAt s.cfg k with
  | none => exact quiet (by simp only [hwsetOp, hf]) fun v => by simp only [hwAt, hf]
  | some f =>
    cases hw : hwFor (hwNow s) k with
    | none => exact quiet (by simp only [hwsetOp, hf, hw]) fun v => by simp only [hwAt, hf, hw]
    | some v =>
      by_cases hc : hasChannel f = true
      · have hop : hwsetOp s k = [.hwset k f.size (hwBits f v)] := by simp only [hwsetOp, hf, hw, hc, if_true]
        rw [hop, ← setField_eq_mapFlds hnodup]
        simp only [hwAt, hf, hw, hc, if_true]
        exact runOps_singleton (execHwset_of_channel (hcfg ▸ hf) hc _)
      · exact quiet (by simp only [hwsetOp, hf, hw, hc, Bool.false_eq_true, if_false]) fun v => by
          simp only [hwAt, hf, hw, hc, Bool.false_eq_true, if_false]

/-! The groups together give the cycle's value -/

/-- A policy that sees the strobe of the write gives the same value whether or not the write was made first: writing the
same bits, or clearing them, twice is doing so once. -/
theorem nextField_nextField_strobe (f : Field) (cur : Byte) {c : FieldIn} (hc : c.strobe = true) :
    nextField f (nextField f cur { key := c.key, strobe := true, w := c.w, hw := none }) c = nextField f cur c := by
  unfold nextField
  split
  · rfl
  cases f.access with
  | readWrite => simp only [policyReadWrite, hc, if_true]
  | readOnly => rfl
  | pulse => rfl
  | clearOnWrite =>
    simp only [policyClearOnWrite, hc, if_true, BitVec.and_assoc, BitVec.and_self]

/-- The policies after the strobe of the same cycle give what they give alone. -/
theorem nextAt_strobeWr (c : Cfg) (a : Addr) (wr : Option Byte) (evs : List HwEvent) (k : FieldKey) (cur : Byte) :
    nextAt c a wr evs k (strobeWr c a wr k cur) = nextAt c a wr evs k cur := by
  cases wr with
  | none => rfl
  | some v =>
    rw [strobeWr_some]
    cases hf : fieldAt c k with
    | none => simp only [strobeAt, hf]
    | some f =>
      cases hs : strobed c a k with
      | false => rw [strobeAt_of_not_strobed hs]
      | true =>
        simp only [nextAt, strobeAt, hf, hs, if_true]
        exact nextField_nextField_strobe f cur (c := fieldIn c a (some v) evs k)
          (by simp only [fieldIn, hs, Option.isSome_some, Bool.and_self])

/-- An event after the policies of the same cycle assigns what they assigned already. -/
theorem hwAt_nextAt {c : Cfg} (hc : ValidCfg c) (a : Addr) (wr : Option Byte) (evs : List HwEvent) (k : FieldKey)
    (cur : Byte) : hwAt c evs k (nextAt c a wr evs k cur) = nextAt c a wr evs k cur := by
  unfold hwAt
  split
  · next f v hf hw =>
    split
    · next hchan =>
      obtain ⟨hm, ha⟩ := (hasChannel_iff f).1 hchan
      rw [hwBits_hwBits f v (size_le_of_fieldAt c hc k f hf)]
      simp only [nextAt, hf]
      rcases ha with ha | ha
      · exact (nextField_of_readOnly_event hm cur ha hw).symm
      · exact (nextField_of_clearOnWrite_event hm cur ha hw).symm
    · rfl
  · rfl

/-- The read, the toggle action and the write of a cycle one after another. -/
theorem runOps_read_toggle_write (s : State) (q : Request) :
    runOps (readOp s.cfg q :: (toggleOp s ++ writeOp s q)) s =
      .next ((((s.withResp (readValue s (busAdr q))).withTog (nextTog s)).withMem
        (nextMem s (busAdr q) (writtenByte s q))).withFlds
          (mapFlds (strobeWr s.cfg (busAdr q) (writtenByte s q)) s.flds)) := by
  rw [readOp, runOps_cons (exec_readInstr_target s (busAdr q)),
    runOps_append (runOps_toggleOp (s := s) (u := s.withResp (readValue s (busAdr q))) rfl rfl)]
  exact runOps_writeOp (s := s) (u := (s.withResp (readValue s (busAdr q))).withTog (nextTog s)) rfl q

/-- Every policy and every event of a cycle one after another, on a state that stores the same fields. -/
theorem runOps_fieldOps_hwsetOps {s : State} (hnodup : (s.flds.map Prod.fst).Nodup) (q : Request) {u : State}
    (hcfg : u.cfg = s.cfg) (hkeys : u.flds.map Prod.fst = s.flds.map Prod.fst) :
    runOps (fieldOps s q ++ hwsetOps s) u =
      .next (u.withFlds
        (mapFlds (fun k v =>
            hwAt s.cfg (hwNow s) k (nextAt s.cfg (busAdr q) (writtenByte s q) (hwNow s) k v)) u.flds)) := by
  have hpolicies := runOps_flatMap_fields (fun k t => runOps_fieldOp s q k (u := t)) hnodup hcfg (hkeys ▸ hnodup)
  have hevents (g : FieldKey → Byte → Byte) :=
    runOps_flatMap_fields (fun k t => runOps_hwsetOp s k (u := t)) hnodup (u := u.withFlds (mapFlds g u.flds)) hcfg
      (by rw [State.withFlds_flds, keys_mapFlds, hkeys]; exact hnodup)
  rw [fieldOps_eq, hwsetOps_eq, runOps_append hpolicies, hevents, State.withFlds_flds, mapFlds_mapFlds]
  refine congrArg (fun l => Host.Outcome.next (u.withFlds l)) (mapFlds_congr fun k v hp => ?_)
  have hk : k ∈ s.flds.map Prod.fst := hkeys ▸ List.mem_map_of_mem (f := Prod.fst) hp
  simp only [hk, if_true]

/-- In a state with the invariant, a cycle's micro-operations together make every assignment of its tick but that of the
acknowledges. -/
theorem Inv.runOps_microOps {s : State} (hi : Inv s) (q : Request) :
    runOps (microOps s q) s = .next ((composedStep s q).withAcks s.ackD s.ackI) := by
  have hnodup : (s.flds.map Prod.fst).Nodup := hi.keys ▸ storedFields_nodup s.cfg hi.valid
  rw [microOps, List.append_assoc, ← List.cons_append, runOps_append (runOps_read_toggle_write s q)]
  refine Eq.trans (runOps_fieldOps_hwsetOps hnodup q rfl (keys_mapFlds _ _)) ?_
  rw [State.withFlds_flds, mapFlds_mapFlds]
  simp only [nextAt_strobeWr, hwAt_nextAt hi.valid]
  have htick : mapFlds (nextAt s.cfg (busAdr q) (writtenByte s q) (hwNow s)) s.flds =
      nextFlds s (busAdr q) (writtenByte s q) (hwNow s) := (nextFlds_eq_map s _ _ _).symm
  rw [htick]
  rfl

/-- Settles O16: the micro-operations end in the composed step but for the acknowledges. -/
theorem microOperationsComposeToTheCycle : Obligations.MicroOperationsComposeToTheCycle := by
  unfold Obligations.MicroOperationsComposeToTheCycle
  intro s i rest h hi
  exact ⟨_, _, hi.runOps_microOps i.req, exec_busOperation s i.req, step_eq_composedStep s i rest h, rfl⟩

end Sys2Proof.Machine

/-! SUPPORT. Addresses in a valid configuration (40_decoder sections 2 to 5): main RAM's mask test against its block
range, and the worked tables; with them obligations O32, O37, O38 and O40. -/

namespace Sys2Proof.Machine

/-- Settles O32: the 32 pairs. -/
theorem indexOfIsItsTable : Obligations.IndexOfIsItsTable := by
  unfold Obligations.IndexOfIsItsTable
  decide

/-- Settles O37: block ranges that do not meet contain an address's block at most once. -/
theorem noAddressReachesTwoRegions : Obligations.NoAddressReachesTwoRegions := by
  unfold Obligations.NoAddressReachesTwoRegions
  exact fun c hc a i j q r hi hj hq hr => place_eq_of_hits hc hi hj hq hr

/-! The fast path -/

/-- A size that is its own power of two is a single bit below bit 16 (CE11). -/
theorem size_eq_twoPow {m : Region} (h : 2 ^ Nat.log2 m.size.toNat = m.size.toNat) :
    Nat.log2 m.size.toNat < 16 ∧ m.size = BitVec.twoPow 16 (Nat.log2 m.size.toNat) := by
  have hk : Nat.log2 m.size.toNat < 16 := (Nat.pow_lt_pow_iff_right (by decide : 1 < 2)).1 (h.trans_lt m.size.isLt)
  refine ⟨hk, BitVec.eq_of_toNat_eq ?_⟩
  rw [BitVec.toNat_twoPow_of_lt hk, h]

/-- A power of two is a multiple of every smaller one. -/
theorem dvd_of_two_pow_log2 {x y : Nat} (hx : 2 ^ Nat.log2 x = x) (hy : 2 ^ Nat.log2 y = y) (hle : x ≤ y) : x ∣ y := by
  rw [← hx, ← hy]
  exact Nat.pow_dvd_pow 2 ((Nat.pow_le_pow_iff_right (by decide : 1 < 2)).1 (by rwa [hx, hy]))

/-- Main RAM's block range is its byte range from 0: its size is a multiple of the block size. -/
theorem hits_mainRam_iff {c : Cfg} (hB : BlockSizeOk c) {m : Region} (hm : MainRamOk c m) (hmain : m.mainRam = true)
    (a : Addr) : hits c a m = true ↔ a.toNat < m.size.toNat := by
  obtain ⟨hbase, hpow, hle, -⟩ := hm hmain
  have hpos : 0 < c.blockSize := hB.1 ▸ Nat.two_pow_pos _
  obtain ⟨n, hn⟩ := dvd_of_two_pow_log2 hB.1 hpow hle
  rw [hits_iff_div hB, hbase, BitVec.toNat_ofNat, Nat.zero_mod, Nat.zero_div, Nat.zero_add, hn,
    Nat.mul_div_cancel_left n hpos, Nat.div_lt_iff_lt_mul hpos, Nat.mul_comm]
  exact and_iff_right (Nat.zero_le _)

/-- Settles O38: both tests hold exactly below main RAM's size. -/
theorem fastPathAgreesWithDecode : Obligations.FastPathAgreesWithDecode := by
  unfold Obligations.FastPathAgreesWithDecode
  intro c hc k m hk hmain a
  have hB : BlockSizeOk c := hc.1
  have hm : MainRamOk c m := by
    obtain ⟨-, -, ⟨hregions, -⟩, -⟩ := hc
    exact (hregions m (List.mem_of_getElem? hk)).2
  obtain ⟨-, hpow, -, -⟩ := hm hmain
  obtain ⟨hlog, hsize⟩ := size_eq_twoPow hpow
  rw [decodeFast_iff_of_size_eq_twoPow m hlog hsize, decodeAddr_eq_some_iff hc, hits_mainRam_iff hB hm hmain]
  exact (and_iff_right hk).symm

/-! The worked decode table -/

/-- In REFCFG the addresses below 0x4000 reach main RAM. -/
theorem resolve_refCfg_main {a : Addr} (h : a.toNat < 0x4000) :
    resolve (refCfg []) a = .mem (mainRegion []) { wide := true, writable := true, image := [] } :=
  (resolve_eq_mem _ a _ _).2 ⟨0, by rw [decodeAddr_refCfg, if_pos h], rfl⟩

/-- In REFCFG the addresses from 0xE600 to 0xE6FF reach the register bank. -/
theorem resolve_refCfg_csr {image : List Byte} {a : Addr} (h : 0xE600 ≤ a.toNat ∧ a.toNat < 0xE700) :
    resolve (refCfg image) a = .bank 1 { registers := [csrE600, togctl], finalized := true } :=
  (resolve_eq_bank _ a _ _).2 ⟨_, by rw [decodeAddr_refCfg, if_neg (by omega), if_pos h], rfl⟩

/-- In REFCFG every other address is unmapped. -/
theorem resolve_refCfg_unmapped {a : Addr} (hmain : ¬ a.toNat < 0x4000)
    (hcsr : ¬ (0xE600 ≤ a.toNat ∧ a.toNat < 0xE700)) : resolve (refCfg []) a = .unmapped :=
  (resolve_eq_unmapped _ a).2 (by rw [decodeAddr_refCfg, if_neg hmain, if_neg hcsr])

/-- Settles O40: each address lies in the range that the table gives it. -/
theorem referenceMapDecodes : Obligations.ReferenceMapDecodes := by
  unfold Obligations.ReferenceMapDecodes
  exact ⟨resolve_refCfg_main (by decide), resolve_refCfg_main (by decide),
    resolve_refCfg_unmapped (by decide) (by decide), resolve_refCfg_unmapped (by decide) (by decide),
    resolve_refCfg_csr (by decide), resolve_refCfg_csr (by decide), resolve_refCfg_csr (by decide),
    resolve_refCfg_csr (by decide), resolve_refCfg_unmapped (by decide) (by decide),
    resolve_refCfg_unmapped (by decide) (by decide)⟩

end Sys2Proof.Machine

/-! SUPPORT. Construction (30_encoding R96, 70_reset_and_hazards R295): it accepts exactly the valid configurations, and
each of its operations raises the error of its first failing check; with them obligations O41 to O44. -/

namespace Sys2Proof.Machine

/-! The checks together are validity -/

/-- The address map of a description before any region is added (70_reset_and_hazards R295). -/
def emptyMap (d : Cfg) : Cfg := { blockSize := d.blockSize, handshake := d.handshake, regions := [], toggle := none }

section
variable (d : Cfg) (q r : Region)

/-- CE11 looks at the block size of the map only, and at nothing that FINALIZE changes. -/
theorem mainRamOk_emptyMap : MainRamOk (emptyMap d) (finalizedRegion r) ↔ MainRamOk d r := by
  simp only [MainRamOk, finalizedRegion_base, finalizedRegion_size, finalizedRegion_mainRam, isMem_finalizedRegion,
    emptyMap]

/-- CE4 looks at the block size of the map only, and at nothing that FINALIZE changes. -/
theorem regionsApart_emptyMap :
    RegionsApart (emptyMap d) (finalizedRegion q) (finalizedRegion r) ↔ RegionsApart d q r := by
  simp only [RegionsApart, BytesApart, BlocksApart, blockLo, blockHi, blockBits, finalizedRegion_base,
    finalizedRegion_size, finalizedRegion_mainRam, emptyMap]

/-- Adding every finalized region to the empty map accepts exactly the region lists that CE4, CE9 and CE11 leave. -/
theorem addRegions_emptyMap_ok (c : Cfg) :
    addRegions (emptyMap d) (d.regions.map finalizedRegion) = .ok c ↔
      RegionsOk d ∧ c = { finalizedCfg d with toggle := none } := by
  rw [addRegions_ok, List.forall_mem_map, List.pairwise_map]
  simp only [finalizedRegion_base, finalizedRegion_size, mainRamOk_emptyMap, regionsApart_emptyMap]
  constructor
  · rintro ⟨hall, hapart, -, rfl⟩
    exact ⟨⟨hall, hapart⟩, rfl⟩
  · rintro ⟨⟨hall, hapart⟩, rfl⟩
    exact ⟨hall, hapart, by simp [emptyMap], rfl⟩

end

/-- What the binding of the toggle table can do (44_toggle_table R214). -/
theorem bindToggle_ok (c c' : Cfg) (t : Option TogBinding) :
    bindToggle c t = .ok c' ↔ ToggleOk { c with toggle := t } ∧ c' = { c with toggle := t } := by
  cases t with
  | none =>
    simp only [bindToggle, ToggleOk, Except.ok.injEq, true_or, true_and]
    exact eq_comm
  | some b =>
    simp only [bindToggle, ToggleOk, reduceCtorEq, false_or]
    split
    · next h => simp [h, eq_comm]
    · next h => simp [h]

/-- FINALIZE does not change whether CE15 applies. -/
theorem toggleOk_finalizedCfg (d : Cfg) : ToggleOk (finalizedCfg d) ↔ ToggleOk d := by
  rw [ToggleOk, togKeys_finalizedCfg]
  rfl

/-- Settles O41: the block size, the resources, the regions and the binding are checked one after another, and together
these are validity. -/
theorem constructionAcceptsExactlyTheValid : Obligations.ConstructionAcceptsExactlyTheValid := by
  unfold Obligations.ConstructionAcceptsExactlyTheValid
  intro d c
  unfold construct
  split
  · next hB =>
    simp only [reduceCtorEq, false_iff]
    exact fun ⟨⟨hsize, _⟩, _⟩ => hB hsize
  · next hB =>
    rw [not_not] at hB
    simp only [except_bind_ok, buildResources_ok]
    constructor
    · rintro ⟨_, ⟨hres, rfl⟩, _, hmap, hbind⟩
      obtain ⟨hregions, rfl⟩ := (addRegions_emptyMap_ok d _).1 hmap
      obtain ⟨htog, rfl⟩ := (bindToggle_ok _ c d.toggle).1 hbind
      exact ⟨⟨hB, hres, hregions, (toggleOk_finalizedCfg d).1 htog⟩, rfl⟩
    · rintro ⟨⟨-, hres, hregions, htog⟩, rfl⟩
      exact ⟨_, ⟨hres, rfl⟩, _, (addRegions_emptyMap_ok d _).2 ⟨hregions, rfl⟩,
        (bindToggle_ok _ _ d.toggle).2 ⟨(toggleOk_finalizedCfg d).2 htog, rfl⟩⟩

/-! The start of a run -/

theorem regionFinalized_iff (r : Region) :
    regionFinalized r = true ↔ ∀ b, r.resource = .bank b → b.finalized = true := by
  unfold regionFinalized
  cases r.resource <;> simp

theorem allFinalized_iff (c : Cfg) :
    allFinalized c = true ↔ ∀ r ∈ c.regions, ∀ b, r.resource = .bank b → b.finalized = true := by
  simp only [allFinalized, List.all_eq_true, regionFinalized_iff]

theorem allFinalized_finalizedCfg (d : Cfg) : allFinalized (finalizedCfg d) = true := by
  rw [allFinalized, List.all_eq_true]
  simp only [finalizedCfg, List.forall_mem_map]
  intro r _
  cases hr : r.resource <;> simp [regionFinalized, finalizedRegion, hr]

theorem startRun_of_finalized {c : Cfg} (h : allFinalized c = true) : startRun c = .next (initState c) := if_pos h

theorem startRun_of_not_finalized {c : Cfg} (h : ¬ allFinalized c = true) :
    startRun c = .fault (.configError .ce14Order) := if_neg h

/-- Settles O42: construction decides between the reset state of the finalized configuration and an error, and a run
starts exactly where every bank is finalized. -/
theorem configurationErrorLeavesNoState : Obligations.ConfigurationErrorLeavesNoState := by
  unfold Obligations.ConfigurationErrorLeavesNoState
  refine ⟨fun d => ⟨fun hvalid => ?valid, fun hinvalid => ?invalid⟩, fun c => ⟨?openBank, fun hfin => ?finalized⟩⟩
  case valid =>
    have hok : construct d = .ok (finalizedCfg d) := (constructionAcceptsExactlyTheValid d _).2 ⟨hvalid, rfl⟩
    simp only [powerOn, hok]
    exact startRun_of_finalized (allFinalized_finalizedCfg d)
  case invalid =>
    cases hd : construct d with
    | ok c => exact absurd ((constructionAcceptsExactlyTheValid d c).1 hd).1 hinvalid
    | error e => exact ⟨e, rfl, by simp only [powerOn, hd, raiseConfig]⟩
  case openBank =>
    rintro ⟨r, hr, b, hb, hopen⟩
    refine startRun_of_not_finalized fun hall => ?_
    exact Bool.false_ne_true (hopen.symm.trans ((allFinalized_iff c).1 hall r hr b hb))
  case finalized => exact startRun_of_finalized ((allFinalized_iff c).2 hfin)

/-! ADD -/

section
variable {b : Bank} {a : Addr} {g : Register} (hopen : b.finalized = false)
include hopen

theorem addRegister_of_empty_name (hname : g.name = "") : addRegister b a g = .error .ce3EmptyName := by
  simp only [addRegister, hopen, hname, Bool.false_eq_true, if_false, if_true]

theorem addRegister_of_address_taken (hname : g.name ≠ "") (h : ∃ r ∈ b.registers, r.address = a) :
    addRegister b a g = .error (.ce1DuplicateAddress a) := by
  simp only [addRegister, hopen, hname, h, Bool.false_eq_true, if_false, if_true]

theorem addRegister_of_name_taken (hname : g.name ≠ "") (haddr : ¬ ∃ r ∈ b.registers, r.address = a)
    (h : ∃ r ∈ b.registers, r.name = g.name) : addRegister b a g = .error (.ce2DuplicateName g.name) := by
  simp only [addRegister, hopen, hname, haddr, h, Bool.false_eq_true, if_false, if_true]

/-- With a name and an address that are free, ADD goes on to the width, the fields and their bits. -/
theorem addRegister_of_free (hname : g.name ≠ "") (hfree : ∀ r ∈ b.registers, r.address ≠ a ∧ r.name ≠ g.name) :
    addRegister b a g =
      if g.width ≠ 8 then .error (.ce7MultiWord g.name)
      else (checkFields g g.fields).bind fun _ => (checkApart g g.fields).bind fun _ =>
        .ok { b with registers := b.registers ++ [{ g with address := a }] } := by
  have haddr : ¬ ∃ r ∈ b.registers, r.address = a := fun ⟨r, hr, h⟩ => (hfree r hr).1 h
  have hused : ¬ ∃ r ∈ b.registers, r.name = g.name := fun ⟨r, hr, h⟩ => (hfree r hr).2 h
  simp only [addRegister, hopen, hname, haddr, hused, Bool.false_eq_true, if_false]

end

/-- Settles O43: the first three checks of ADD on an open bank. -/
theorem addRefusesEmptyAndDuplicateNames : Obligations.AddRefusesEmptyAndDuplicateNames := by
  unfold Obligations.AddRefusesEmptyAndDuplicateNames
  exact fun b a g hopen => ⟨addRegister_of_empty_name hopen, addRegister_of_address_taken hopen,
    addRegister_of_name_taken hopen⟩

/-! GET -/

/-- The first register with a property has it, and is in the bank. -/
theorem mem_and_of_find? {l : List Register} {p : Register → Prop} [DecidablePred p] {g : Register}
    (h : (l.find? fun r => decide (p r)) = some g) : g ∈ l ∧ p g :=
  ⟨List.mem_of_find?_eq_some h, by simpa using List.find?_some h⟩

/-- What GET can do, of a query that a property of registers decides. -/
theorem getRegister_spec {b : Bank} {q : RegisterQuery} {p : Register → Prop} [DecidablePred p]
    (hq : getRegister b q = match b.registers.find? fun r => decide (p r) with
      | some g => .ok g
      | none => .error (.le1 q)) :
    (∀ g, getRegister b q = .ok g → g ∈ b.registers ∧ p g) ∧
      (getRegister b q = .error (.le1 q) ↔ ∀ g ∈ b.registers, ¬ p g) := by
  rw [hq]
  cases hf : b.registers.find? fun r => decide (p r) with
  | some g =>
    obtain ⟨hmem, hp⟩ := mem_and_of_find? hf
    refine ⟨fun g' h => Except.ok.inj h ▸ ⟨hmem, hp⟩, ?_⟩
    simp only [reduceCtorEq, false_iff]
    exact fun h => h g hmem hp
  | none => simpa using hf

/-- Settles O44: an address and a name are each decided by a property of registers. -/
theorem getFindsTheRegister : Obligations.GetFindsTheRegister := by
  unfold Obligations.GetFindsTheRegister
  exact fun b => ⟨fun a => getRegister_spec (p := fun g => g.address = a) rfl,
    fun n => getRegister_spec (p := fun g => g.name = n) rfl⟩

end Sys2Proof.Machine

/-! SUPPORT. The error each construction-time operation raises (60_exceptions section 2): the checks of ADD and FINALIZE
in their order, and those of the block size, the image, ADD_REGION and the toggle binding; with them obligations O59 and
O60. -/

namespace Sys2Proof.Machine

/-! ADD and FINALIZE -/

section
variable (g : Register) {f : Field}

theorem checkField_of_range (h : f.size < 1 ∨ 8 < f.offset + f.size) :
    checkField g f = .error (.ce5FieldRange g.name f.name) := if_pos h

theorem checkField_of_policy (hsize : 1 ≤ f.size) (hfits : f.offset + f.size ≤ 8) (hm : f.mirror = true)
    (ha : f.access ≠ .readOnly) : checkField g f = .error (.ce12FieldPolicy g.name f.name) := by
  rw [checkField, if_neg (by omega), if_pos ⟨hm, ha⟩]

theorem checkField_of_reset (hsize : 1 ≤ f.size) (hfits : f.offset + f.size ≤ 8)
    (hpolicy : f.mirror = true → f.access = .readOnly)
    (hreset : 2 ^ f.size ≤ f.reset ∨ (f.mirror = true ∧ f.reset ≠ 0)) :
    checkField g f = .error (.ce13ResetValue g.name f.name) := by
  rw [checkField, if_neg (by omega), if_neg fun h => h.2 (hpolicy h.1), if_pos hreset]

end

section
variable {b : Bank} {a : Addr} {g : Register} (hopen : b.finalized = false) (hname : g.name ≠ "")
  (hfree : ∀ r ∈ b.registers, r.address ≠ a ∧ r.name ≠ g.name)
include hopen hname hfree

theorem addRegister_of_width (h : g.width ≠ 8) : addRegister b a g = .error (.ce7MultiWord g.name) := by
  rw [addRegister_of_free hopen hname hfree, if_pos h]

/-- The first field that fails a check decides the error of ADD (60_exceptions R266). -/
theorem addRegister_of_field {pre post : List Field} {f : Field} {e : ConfigError} (hw : g.width = 8)
    (hfields : g.fields = pre ++ f :: post) (hpre : ∀ h ∈ pre, FieldOk h) (hf : checkField g f = .error e) :
    addRegister b a g = .error e := by
  rw [addRegister_of_free hopen hname hfree, if_neg (not_not.2 hw), hfields, checkFields_error g pre post f e hpre hf]
  rfl

/-- With a width and fields that are accepted, the check of the fields' bits decides. -/
theorem addRegister_of_fieldsOk (hw : g.width = 8) (hfields : ∀ f ∈ g.fields, FieldOk f) :
    addRegister b a g = (checkApart g g.fields).bind fun _ =>
      .ok { b with registers := b.registers ++ [{ g with address := a }] } := by
  rw [addRegister_of_free hopen hname hfree, if_neg (not_not.2 hw), (checkFields_ok g g.fields).2 hfields]
  rfl

end

/-- Two fields in different places of a list of accepted fields share no bit exactly where CE6 leaves the list. -/
theorem pairwise_fieldsApart_iff {fs : List Field} (hok : ∀ f ∈ fs, FieldOk f) :
    fs.Pairwise FieldsApart ↔
      ∀ (i j : Nat) (f h : Field), i < j → fs[i]? = some f → fs[j]? = some h → ∀ n : Nat,
        ¬ ((f.offset ≤ n ∧ n < f.offset + f.size) ∧ (h.offset ≤ n ∧ n < h.offset + h.size)) := by
  rw [List.pairwise_iff_getElem]
  constructor
  · intro hapart i j f h hij hi hj n hn
    obtain ⟨hilt, rfl⟩ := List.getElem?_eq_some_iff.1 hi
    obtain ⟨hjlt, rfl⟩ := List.getElem?_eq_some_iff.1 hj
    exact (shares_bit_iff _ _ (hok _ (List.getElem_mem hilt)) (hok _ (List.getElem_mem hjlt))).1 ⟨n, hn⟩
      (hapart i j hilt hjlt hij)
  · intro hbits i j hi hj hij
    by_contra hmeet
    obtain ⟨n, hn⟩ := (shares_bit_iff _ _ (hok _ (List.getElem_mem hi)) (hok _ (List.getElem_mem hj))).2 hmeet
    exact hbits i j _ _ hij (List.getElem?_eq_getElem hi) (List.getElem?_eq_getElem hj) n hn

/-- FINALIZE accepts a bank without a wider register (43_register_bank R186, log 18). -/
theorem finalizeBank_of_fits {b : Bank} (h : ∀ g ∈ b.registers, g.width ≤ 8) :
    finalizeBank b = .ok { b with finalized := true } := by
  have hnone : (b.registers.find? fun g => decide (8 < g.width)) = none := by
    simpa [List.find?_eq_none] using h
  simp only [finalizeBank, hnone]

/-- FINALIZE names a wider register where there is one. -/
theorem finalizeBank_of_wide {b : Bank} (h : ∃ g ∈ b.registers, 8 < g.width) :
    ∃ g ∈ b.registers, 8 < g.width ∧ finalizeBank b = .error (.ce7MultiWord g.name) := by
  cases hf : b.registers.find? fun g => decide (8 < g.width) with
  | none =>
    obtain ⟨g, hg, hw⟩ := h
    exact absurd (decide_eq_true hw) (List.find?_eq_none.1 hf g hg)
  | some g =>
    obtain ⟨hg, hw⟩ := mem_and_of_find? hf
    exact ⟨g, hg, hw, by simp only [finalizeBank, hf]⟩

/-- Settles O59: the width, the first failing field and the first pair of fields that meet decide in this order. -/
theorem addRaisesTheFirstFailingCheck : Obligations.AddRaisesTheFirstFailingCheck := by
  unfold Obligations.AddRaisesTheFirstFailingCheck
  refine ⟨fun b a g hfin => if_pos hfin, fun b a g hopen hname hfree =>
    ⟨addRegister_of_width hopen hname hfree, fun pre post f hw hfields hpre => ?fields, fun hw hok => ⟨?apart, ?meet⟩⟩,
    fun b => ⟨finalizeBank_of_fits, finalizeBank_of_wide⟩⟩
  case fields =>
    have raises {e : ConfigError} (hf : checkField g f = .error e) : addRegister b a g = .error e :=
      addRegister_of_field hopen hname hfree hw hfields hpre hf
    exact ⟨fun hrange => raises (checkField_of_range g (by omega)),
      fun hsize hfits hm ha => raises (checkField_of_policy g hsize hfits hm ha),
      fun hsize hfits hpolicy hreset => raises (checkField_of_reset g hsize hfits hpolicy hreset)⟩
  case apart =>
    intro hbits
    rw [addRegister_of_fieldsOk hopen hname hfree hw hok,
      (checkApart_ok g g.fields).2 ((pairwise_fieldsApart_iff hok).2 hbits)]
    rfl
  case meet =>
    rintro ⟨i, j, f, h, n, hij, hi, hj, hf, hh⟩
    have hmeet : ¬ g.fields.Pairwise FieldsApart := fun hapart =>
      (pairwise_fieldsApart_iff hok).1 hapart i j f h hij hi hj n ⟨hf, hh⟩
    obtain ⟨i, j, f, h, hij, hi, hj, hne, herr⟩ := checkApart_error g g.fields hmeet
    obtain ⟨n, hf, hh⟩ :=
      (shares_bit_iff f h (hok f (List.mem_of_getElem? hi)) (hok h (List.mem_of_getElem? hj))).2 hne
    refine ⟨i, j, f, h, n, hij, hi, hj, hf, hh, ?_⟩
    rw [addRegister_of_fieldsOk hopen hname hfree hw hok, herr]
    rfl

/-! The block size and the image -/

/-- A number is its own power of two exactly if it is one. -/
theorem two_pow_log2_eq_iff (x : Nat) : 2 ^ Nat.log2 x = x ↔ ∃ k, x = 2 ^ k := by
  constructor
  · exact fun h => ⟨_, h.symm⟩
  · rintro ⟨k, rfl⟩
    rw [Nat.log2_two_pow]

/-- CE10's condition as 60_exceptions R260 writes it. -/
theorem blockSizeOk_iff (c : Cfg) : BlockSizeOk c ↔ ∃ k, k ≤ 16 ∧ c.blockSize = 2 ^ k := by
  unfold BlockSizeOk
  rw [two_pow_log2_eq_iff]
  constructor
  · rintro ⟨⟨k, hk⟩, hle⟩
    exact ⟨k, (Nat.pow_le_pow_iff_right (by decide : 1 < 2)).1 (hk ▸ hle), hk⟩
  · rintro ⟨k, hle, hk⟩
    exact ⟨⟨k, hk⟩, hk ▸ Nat.pow_le_pow_right (by decide) hle⟩

theorem loadImage_of_long {r : Region} {m : MemOptions} (h : r.size.toNat < m.image.length) :
    loadImage r m = .error (.ce8ImageTooLong r.name m.image.length) := if_pos h

theorem loadImage_of_fits {r : Region} {m : MemOptions} (h : m.image.length ≤ r.size.toNat) :
    loadImage r m = .ok m := if_neg (not_lt.2 h)

/-! ADD_REGION -/

/-- CE11's condition, that main RAM is unfit or not the first (60_exceptions R261). -/
def BadMainRam (c : Cfg) (r : Region) : Prop :=
  r.mainRam = true ∧
    (r.base ≠ 0#16 ∨ (¬ ∃ k, r.size.toNat = 2 ^ k) ∨ r.size.toNat < c.blockSize ∨
      (∃ b, r.resource = .bank b) ∨ ∃ q ∈ c.regions, q.mainRam = true)

theorem not_isMem_iff (r : Region) : ¬ isMem r = true ↔ ∃ b, r.resource = .bank b := by
  unfold isMem
  cases r.resource <;> simp

/-- The test of ADD_REGION is CE11's condition. -/
theorem badMainRam_iff (c : Cfg) (r : Region) :
    (¬ MainRamOk c r ∨ (r.mainRam = true ∧ ∃ q ∈ c.regions, q.mainRam = true)) ↔ BadMainRam c r := by
  simp only [MainRamOk, BadMainRam, two_pow_log2_eq_iff, ← not_isMem_iff, ← not_le]
  tauto

/-- CE4's condition, that two regions meet in bytes or in blocks (40_decoder R117). -/
theorem not_apart_iff (c : Cfg) (q r : Region) :
    ¬ (BytesApart q r ∧ BlocksApart c q r) ↔
      (r.base.toNat < q.base.toNat + q.size.toNat ∧ q.base.toNat < r.base.toNat + r.size.toNat) ∨
        (blockLo c r < blockHi c q ∧ blockLo c q < blockHi c r) := by
  rw [BytesApart, BlocksApart, not_and_or, not_not, not_not]

section
variable {c : Cfg} {r : Region}

theorem addRegion_of_beyond (h : 2 ^ 16 < r.base.toNat + r.size.toNat) :
    addRegion c r = .error (.ce9BeyondSpace r.name) := if_pos h

variable (hin : ¬ 2 ^ 16 < r.base.toNat + r.size.toNat)
include hin

theorem addRegion_of_badMainRam (h : BadMainRam c r) : addRegion c r = .error (.ce11MainRam r.name) := by
  rw [addRegion, if_neg hin, if_pos ((badMainRam_iff c r).2 h)]

variable (hmain : ¬ BadMainRam c r)
include hmain

/-- With a place and a main RAM that are accepted, the first region that is not apart is named. -/
theorem addRegion_of_found {q : Region}
    (h : (c.regions.find? fun q => !decide (BytesApart q r ∧ BlocksApart c q r)) = some q) :
    addRegion c r = .error (.ce4Overlap r.name q.name) := by
  rw [addRegion, if_neg hin, if_neg (mt (badMainRam_iff c r).1 hmain), h]

theorem addRegion_of_not_found
    (h : (c.regions.find? fun q => !decide (BytesApart q r ∧ BlocksApart c q r)) = none) :
    addRegion c r = .ok { c with regions := c.regions ++ [r] } := by
  rw [addRegion, if_neg hin, if_neg (mt (badMainRam_iff c r).1 hmain), h]

theorem addRegion_of_meets (h : ∃ q ∈ c.regions, ¬ (BytesApart q r ∧ BlocksApart c q r)) :
    ∃ q ∈ c.regions, ¬ (BytesApart q r ∧ BlocksApart c q r) ∧
      addRegion c r = .error (.ce4Overlap r.name q.name) := by
  cases hf : c.regions.find? fun q => !decide (BytesApart q r ∧ BlocksApart c q r) with
  | none =>
    obtain ⟨q, hq, hmeet⟩ := h
    have hnot := List.find?_eq_none.1 hf q hq
    rw [Bool.not_eq_true', decide_eq_false_iff_not] at hnot
    exact absurd hmeet hnot
  | some q =>
    have hmeet := List.find?_some hf
    rw [Bool.not_eq_true', decide_eq_false_iff_not] at hmeet
    exact ⟨q, List.mem_of_find?_eq_some hf, hmeet, addRegion_of_found hin hmain hf⟩

theorem addRegion_of_apart (h : ¬ ∃ q ∈ c.regions, ¬ (BytesApart q r ∧ BlocksApart c q r)) :
    addRegion c r = .ok { c with regions := c.regions ++ [r] } := by
  refine addRegion_of_not_found hin hmain (List.find?_eq_none.2 fun q hq hmeet => h ⟨q, hq, ?_⟩)
  rwa [Bool.not_eq_true', decide_eq_false_iff_not] at hmeet

end

/-! The binding of the toggle table -/

/-- A bound name fits where the register's first field of that name has what the binding asks for. -/
theorem boundField_isSome_iff (g : Register) (n : String) (acc : Access) (size : Nat) (mirror : Bool) :
    (boundField g n acc size mirror).isSome = true ↔
      ∃ f, (g.fields.find? fun h => decide (h.name = n)) = some f ∧ f.access = acc ∧ f.size = size ∧
        f.mirror = mirror := by
  unfold boundField
  cases g.fields.find? fun h => decide (h.name = n) with
  | none => simp
  | some f => by_cases hf : f.access = acc ∧ f.size = size ∧ f.mirror = mirror <;> simp [hf]

/-- The binding resolves exactly where there is a control register and each of the five names fits. -/
theorem togKeys_isSome_iff (c : Cfg) (t : TogBinding) :
    (togKeys { c with toggle := some t }).isSome = true ↔
      ∃ k g, controlRegister c t.ctl = some (k, g) ∧ (boundField g t.ep .readWrite 4 false).isSome = true ∧
        (boundField g t.dir .readWrite 1 false).isSome = true ∧ (boundField g t.set .pulse 1 false).isSome = true ∧
        (boundField g t.reset .pulse 1 false).isSome = true ∧ (boundField g t.q .readOnly 1 true).isSome = true := by
  have hreg : controlRegister { c with toggle := some t } t.ctl = controlRegister c t.ctl := rfl
  unfold togKeys
  simp only [hreg]
  cases controlRegister c t.ctl with
  | none => simp
  | some p =>
    obtain ⟨k, g⟩ := p
    simp only [Option.some.injEq, Prod.mk.injEq]
    split
    · next he hd hx hr hq => exact ⟨fun _ => ⟨k, g, ⟨rfl, rfl⟩, by simp [he, hd, hx, hr, hq]⟩, fun _ => rfl⟩
    · next hnone =>
      simp only [Option.isSome_none, Bool.false_eq_true, false_iff]
      rintro ⟨_, _, ⟨rfl, rfl⟩, he, hd, hx, hr, hq⟩
      obtain ⟨e, he⟩ := Option.isSome_iff_exists.1 he
      obtain ⟨d, hd⟩ := Option.isSome_iff_exists.1 hd
      obtain ⟨x, hx⟩ := Option.isSome_iff_exists.1 hx
      obtain ⟨r, hr⟩ := Option.isSome_iff_exists.1 hr
      obtain ⟨q, hq⟩ := Option.isSome_iff_exists.1 hq
      exact hnone e d x r q he hd hx hr hq

theorem bindToggle_of_fits {c : Cfg} {t : TogBinding} (h : (togKeys { c with toggle := some t }).isSome = true) :
    bindToggle c (some t) = .ok { c with toggle := some t } := if_pos h

theorem bindToggle_of_not_fits {c : Cfg} {t : TogBinding}
    (h : ¬ (togKeys { c with toggle := some t }).isSome = true) :
    bindToggle c (some t) = .error (.ce15ToggleBinding t.ctl) := if_neg h

/-- Settles O60: each operation's checks in order, each condition as 60_exceptions writes it. -/
theorem constructionRaisesTheNamedError : Obligations.ConstructionRaisesTheNamedError := by
  unfold Obligations.ConstructionRaisesTheNamedError
  refine ⟨fun d h => if_pos (mt (blockSizeOk_iff d).1 h), fun r m => ⟨loadImage_of_long, loadImage_of_fits⟩,
    fun c r => ?region, fun c t => ?binding⟩
  case region =>
    simp only [← not_apart_iff]
    exact ⟨addRegion_of_beyond, addRegion_of_badMainRam, addRegion_of_meets, addRegion_of_apart⟩
  case binding =>
    simp only [← boundField_isSome_iff, ← togKeys_isSome_iff]
    exact ⟨bindToggle_of_fits, bindToggle_of_not_fits⟩

end Sys2Proof.Machine

/-! SUPPORT. What a cycle leaves for the next one: fields by their policy bit by bit, a written byte and a written field
read back, and the toggle table two ticks after a write to TOGCTL; with them obligations O34, O50 to O55 and O57. -/

namespace Sys2Proof.Machine

/-! Two cycles -/

/-- Two presented cycles are two steps, each the composed step of its request. -/
theorem two_steps {s : State} {i j : In} {rest : List In} (h : s.inputs = i :: j :: rest) :
    step s = .next ((composedStep s i.req).withInputs (j :: rest)) ∧
      step ((composedStep s i.req).withInputs (j :: rest)) =
        .next ((composedStep ((composedStep s i.req).withInputs (j :: rest)) j.req).withInputs rest) :=
  ⟨step_eq_composedStep s i _ h, step_eq_composedStep _ j rest rfl⟩

/-! A cycle without a write -/

/-- Without a write, the bus address of a tick reaches the response word only (20_memory R59). -/
theorem tick_none_eq_withResp (s : State) (a b : Addr) (d i : Bool) :
    tick s b none d i = (tick s a none d i).withResp (readValue s b) := rfl

/-- The acceptances depend on the request wires only. -/
theorem accD_congr (s : State) {q p : Request} (h : q.dReq = p.dReq) : accD s q = accD s p := by rw [accD, accD, h]

theorem accI_congr (s : State) {q p : Request} (hd : q.dReq = p.dReq) (hi : q.iReq = p.iReq) :
    accI s q = accI s p := by
  rw [accI, accI, hd, hi]

/-- A step without an accepted write, from the presented state before it. -/
theorem step_withInputs_of_not_write {s : State} {i : In} (rest : List In) (h : writeStrobe s i.req = false) :
    step (s.withInputs (i :: rest)) =
      .next ((tick (s.withInputs (i :: rest)) (busAdr i.req) none (accD s i.req) (accI s i.req)).withInputs rest) := by
  rw [step_eq_composedStep _ i rest rfl, composedStep, writtenByte_withInputs, accD_withInputs, accI_withInputs,
    writtenByte_of_not_write (Bool.eq_false_iff.1 h)]

/-- Settles O50: both cycles are ticks without a write, with the same events and acceptances. -/
theorem readAddressReachesOnlyTheResponse : Obligations.ReadAddressReachesOnlyTheResponse := by
  unfold Obligations.ReadAddressReachesOnlyTheResponse
  intro s i j rest hhw hd hi hwi hwj
  refine ⟨_, _, step_withInputs_of_not_write rest hwi, step_withInputs_of_not_write rest hwj, ?_⟩
  rw [← accD_congr s hd, ← accI_congr s hd hi, ← tick_withInputs_congr s _ none _ _ hhw rest,
    tick_none_eq_withResp _ (busAdr i.req)]
  rfl

/-! The bits of a field's value -/

theorem getLsbD_sizeMask {n : Nat} (hn : n ≤ 8) (i : Nat) : (sizeMask n).getLsbD i = decide (i < n) := by
  have hbit : (sizeMask n).getLsbD i = (sizeMask n).toNat.testBit i := rfl
  rw [hbit, sizeMask_toNat n hn, Nat.testBit_two_pow_sub_one]

/-- Bit `n` of a field's slice is bit `offset + n` of the written byte (30_encoding R91). -/
theorem getLsbD_fieldBits {f : Field} (hf : f.size ≤ 8) (w : Byte) {n : Nat} (hn : n < f.size) :
    (fieldBits f w).getLsbD n = w.getLsbD (f.offset + n) := by
  rw [fieldBits, BitVec.getLsbD_and, getLsbD_sizeMask hf, decide_eq_true hn, Bool.and_true,
    BitVec.getLsbD_ushiftRight]

/-- Bit `n` of the value on a field's `hw_val` wires is bit `n` of the event (30_encoding R80). -/
theorem getLsbD_hwBits {f : Field} (hf : f.size ≤ 8) (v : Byte) {n : Nat} (hn : n < f.size) :
    (hwBits f v).getLsbD n = v.getLsbD n := by
  rw [hwBits, BitVec.getLsbD_and, getLsbD_sizeMask hf, decide_eq_true hn, Bool.and_true]

/-! A stored field after a step -/

section
variable {s : State} {i : In} {rest : List In} {k : FieldKey} {f : Field}

theorem Inv.size_le_of_stored (hi : Inv s) (hk : (k, f) ∈ storedFields s.cfg) : f.size ≤ 8 :=
  size_le_of_fieldAt s.cfg hi.valid k f (fieldAt_of_stored s.cfg hi.valid k f hk)

variable (h : s.inputs = i :: rest) (hi : Inv s) (hk : (k, f) ∈ storedFields s.cfg)
include h hi hk

/-- A stored field takes the next value of its policy, from what it sees in the cycle. -/
theorem Inv.fieldVal_step :
    fieldVal ((composedStep s i.req).withInputs rest) k =
      nextField f (fieldVal s k) (fieldIn s.cfg (busAdr i.req) (writtenByte s i.req) i.hw k) := by
  rw [← hwNow_of_inputs h]
  exact hi.fieldVal_tick hk _ _ (accD s i.req) (accI s i.req)

/-- A strobed ReadWrite or Pulse field holds the written bits. -/
theorem Inv.fieldVal_step_of_written (ha : f.access = .readWrite ∨ f.access = .pulse)
    (hwr : writeStrobe s i.req = true) (hstrobe : strobed s.cfg (busAdr i.req) k = true) :
    fieldVal ((composedStep s i.req).withInputs rest) k = fieldBits f i.req.dDatW := by
  have hm := not_mirror_of_stored hk
  have hseen : (writeStrobe s i.req && strobed s.cfg (busAdr i.req) k) = true := by rw [hwr, hstrobe, Bool.and_self]
  rw [hi.fieldVal_step h hk]
  rcases ha with ha | ha
  · rw [nextField_of_readWrite hm _ ha, ite_strobe_fieldIn s i.req i.hw k (fieldBits f), if_pos hseen]
  · rw [nextField_of_pulse hm _ ha, ite_strobe_fieldIn s i.req i.hw k (fieldBits f), if_pos hseen]

/-- A Pulse field that is not strobed is 0 (the spec's decision D15). -/
theorem Inv.fieldVal_step_of_pulse_over (ha : f.access = .pulse)
    (hquiet : ¬ (writeStrobe s i.req && strobed s.cfg (busAdr i.req) k) = true) :
    fieldVal ((composedStep s i.req).withInputs rest) k = 0x00#8 := by
  rw [hi.fieldVal_step h hk, nextField_of_pulse (not_mirror_of_stored hk) _ ha,
    ite_strobe_fieldIn s i.req i.hw k (fieldBits f), if_neg hquiet]

/-- A stored ReadOnly field takes its event's value (43_register_bank R172). -/
theorem Inv.fieldVal_step_of_readOnly_event (ha : f.access = .readOnly) {v : Byte} (hw : hwFor i.hw k = some v) :
    fieldVal ((composedStep s i.req).withInputs rest) k = hwBits f v := by
  rw [hi.fieldVal_step h hk, nextField_of_readOnly_event (not_mirror_of_stored hk) _ ha hw]

/-- A stored ReadOnly field without an event keeps its value, whatever is written (43_register_bank R172). -/
theorem Inv.fieldVal_step_of_readOnly_quiet (ha : f.access = .readOnly) (hw : hwFor i.hw k = none) :
    fieldVal ((composedStep s i.req).withInputs rest) k = fieldVal s k := by
  rw [hi.fieldVal_step h hk, nextField_of_readOnly_quiet (not_mirror_of_stored hk) _ ha hw]

end

/-! ReadOnly and ClearOnWrite fields -/

/-- A run whose first step answers a next state goes on from there. -/
theorem run_succ {s t : State} (h : step s = .next t) (n : Nat) :
    Host.Core.run Sys2Proof.core (n + 1) s = Host.Core.run Sys2Proof.core n t := by
  have hcore : Sys2Proof.core.step s = .next t := h
  simp only [Host.Core.run, hcore]

/-- Through a run without an event for it, a stored ReadOnly field keeps its value, whatever is written. -/
theorem Inv.fieldVal_run_of_readOnly {s : State} (hi : Inv s) {k : FieldKey} {f : Field}
    (hk : (k, f) ∈ storedFields s.cfg) (ha : f.access = .readOnly) {n : Nat} (hn : n ≤ s.inputs.length)
    (hquiet : ∀ i ∈ s.inputs.take n, hwFor i.hw k = none) :
    ∃ t, Host.Core.run Sys2Proof.core n s = .next t ∧ fieldVal t k = fieldVal s k := by
  induction n generalizing s with
  | zero => exact ⟨s, rfl, rfl⟩
  | succ n ih =>
    cases hin : s.inputs with
    | nil => simp [hin] at hn
    | cons i rest =>
      rw [hin, List.take_succ_cons, List.forall_mem_cons] at hquiet
      rw [hin, List.length_cons] at hn
      obtain ⟨t, hrun, hval⟩ := ih ((hi.after_composedStep i.req).withInputs rest) hk (by simpa using hn) hquiet.2
      refine ⟨t, (run_succ (step_eq_composedStep s i rest hin) n).trans hrun, hval.trans ?_⟩
      exact hi.fieldVal_step_of_readOnly_quiet hin hk ha hquiet.1

/-- Settles O51: one step by the field's policy, a run by induction on its length. -/
theorem readOnlyFieldFollowsOnlyItsChannel : Obligations.ReadOnlyFieldFollowsOnlyItsChannel := by
  unfold Obligations.ReadOnlyFieldFollowsOnlyItsChannel
  intro s k f hi hk ha
  refine ⟨fun i rest h => ⟨_, step_eq_composedStep s i rest h, ?_⟩,
    fun n hn hquiet => hi.fieldVal_run_of_readOnly hk ha hn hquiet⟩
  cases hw : hwFor i.hw k with
  | some v => exact hi.fieldVal_step_of_readOnly_event h hk ha hw
  | none => exact hi.fieldVal_step_of_readOnly_quiet h hk ha hw

/-- Settles O52: an event assigns its bits; without one a strobe clears the bits written 1. -/
theorem clearOnWriteIsSetOnlyByItsChannel : Obligations.ClearOnWriteIsSetOnlyByItsChannel := by
  unfold Obligations.ClearOnWriteIsSetOnlyByItsChannel
  intro s i rest k f h hi hk ha
  have hm := not_mirror_of_stored hk
  have hsize := hi.size_le_of_stored hk
  refine ⟨_, step_eq_composedStep s i rest h, fun v hw n hn => ?event, fun hw n hn => ?quiet⟩
  case event =>
    rw [hi.fieldVal_step h hk, nextField_of_clearOnWrite_event hm _ ha hw, getLsbD_hwBits hsize v hn]
  case quiet =>
    have hn8 : n < 8 := by omega
    rw [hi.fieldVal_step h hk, nextField_of_clearOnWrite_quiet hm _ ha hw,
      ite_strobe_fieldIn s i.req i.hw k fun w => fieldVal s k &&& ~~~(fieldBits f w)]
    split
    · next hstrobe =>
      rw [hstrobe, Bool.true_and, BitVec.getLsbD_and, BitVec.getLsbD_not, getLsbD_fieldBits hsize _ hn,
        decide_eq_true hn8, Bool.true_and]
    · next hstrobe => rw [Bool.eq_false_iff.2 hstrobe, Bool.false_and, Bool.not_false, Bool.and_true]

/-! Pulse fields -/

/-- A write strobe is an accepted DWRITE (41_arbiter R140). -/
theorem dReq_and_dWe_of_write {s : State} {q : Request} (h : writeStrobe s q = true) :
    q.dReq = true ∧ q.dWe = true := by
  rw [writeStrobe, Bool.and_eq_true, accD_eq_true_iff] at h
  obtain ⟨⟨hreq, -⟩, hwe⟩ := h
  exact ⟨hreq, hwe⟩

/-- A request that writes no byte to a register's address strobes none of its fields. -/
theorem not_strobe_of_not_dwrite {s : State} {q : Request} {k : FieldKey}
    (h : ¬ (q.dReq = true ∧ q.dWe = true ∧ q.dAdr = k.addr)) :
    ¬ (writeStrobe s q && strobed s.cfg (busAdr q) k) = true := by
  rw [Bool.and_eq_true, strobed_eq_true]
  rintro ⟨hwr, b, -, haddr⟩
  obtain ⟨hreq, hwe⟩ := dReq_and_dWe_of_write hwr
  exact h ⟨hreq, hwe, ((busAdr_of_dReq hreq).symm.trans haddr.symm)⟩

/-- Settles O53: the first cycle strobes the field, the second does not. -/
theorem pulseLastsOneCycle : Obligations.PulseLastsOneCycle := by
  unfold Obligations.PulseLastsOneCycle
  intro s i j rest k f h hi hk ha hwr hstrobe hj
  obtain ⟨hfirst, hsecond⟩ := two_steps h
  have hi' := (hi.after_composedStep i.req).withInputs (j :: rest)
  refine ⟨_, _, hfirst, hsecond, ?_, hi'.fieldVal_step_of_pulse_over rfl hk ha (not_strobe_of_not_dwrite hj)⟩
  rw [hi.fieldVal_step_of_written h hk (.inr ha) hwr hstrobe, fieldBits_toNat f _ (hi.size_le_of_stored hk)]

/-! Read after write -/

/-- Lane 0 of a read of a MemoryRegion is the byte at the local address, wide or narrow. -/
theorem extractLsb'_readValue_of_mem {s : State} {a : Addr} {r : Region} {o : MemOptions}
    (h : resolve s.cfg a = .mem r o) : (readValue s a).extractLsb' 0 8 = regionByte s.mem r (localAddr r a) := by
  cases hw : o.wide with
  | true =>
    rw [readValue_of_wide h hw]
    refine (extractLsb'_readWide s.mem r _ (by decide : 0 < 4)).trans ?_
    rw [laneAddr, BitVec.add_zero]
  | false =>
    rw [readValue_of_narrow h hw]
    refine BitVec.eq_of_toNat_eq ?_
    rw [BitVec.extractLsb'_toNat, Nat.shiftRight_zero, readNarrow_toNat, Nat.mod_eq_of_lt (BitVec.isLt _)]

/-- A byte written to a writable region inside it is the region's byte afterwards. -/
theorem regionByte_writeByte {m : Memory} (hm : m.wf) {r : Region} {o : MemOptions} (ho : o.writable = true) {l : Addr}
    (hl : l.toNat < r.size.toNat) (v : Byte) : regionByte (writeByte m r o l v) r l = v := by
  rw [regionByte, if_pos hl, read_writeByte m hm, if_pos ⟨⟨ho, hl⟩, rfl⟩]

/-- Settles O54: the write lands in the region's byte, which the next cycle reads in lane 0. -/
theorem writeThenReadReturnsTheByte : Obligations.WriteThenReadReturnsTheByte := by
  unfold Obligations.WriteThenReadReturnsTheByte
  intro s i j rest r o h hm hwr hres ho hl hadr
  obtain ⟨hfirst, hsecond⟩ := two_steps h
  refine ⟨_, _, hfirst, hsecond, ?_⟩
  obtain ⟨hreq, -⟩ := dReq_and_dWe_of_write hwr
  have hmem : ((composedStep s i.req).withInputs (j :: rest)).mem =
      writeByte s.mem r o (localAddr r i.req.dAdr) i.req.dDatW := by
    rw [State.withInputs_mem, composedStep, tick_mem, writtenByte_of_write hwr, busAdr_of_dReq hreq,
      nextMem_mem s _ _ r o hres]
  have hres' : resolve ((composedStep s i.req).withInputs (j :: rest)).cfg i.req.dAdr = .mem r o := hres
  rw [State.withInputs_resp, composedStep, tick_resp, hadr, extractLsb'_readValue_of_mem hres', hmem]
  exact regionByte_writeByte hm ho hl _

/-- A bank that an address reaches stands at its place. -/
theorem bankAt_of_resolve {c : Cfg} {a : Addr} {k : Nat} {b : Bank} (h : resolve c a = .bank k b) :
    bankAt c k = some b := by
  obtain ⟨r, hd, hb⟩ := (resolve_eq_bank c a k b).1 h
  obtain ⟨hk, -⟩ := decodeAddr_eq_some c a r k hd
  exact bankAt_of_getElem c k r b hk hb

/-- Bit `n` of the response word of a bank is bit `n` of the register's value, `n < 8` (43_register_bank R181). -/
theorem getLsbD_bankValue {s : State} {k : Nat} {b : Bank} {a : Addr} {g : Register} (h : registerAt b a = some g)
    {n : Nat} (hn : n < 32) : (bankValue s k b a).getLsbD n = (regValue s k g).getLsbD n := by
  simp only [bankValue, h, BitVec.getLsbD_setWidth, hn, decide_true, Bool.true_and]

/-- Settles O55: the write strobes the field, and the register's value has its bits in the field's place. -/
theorem readWriteFieldReadsBack : Obligations.ReadWriteFieldReadsBack := by
  unfold Obligations.ReadWriteFieldReadsBack
  intro s i j rest k b g f hi h hwr hres hreg hf ha hadr
  obtain ⟨hfirst, hsecond⟩ := two_steps h
  refine ⟨_, _, hfirst, hsecond, fun n hn => ?_⟩
  obtain ⟨hg, hgaddr⟩ := mem_and_of_find? hreg
  obtain ⟨hreq, -⟩ := dReq_and_dWe_of_write hwr
  have hb := bankAt_of_resolve hres
  obtain ⟨-, -, hfields, -⟩ := registerOk_of_bankAt hi.valid hb hg
  obtain ⟨⟨-, hfits⟩, hpolicy, -⟩ := hfields f hf
  have hm : f.mirror = false := by
    rw [Bool.eq_false_iff]
    intro hmirror
    cases ha.symm.trans (hpolicy hmirror)
  have hk := stored_of_bankAt hb hg hf hm
  have hstrobe : strobed s.cfg (busAdr i.req) ⟨k, g.address, f.offset⟩ = true :=
    (strobed_eq_true _ _ _).2 ⟨b, (busAdr_of_dReq hreq).symm ▸ hres, (busAdr_of_dReq hreq).symm ▸ hgaddr⟩
  have hi' := (hi.after_composedStep i.req).withInputs (j :: rest)
  have hres' : resolve ((composedStep s i.req).withInputs (j :: rest)).cfg i.req.dAdr = .bank k b := hres
  rw [State.withInputs_resp, composedStep, tick_resp, hadr, readValue_of_bank hres', getLsbD_bankValue hreg (by omega),
    hi'.getLsbD_regValue_offset_add hb hg hf hn, fieldValue_of_not_mirror _ _ hm,
    hi.fieldVal_step_of_written h hk (.inl ha) hwr hstrobe, getLsbD_fieldBits (by omega) _ hn]

/-! The toggle status -/

/-- The toggle status where a bit is selected (44_toggle_table R219). -/
theorem mirrorQ_of_selected {s : State} {t : TogKeys} {j : Nat} (h : togSel s t = some j) :
    mirrorQ s t = if s.tog.getLsbD j = true then 1#8 else 0#8 := by
  simp only [mirrorQ, h]
  cases s.tog.getLsbD j <;> rfl

/-- The toggle status where none is selected (44_toggle_table R220). -/
theorem mirrorQ_of_not_selected {s : State} {t : TogKeys} (h : togSel s t = none) : mirrorQ s t = 0#8 := by
  simp only [mirrorQ, h]

/-- The mirror field that the toggle table owns reads the toggle status. -/
theorem fieldValue_of_status {s : State} {t : TogKeys} {f : Field} (ht : togKeys s.cfg = some t)
    (hm : f.mirror = true) : fieldValue s t.q f = mirrorQ s t := by
  simp only [fieldValue_of_mirror s t.q hm, mirrorVal, ht, if_true]

/-- Settles O57: the status field is the bound mirror field, and the stored direction is one bit. -/
theorem toggleStatusReadsTheSelectedBit : Obligations.ToggleStatusReadsTheSelectedBit := by
  unfold Obligations.ToggleStatusReadsTheSelectedBit
  intro s t f hi ht hf sel
  obtain ⟨-, ⟨fd, hd, -, hdsize, -⟩, -, -, ⟨fq, hq, -, -, hm⟩⟩ := togKeys_fields s.cfg hi.valid t ht
  obtain rfl : fq = f := Option.some.inj (hq.symm.trans hf)
  have hdir : fieldBit s t.dir = decide (fieldVal s t.dir = 1#8) := by
    rw [Bool.eq_iff_iff, decide_eq_true_iff]
    exact hi.fieldBit_eq_true_iff hd hdsize
  have hsel : togSel s t = sel := by rw [togSel, hdir]
  rw [fieldValue_of_status ht hm, ← hsel]
  exact ⟨fun j hj => mirrorQ_of_selected hj, mirrorQ_of_not_selected⟩

/-! A write to TOGCTL of the reference configuration -/

/-- The key of TOGCTL's field at an offset. -/
def togctlKey (offset : Nat) : FieldKey := { bank := 1, addr := 0xE683#16, offset := offset }

/-- The five fields of TOGCTL as the toggle table is bound to them (44_toggle_table R214, the spec's decision D19). -/
def togctlKeys : TogKeys :=
  { ep := togctlKey 0, dir := togctlKey 4, set := togctlKey 6, reset := togctlKey 5, q := togctlKey 7 }

theorem controlRegister_refCfg (image : List Byte) :
    controlRegister (refCfg image) 0xE683#16 = some (1, togctl) := by
  have hreg : registerAt { registers := [csrE600, togctl], finalized := true } 0xE683#16 = some togctl := by decide
  simp only [controlRegister, resolve_refCfg_csr (image := image) (a := 0xE683#16) (by decide), hreg]

theorem togKeys_refCfg (image : List Byte) : togKeys (refCfg image) = some togctlKeys := by
  have htoggle : (refCfg image).toggle = some togctlBinding := rfl
  have hctl : controlRegister (refCfg image) togctlBinding.ctl = some (1, togctl) := controlRegister_refCfg image
  have hep : boundField togctl togctlBinding.ep .readWrite 4 false = some 0 := by decide
  have hdir : boundField togctl togctlBinding.dir .readWrite 1 false = some 4 := by decide
  have hset : boundField togctl togctlBinding.set .pulse 1 false = some 6 := by decide
  have hreset : boundField togctl togctlBinding.reset .pulse 1 false = some 5 := by decide
  have hq : boundField togctl togctlBinding.q .readOnly 1 true = some 7 := by decide
  simp only [togKeys, htoggle, hctl, hep, hdir, hset, hreset, hq]
  rfl

/-- TOGCTL's stored fields take the written byte's bits. -/
theorem access_togctl : ∀ f ∈ togctl.fields, f.mirror = false → f.access = .readWrite ∨ f.access = .pulse := by decide

/-- REFCFG accepts every DWRITE: its handshake is pipelined. -/
theorem writeStrobe_of_pipelined {s : State} (h : s.cfg.handshake = .pipelined) (a : Addr) (v : Byte) :
    writeStrobe s (dataRequest true a v) = true := by
  simp [writeStrobe, accD, ungated, dataRequest, h]

/-- After a write of a byte to TOGCTL, a stored field of it holds the byte's bits at its place. -/
theorem getLsbD_fieldVal_togctl {s : State} (hi : Inv s) {image : List Byte} (hcfg : s.cfg = refCfg image) {v : Byte}
    {hw : List HwEvent} {rest : List In} (h : s.inputs = { req := dataRequest true 0xE683#16 v, hw := hw } :: rest)
    {f : Field} (hf : f ∈ togctl.fields) (hm : f.mirror = false) {n : Nat} (hn : n < f.size) :
    (fieldVal ((composedStep s (dataRequest true 0xE683#16 v)).withInputs rest) (togctlKey f.offset)).getLsbD n =
      v.getLsbD (f.offset + n) := by
  have hk : (togctlKey f.offset, f) ∈ storedFields s.cfg := by
    rw [hcfg, mem_storedFields]
    exact ⟨csrRegion [csrE600, togctl], _, togctl, rfl, rfl, by decide, hf, hm, rfl, rfl⟩
  have hstrobe : strobed s.cfg 0xE683#16 (togctlKey f.offset) = true := by
    rw [hcfg, strobed_eq_true]
    exact ⟨_, resolve_refCfg_csr (by decide), rfl⟩
  have hwr : writeStrobe s (dataRequest true 0xE683#16 v) = true := writeStrobe_of_pipelined (by rw [hcfg]; rfl) _ _
  have hval := hi.fieldVal_step_of_written h hk (access_togctl f hf hm) hwr hstrobe
  rw [hval]
  exact getLsbD_fieldBits (hi.size_le_of_stored hk) v hn

/-- What the next cycle's toggle action sees of a byte written to TOGCTL: its pulses and its selection (44_toggle_table
R214, R215; the spec's decision D19). -/
theorem togctl_operands_of_written {s : State} (hi : Inv s) {image : List Byte} (hcfg : s.cfg = refCfg image) {v : Byte}
    {hw : List HwEvent} {rest : List In} (h : s.inputs = { req := dataRequest true 0xE683#16 v, hw := hw } :: rest) :
    let t := (composedStep s (dataRequest true 0xE683#16 v)).withInputs rest
    fieldBit t togctlKeys.set = v.getLsbD 6 ∧ fieldBit t togctlKeys.reset = v.getLsbD 5 ∧
      togSel t togctlKeys = indexOf (v.extractLsb' 0 4) (v.getLsbD 4) := by
  intro t
  have hbit (f : Field) (hf : f ∈ togctl.fields) (hm : f.mirror = false) (n : Nat) (hn : n < f.size) :
      (fieldVal t (togctlKey f.offset)).getLsbD n = v.getLsbD (f.offset + n) :=
    getLsbD_fieldVal_togctl hi hcfg h hf hm hn
  have hset : fieldBit t togctlKeys.set = v.getLsbD 6 :=
    hbit { name := "set", offset := 6, size := 1, access := .pulse, mirror := false, reset := 0 } (by decide) rfl 0
      (by decide)
  have hreset : fieldBit t togctlKeys.reset = v.getLsbD 5 :=
    hbit { name := "reset", offset := 5, size := 1, access := .pulse, mirror := false, reset := 0 } (by decide) rfl 0
      (by decide)
  have hdir : fieldBit t togctlKeys.dir = v.getLsbD 4 :=
    hbit { name := "dir", offset := 4, size := 1, access := .readWrite, mirror := false, reset := 0 } (by decide) rfl 0
      (by decide)
  have hep : (fieldVal t togctlKeys.ep).setWidth 4 = v.extractLsb' 0 4 := by
    refine BitVec.eq_of_getLsbD_eq fun n hn => ?_
    rw [BitVec.getLsbD_setWidth, BitVec.getLsbD_extractLsb']
    exact congrArg (decide (n < 4) && ·) (hbit
      { name := "ep", offset := 0, size := 4, access := .readWrite, mirror := false, reset := 0 } (by decide) rfl n hn)
  exact ⟨hset, hreset, by rw [togSel, hep, hdir]⟩

/-- Settles O34: the write's own tick acts with the pulses stored before it; the next tick acts with the byte's. -/
theorem togglePulseActsTwoTicksAfterTheWrite : Obligations.TogglePulseActsTwoTicksAfterTheWrite := by
  unfold Obligations.TogglePulseActsTwoTicksAfterTheWrite
  intro s image v h1 j rest hi hcfg h
  obtain ⟨hfirst, hsecond⟩ := two_steps h
  refine ⟨_, _, hfirst, hsecond, rfl, fun n hn => ?_⟩
  obtain ⟨hset, hreset, hsel⟩ := togctl_operands_of_written hi hcfg h
  have hbound :
      togKeys ((composedStep s (dataRequest true 0xE683#16 v)).withInputs (j :: rest)).cfg = some togctlKeys :=
    (congrArg togKeys hcfg).trans (togKeys_refCfg image)
  rw [State.withInputs_tog, composedStep, tick_tog, nextTog_of_bound hbound, hset, hreset, hsel]
  exact getLsbD_togAct _ _ _ _ n hn

end Sys2Proof.Machine
